-- ==== Sys2Proof/Word.lean ====
section
/-! DEFINITION. The word types of the DS3231 codec block (00_scope.md R7, R9): unsigned bit vectors,
bit 0 the least significant. -/

namespace Sys2Proof

/-- One register byte of the chip, or one 8-bit field (R7, R51). -/
abbrev Byte := BitVec 8

/-- A peripheral register address (R7, R50: `addr: u8`). -/
abbrev Addr := BitVec 8

/-- A Unix time: unsigned 32-bit count of seconds since 1970-01-01T00:00:00Z (R23). -/
abbrev UnixTime := BitVec 32

/-- An absolute year (R7, R21). -/
abbrev Year := BitVec 16

/-- A one-bit field: `osc_en`, `dydt`, `ie`, a setting bit, a mode bit (R21, R25, R33). -/
abbrev Bit := BitVec 1

end Sys2Proof
end

