-- ==== Sys2Proof/Syntax.lean ====
section
/-! DEFINITION. The records the ports carry (R21, R25), the command tuple (R80), and the commands
(R83): one constructor per row of spec/opcode_table.json. -/

namespace Sys2Proof

/-- The DateTime record (R21): port `DT`, result register `RES_DT`. `dow` is 1 = Monday to
7 = Sunday; `year` is absolute. Values outside the legal ranges are representable. -/
structure DateTime where
  sec : Byte
  min : Byte
  hour : Byte
  dow : Byte
  date : Byte
  month : Byte
  year : Year
  oscEn : Bit
  deriving DecidableEq, Repr, Inhabited

/-- The AlarmRecord (R25): port `AL`, result register `RES_AL`. `dydt = 1` makes `dd` a day of the
week, `dydt = 0` a day of the month; `mode` is the match-mode code of R181 or R182, and 7 in a
result means that the chip's mode bits form no listed pattern. -/
structure AlarmRecord where
  sec : Byte
  min : Byte
  hour : Byte
  dd : Byte
  dydt : Bit
  mode : BitVec 3
  ie : Bit
  deriving DecidableEq, Repr, Inhabited

/-- A command as the host presents it on the ports, `(OP, A, DT, AL)` (R80). -/
structure Command where
  op : Byte
  a : BitVec 32
  dt : DateTime
  al : AlarmRecord
  deriving DecidableEq, Repr, Inhabited

/-- The commands (R83). An operand is the value R82 says the command reads: the port bits for a
scalar, the record for `DT` or `AL`. The fields of a record that R82 says are ignored stand at 0
in a well-formed command (WellFormed.lean), and no meaning reads them. -/
inductive Instr where
  /-- BCDDEC, R104: `A[7:0]`. -/
  | bcddec (b : Byte)
  /-- BCDENC, R105: `A[7:0]`. -/
  | bcdenc (v : Byte)
  /-- DT2U, R132: year, month, date, hour, min, sec of `DT`. -/
  | dt2u (dt : DateTime)
  /-- U2DT, R133: `A[31:0]`. -/
  | u2dt (t : UnixTime)
  /-- DOW, R134: year, month, date of `DT`. -/
  | dow (dt : DateTime)
  /-- LEAP4, R135: `A[15:0]`. -/
  | leap4 (y : Year)
  /-- LEAPG, R136: `A[15:0]`. -/
  | leapg (y : Year)
  /-- LDU, R137: `A[31:0]`. -/
  | ldu (t : UnixTime)
  /-- SETDT, R154: all of `DT` except osc_en. -/
  | setdt (dt : DateTime)
  /-- GETDT, R155. -/
  | getdt
  /-- SETU, R156: `A[31:0]`. -/
  | setu (t : UnixTime)
  /-- GETU, R157. -/
  | getu
  /-- SETAL1, R185: all of `AL`. -/
  | setal1 (al : AlarmRecord)
  /-- GETAL1, R186. -/
  | getal1
  /-- SETAL2, R187: all of `AL` except sec. -/
  | setal2 (al : AlarmRecord)
  /-- GETAL2, R188. -/
  | getal2
  /-- SETEOSC, R203: `A[0]`. -/
  | seteosc (v : Bit)
  /-- SETBBSQW, R204: `A[0]`. -/
  | setbbsqw (v : Bit)
  /-- SETRS, R205: `A[1:0]`, RS2:RS1. -/
  | setrs (rs : BitVec 2)
  /-- SETINTCN, R206: `A[0]`. -/
  | setintcn (v : Bit)
  /-- SETA1IE, R207: `A[0]`. -/
  | seta1ie (v : Bit)
  /-- SETA2IE, R208: `A[0]`. -/
  | seta2ie (v : Bit)
  /-- SETEN32K, R209: `A[0]`. -/
  | seten32k (v : Bit)
  /-- CLRA1F, R210. -/
  | clra1f
  /-- CLRA2F, R211. -/
  | clra2f
  /-- CLROSF, R212. -/
  | clrosf
  /-- GETEOSC, R215. -/
  | geteosc
  /-- GETBBSQW, R216. -/
  | getbbsqw
  /-- GETRS, R217. -/
  | getrs
  /-- GETINTCN, R218. -/
  | getintcn
  /-- GETA1IE, R219. -/
  | geta1ie
  /-- GETA2IE, R220. -/
  | geta2ie
  /-- GETEN32K, R221. -/
  | geten32k
  /-- GETA1F, R222. -/
  | geta1f
  /-- GETA2F, R223. -/
  | geta2f
  /-- GETOSF, R224. -/
  | getosf
  /-- GETBSY, R225. -/
  | getbsy
  deriving DecidableEq, Repr

end Sys2Proof
end

