-- ==== Sys2Proof/WellFormed.lean ====
section
/-! DEFINITION. The checks on a command as syntax: the closed alarm-mode enumerations (R85, R181,
R182), and the record fields that R82 says a command ignores, which a command in canonical form
holds at 0 (log 14). -/

namespace Sys2Proof

/-- A command in canonical form: a legal alarm mode, and 0 in every operand field R82 ignores. -/
def Instr.wellFormed : Instr → Bool
  | .dt2u dt => dt.dow == 0 && dt.oscEn == 0
  | .dow dt => dt.sec == 0 && dt.min == 0 && dt.hour == 0 && dt.dow == 0 && dt.oscEn == 0
  | .setdt dt => dt.oscEn == 0
  | .setal1 al => decide (al.mode.toNat ≤ 4)
  | .setal2 al => al.sec == 0 && decide (al.mode.toNat ≤ 3)
  | .bcddec _ | .bcdenc _ | .u2dt _ | .leap4 _ | .leapg _ | .ldu _ | .getdt | .setu _ | .getu
  | .getal1 | .getal2 | .seteosc _ | .setbbsqw _ | .setrs _ | .setintcn _ | .seta1ie _
  | .seta2ie _ | .seten32k _ | .clra1f | .clra2f | .clrosf | .geteosc | .getbbsqw | .getrs
  | .getintcn | .geta1ie | .geta2ie | .geten32k | .geta1f | .geta2f | .getosf | .getbsy => true

end Sys2Proof
end

