-- ==== Sys2Proof/Decode.lean ====
section
/-! DEFINITION. The decoder, total on every command tuple (R83 to R87), the encoder written from the
same table, the packed form of a command (R80), and the reading of a table word. -/

namespace Sys2Proof

/-- Why a command tuple spells no command (R84, R85). -/
inductive DecodeError where
  /-- OP is reserved (R84). -/
  | reservedOpcode (op : Byte)
  /-- The alarm match mode lies outside the closed enumeration (R85). -/
  | reservedAlarmMode (op : Byte) (mode : BitVec 3)
  deriving DecidableEq, Repr

/-- A DateTime with every field 0. -/
def zeroDateTime : DateTime := ⟨0, 0, 0, 0, 0, 0, 0, 0⟩

/-- An AlarmRecord with every field 0. -/
def zeroAlarm : AlarmRecord := ⟨0, 0, 0, 0, 0, 0, 0⟩

/-- `A[hi:lo]` as an operand of width w (R9, R82). -/
def portBits (a : BitVec 32) (w : Nat) : BitVec w := a.setWidth w

/-- Decode the ports (R82, R83, R84, R85, R87). The decode check is on OP, then on AL.mode (R245). -/
def decode (c : Command) : Except DecodeError Instr :=
  match c.op with
  | 0x01#8 => .ok (.bcddec (portBits c.a 8))
  | 0x02#8 => .ok (.bcdenc (portBits c.a 8))
  | 0x10#8 => .ok (.dt2u { c.dt with dow := 0, oscEn := 0 })
  | 0x11#8 => .ok (.u2dt (portBits c.a 32))
  | 0x12#8 => .ok (.dow { zeroDateTime with date := c.dt.date, month := c.dt.month, year := c.dt.year })
  | 0x13#8 => .ok (.leap4 (portBits c.a 16))
  | 0x14#8 => .ok (.leapg (portBits c.a 16))
  | 0x15#8 => .ok (.ldu (portBits c.a 32))
  | 0x20#8 => .ok (.setdt { c.dt with oscEn := 0 })
  | 0x21#8 => .ok .getdt
  | 0x22#8 => .ok (.setu (portBits c.a 32))
  | 0x23#8 => .ok .getu
  | 0x28#8 => if c.al.mode.toNat ≤ 4 then .ok (.setal1 c.al) else .error (.reservedAlarmMode c.op c.al.mode)
  | 0x29#8 => .ok .getal1
  | 0x2A#8 => if c.al.mode.toNat ≤ 3 then .ok (.setal2 { c.al with sec := 0 })
              else .error (.reservedAlarmMode c.op c.al.mode)
  | 0x2B#8 => .ok .getal2
  | 0x30#8 => .ok (.seteosc (portBits c.a 1))
  | 0x31#8 => .ok (.setbbsqw (portBits c.a 1))
  | 0x32#8 => .ok (.setrs (portBits c.a 2))
  | 0x33#8 => .ok (.setintcn (portBits c.a 1))
  | 0x34#8 => .ok (.seta1ie (portBits c.a 1))
  | 0x35#8 => .ok (.seta2ie (portBits c.a 1))
  | 0x36#8 => .ok (.seten32k (portBits c.a 1))
  | 0x37#8 => .ok .clra1f
  | 0x38#8 => .ok .clra2f
  | 0x39#8 => .ok .clrosf
  | 0x40#8 => .ok .geteosc
  | 0x41#8 => .ok .getbbsqw
  | 0x42#8 => .ok .getrs
  | 0x43#8 => .ok .getintcn
  | 0x44#8 => .ok .geta1ie
  | 0x45#8 => .ok .geta2ie
  | 0x46#8 => .ok .geten32k
  | 0x47#8 => .ok .geta1f
  | 0x48#8 => .ok .geta2f
  | 0x49#8 => .ok .getosf
  | 0x4A#8 => .ok .getbsy
  | op => .error (.reservedOpcode op)

/-! ### The encoder (R83; ports a command does not read stand at 0, R81) -/

/-- A command with no operand. -/
def plainCommand (op : Byte) : Command := ⟨op, 0, zeroDateTime, zeroAlarm⟩

/-- A command whose operand is on port A, zero-extended (R82). -/
def scalarCommand (op : Byte) {w : Nat} (v : BitVec w) : Command :=
  ⟨op, v.setWidth 32, zeroDateTime, zeroAlarm⟩

/-- A command whose operand is on port DT. -/
def dateCommand (op : Byte) (dt : DateTime) : Command := ⟨op, 0, dt, zeroAlarm⟩

/-- A command whose operand is on port AL. -/
def alarmCommand (op : Byte) (al : AlarmRecord) : Command := ⟨op, 0, zeroDateTime, al⟩

/-- The ports that present a command (R83). -/
def encode : Instr → Command
  | .bcddec b => scalarCommand 0x01 b
  | .bcdenc v => scalarCommand 0x02 v
  | .dt2u dt => dateCommand 0x10 dt
  | .u2dt t => scalarCommand 0x11 t
  | .dow dt => dateCommand 0x12 dt
  | .leap4 y => scalarCommand 0x13 y
  | .leapg y => scalarCommand 0x14 y
  | .ldu t => scalarCommand 0x15 t
  | .setdt dt => dateCommand 0x20 dt
  | .getdt => plainCommand 0x21
  | .setu t => scalarCommand 0x22 t
  | .getu => plainCommand 0x23
  | .setal1 al => alarmCommand 0x28 al
  | .getal1 => plainCommand 0x29
  | .setal2 al => alarmCommand 0x2A al
  | .getal2 => plainCommand 0x2B
  | .seteosc v => scalarCommand 0x30 v
  | .setbbsqw v => scalarCommand 0x31 v
  | .setrs rs => scalarCommand 0x32 rs
  | .setintcn v => scalarCommand 0x33 v
  | .seta1ie v => scalarCommand 0x34 v
  | .seta2ie v => scalarCommand 0x35 v
  | .seten32k v => scalarCommand 0x36 v
  | .clra1f => plainCommand 0x37
  | .clra2f => plainCommand 0x38
  | .clrosf => plainCommand 0x39
  | .geteosc => plainCommand 0x40
  | .getbbsqw => plainCommand 0x41
  | .getrs => plainCommand 0x42
  | .getintcn => plainCommand 0x43
  | .geta1ie => plainCommand 0x44
  | .geta2ie => plainCommand 0x45
  | .geten32k => plainCommand 0x46
  | .geta1f => plainCommand 0x47
  | .geta2f => plainCommand 0x48
  | .getosf => plainCommand 0x49
  | .getbsy => plainCommand 0x4A

/-! ### The packed form (R80: field order of the tables, the first field in the low bits; log 12) -/

/-- Port DT as 65 bits. -/
def packDateTime (d : DateTime) : BitVec 65 :=
  d.oscEn ++ d.year ++ d.month ++ d.date ++ d.dow ++ d.hour ++ d.min ++ d.sec

/-- Port AL as 37 bits. -/
def packAlarm (r : AlarmRecord) : BitVec 37 :=
  r.ie ++ r.mode ++ r.dydt ++ r.dd ++ r.hour ++ r.min ++ r.sec

/-- A command tuple as 142 bits: OP 7:0, A 39:8, DT 104:40, AL 141:105. -/
def packCommand (c : Command) : BitVec 142 :=
  packAlarm c.al ++ packDateTime c.dt ++ c.a ++ c.op

/-- Port DT from its 65 bits. -/
def unpackDateTime (w : BitVec 65) : DateTime where
  sec := w.extractLsb' 0 8
  min := w.extractLsb' 8 8
  hour := w.extractLsb' 16 8
  dow := w.extractLsb' 24 8
  date := w.extractLsb' 32 8
  month := w.extractLsb' 40 8
  year := w.extractLsb' 48 16
  oscEn := w.extractLsb' 64 1

/-- Port AL from its 37 bits. -/
def unpackAlarm (w : BitVec 37) : AlarmRecord where
  sec := w.extractLsb' 0 8
  min := w.extractLsb' 8 8
  hour := w.extractLsb' 16 8
  dd := w.extractLsb' 24 8
  dydt := w.extractLsb' 32 1
  mode := w.extractLsb' 33 3
  ie := w.extractLsb' 36 1

/-- A command tuple from its 142 bits. -/
def unpackCommand (w : BitVec 142) : Command where
  op := w.extractLsb' 0 8
  a := w.extractLsb' 8 32
  dt := unpackDateTime (w.extractLsb' 40 65)
  al := unpackAlarm (w.extractLsb' 105 37)

/-- The packed word that presents a command. -/
def encodeWord (i : Instr) : BitVec 142 := packCommand (encode i)

/-- The command tuple whose low `nbits` packed bits are those of `w`; every bit above them is 0. -/
def tableCommand (nbits w : Nat) : Command := unpackCommand (BitVec.ofNat 142 (w % 2 ^ nbits))

/-- What the decoder reads from a word numbered as spec/opcode_table.json numbers it: bit 0 is the
least significant bit of OP, and the other ports follow in the packed order. -/
def decodeTableWord (nbits w : Nat) : Option Instr :=
  match decode (tableCommand nbits w) with
  | .ok i => some i
  | .error _ => none

end Sys2Proof
end

