-- ==== Sys2Proof/Config.lean ====
section
/-! DEFINITION. What the spec leaves to the implementation or to the environment (R8): the draw of
one transport call (P_TRANSPORT, P_FAILED_WRITE), the parameters P_VOLATILE, P_READ_ATOMIC and
P_BUS_ADDR, and the free values. The parameters' defaults stand in Machine/Params.lean. -/

namespace Sys2Proof

/-- One environment step (R60): the chip drives a byte at one of its registers, and the bits that
P_VOLATILE lists there follow it in the direction the table allows. -/
structure ChipStep where
  addr : Addr
  drive : Byte
  deriving DecidableEq, Repr, Inhabited

/-- Everything the environment decides about ONE transport call (R8, R52 to R54, R60, R61). -/
structure CallDraw where
  /-- P_TRANSPORT: whether the call succeeds. -/
  ok : Bool
  /-- The chip's steps since the call before (or since the command began), oldest first. -/
  before : List ChipStep
  /-- The chip's steps after byte i of a read was delivered, one list per byte (R61). -/
  between : List (List ChipStep)
  /-- P_FAILED_WRITE: what the first addressed registers hold after a failed write. A register the
  list does not reach keeps its byte (log 7). -/
  left : List Byte
  deriving DecidableEq, Repr, Inhabited

/-- FREE VALUE (log 5): the draw of the n-th transport call, where `State.draws` does not name it. -/
opaque Config.freeCall : Nat → CallDraw

/-- FREE VALUE (log 4): the byte REG[a] holds at the start of a run (R40: "a draw, not a
constant"). -/
opaque Config.startByte : Addr → Byte

/-- One value for each result register (R20). -/
structure ResultValues where
  resU : UnixTime
  resB : Byte
  resDT : DateTime
  resAL : AlarmRecord
  flags : Byte
  status : Byte
  deriving DecidableEq, Repr, Inhabited

/-- FREE VALUE (log 3): what the result registers hold after the n-th reset of the block, until a
command writes them. No value of it can be proved: the model supplies neither zero nor another
number (R28). -/
opaque Config.unwrittenResults : Nat → ResultValues

/-- A row of P_VOLATILE (R8, R60): the bits of one register the chip may change on its own. -/
structure VolatileRow where
  addr : Addr
  /-- The bits with direction *any*. -/
  any : Byte
  /-- The bits with direction *set-only*. -/
  setOnly : Byte
  deriving DecidableEq, Repr, Inhabited

/-- The parameters of R8 that hold for a whole run. A state carries one value of them, so that a
statement about every state holds for every value (log 26). -/
structure Params where
  /-- P_VOLATILE: a register without a row has no volatile bit. -/
  volatile : List VolatileRow
  /-- P_READ_ATOMIC (R61). -/
  readAtomic : Bool
  /-- P_BUS_ADDR (D34): the chip's 7-bit bus address. No rule depends on it (log 10). -/
  busAddr : BitVec 7
  deriving DecidableEq, Repr, Inhabited

end Sys2Proof
end

