-- ==== Sys2Proof/Machine/Params.lean ====
section
/-! DEFINITION. The defaults of the parameters of R8. -/

namespace Sys2Proof.Machine

open Sys2Proof

/-- The default P_VOLATILE: the table of R60 (log 8). -/
def defaultVolatile : List VolatileRow :=
  [⟨0x00, 0xFF, 0x00⟩, ⟨0x01, 0xFF, 0x00⟩, ⟨0x02, 0xFF, 0x00⟩, ⟨0x03, 0xFF, 0x00⟩, ⟨0x04, 0xFF, 0x00⟩,
    ⟨0x05, 0xFF, 0x00⟩, ⟨0x06, 0xFF, 0x00⟩, ⟨0x0E, 0x20, 0x00⟩, ⟨0x0F, 0x04, 0x83⟩, ⟨0x11, 0xFF, 0x00⟩,
    ⟨0x12, 0xFF, 0x00⟩]

/-- The defaults of R8: P_VOLATILE the table of R60, P_READ_ATOMIC false (log 9), P_BUS_ADDR 0x68 (log 10). -/
def defaultParams : Params where
  volatile := defaultVolatile
  readAtomic := false
  busAddr := 0x68

end Sys2Proof.Machine
end

