-- ==== Sys2Proof/Machine/State.lean ====
section
/-! DEFINITION. The state of the machine as plain data: the block's result registers (R20), the
chip's register file (R31), the parameters (R8), and what the host and the environment are still to
do and have done; the state after reset (R39, R270). -/

namespace Sys2Proof.Machine

open Sys2Proof

/-- The peripheral register file REG (R31, R50) as (address, byte) pairs, addresses strictly rising.
An address that is not listed has no value in the list: nothing of the run has determined that
register yet, and what the chip delivers for it is the draw of R40 (log 4). -/
abbrev Memory := List Host.Cell

/-- The result registers the host can read (R20, R41). -/
inductive ResultReg where
  | resU | resB | resDT | resAL | flags | status
  deriving DecidableEq, Repr

/-- One event outside the block, taken between commands (R41, R60, R270; the table of R276). -/
inductive Event where
  /-- The host presents a command on the ports and waits for its completion (R41, R80). -/
  | issue (c : Command)
  /-- The host reads a result register after completion (R41). -/
  | read (r : ResultReg)
  /-- The host resets the block, between two commands (R270). -/
  | reset
  /-- The chip takes a step of its own between two commands (R60). -/
  | chip (c : ChipStep)
  deriving DecidableEq, Repr

/-- A transport call as the block makes it (R52, R53). -/
inductive TransportCall where
  /-- `MemRead(addr, n)`. -/
  | read (a : Addr) (n : Nat)
  /-- `MemWrite(addr, n, bytes)`, n the number of bytes. -/
  | write (a : Addr) (bytes : List Byte)
  deriving DecidableEq, Repr

/-- The machine's state. Every result register holds a value at all times (log 3): the one a command wrote,
or, where it is *unwritten*, the free value of its last reset, which `hostRead` gives. -/
structure State where
  /-- RES_U (R20, R23); `none` is the spec's own mark *unwritten* (R28, R39): no
  command has written the register since reset. -/
  resU : Option UnixTime
  /-- RES_B (R20); `none` is *unwritten*. -/
  resB : Option Byte
  /-- RES_DT (R20, R21); `none` is *unwritten*, every field (R39). -/
  resDT : Option DateTime
  /-- RES_AL (R20, R25); `none` is *unwritten*, every field (R39). -/
  resAL : Option AlarmRecord
  /-- FLAGS (R26): bit 0 NBCD, 1 RANGE, 2 H12, 3 ILLOG; `none` is *unwritten*. -/
  flags : Option Byte
  /-- STATUS (R27): 0 OK, 1 TransportFailure, 2 ValidationFailure, 3 IllegalCommand; `none` is
  *unwritten*. -/
  status : Option Byte
  /-- REG, the chip's registers (R31, R50). -/
  reg : Memory
  /-- The model's own (log 1): what the host and, between commands, the chip do next, in order. -/
  agenda : List Event
  /-- The model's own (log 5): the draws of the coming transport calls that are already fixed. Past
  the list's end a draw is the free value `Config.freeCall`. -/
  draws : List CallDraw
  /-- The model's own (log 24): the transport calls made so far, oldest first. No command reads it. -/
  made : List TransportCall
  /-- The parameters of R8 (log 26). No step changes them. -/
  params : Params
  /-- The model's own (log 3): how many resets of the block the host has made, the number of the free value
  the unwritten registers hold. -/
  resets : Nat
  /-- The host's reads of an unwritten register so far, oldest first, each one a fault in R28's sense. The
  run goes on, and no command reads the list (log 3). -/
  faultyReads : List ResultReg
  deriving DecidableEq, Repr

/-- What can stop the machine: nothing. No command stops (R42, R247), the block has no trap, and a host
read of an unwritten register is recorded in `State.faultyReads` and goes on (log 3). -/
inductive Fault where
  deriving DecidableEq, Repr

/-- What the model refuses to execute. -/
inductive Refusal where
  /-- An instruction that has no meaning yet; raised by exec's arm of that name only. Safe. -/
  | notModelled (mnemonic : String)
  deriving DecidableEq, Repr

/-- The outcome of a command or of a step. -/
abbrev Result := Host.Outcome State Fault Refusal

/-- The state right after reset (R39, R270): every result register unwritten, no register of the chip
determined by the run (R40), no command presented yet, nothing said about the transport, no call made,
the parameters at their defaults (R8), no later reset and no faulty read. -/
def State.reset : State where
  resU := none
  resB := none
  resDT := none
  resAL := none
  flags := none
  status := none
  reg := []
  agenda := []
  draws := []
  made := []
  params := defaultParams
  resets := 0
  faultyReads := []

end Sys2Proof.Machine
end

