-- ==== Sys2Proof/Machine/Chip.lean ====
section
/-! DEFINITION. The chip: its register file as a list of cells (R31, R50), and its environment steps,
within the bits P_VOLATILE lists (R38, R60). -/

namespace Sys2Proof.Machine

open Sys2Proof

/-! ### The register file as data -/

/-- The byte an address is listed with; none for an unlisted address (log 4). -/
def Memory.read : Memory → Nat → Option Byte
  | [], _ => none
  | (k, v) :: m, a => if k = a then some v else Memory.read m a

/-- List an address with a byte, in its place. -/
def Memory.write : Memory → Nat → Byte → Memory
  | [], a, b => [(a, b)]
  | (k, v) :: m, a, b =>
    if a < k then (a, b) :: (k, v) :: m
    else if a = k then (a, b) :: m
    else (k, v) :: Memory.write m a b

/-- Canonical form from a lowest address on: strictly rising, within the 8-bit space (R50). -/
def Memory.wfFrom : Nat → Memory → Bool
  | _, [] => true
  | lo, (k, _) :: m => decide (lo ≤ k) && decide (k < 256) && Memory.wfFrom (k + 1) m

/-- Canonical form: addresses strictly rising, each an 8-bit address. An unlisted address has no
value, so no entry can equal what an unlisted address reads as. -/
def Memory.wf (m : Memory) : Bool := Memory.wfFrom 0 m

/-- REG[a]: the listed byte, else the draw of R40 (log 4). -/
def regByte (s : State) (a : Addr) : Byte := (Memory.read s.reg a.toNat).getD (Config.startByte a)

/-- REG[a] <- b. -/
def setReg (a : Addr) (b : Byte) (s : State) : State := { s with reg := Memory.write s.reg a.toNat b }

/-- Store consecutive bytes, byte i at register a + i, with no chip step between them (R53, R56, R61).
Address arithmetic is 8-bit; no transfer of the block passes 0x0F (R57; log 13). -/
def setRegs : Addr → List Byte → State → State
  | _, [], s => s
  | a, b :: bs, s => setRegs (a + 1) bs (setReg a b s)

/-! ### What the chip does on its own -/

/-- The row of P_VOLATILE for a register; a register without one has no volatile bit (R60). -/
def volatileRow (p : Params) (a : Addr) : VolatileRow :=
  (p.volatile.find? (fun r => r.addr == a)).getD ⟨a, 0x00, 0x00⟩

/-- What a register holding `old` becomes when the chip drives `drive` at it: *any* bits follow,
*set-only* bits can only rise, every other bit keeps its value (R60). -/
def chipByte (row : VolatileRow) (old drive : Byte) : Byte :=
  (old &&& ~~~row.any) ||| (drive &&& (row.any ||| row.setOnly))

/-- One environment step (R60). -/
def chipStep (c : ChipStep) (s : State) : State :=
  setReg c.addr (chipByte (volatileRow s.params c.addr) (regByte s c.addr) c.drive) s

/-- Environment steps, oldest first. -/
def chipSteps : List ChipStep → State → State
  | [], s => s
  | c :: cs, s => chipSteps cs (chipStep c s)

end Sys2Proof.Machine
end

