-- ==== Sys2Proof/Machine/Flags.lean ====
section
/-! DEFINITION. The FLAGS register's bits (R26) and the tests that raise them. Every flag of a
command is one of these, and bits 7:4 are always 0. -/

namespace Sys2Proof.Machine

open Sys2Proof

/-- A condition as a byte: `zext_8` of a Boolean (R10). -/
def boolByte (p : Bool) : Byte := if p then 1 else 0

/-- Bit 0, NBCD. -/
def flagNbcd (p : Bool) : Byte := boolByte p

/-- Bit 1, RANGE. -/
def flagRange (p : Bool) : Byte := boolByte p <<< 1

/-- Bit 2, H12. -/
def flagH12 (p : Bool) : Byte := boolByte p <<< 2

/-- Bit 3, ILLOG. -/
def flagIllog (p : Bool) : Byte := boolByte p <<< 3

/-- `nbcd(b)` (R103): b is not valid BCD. -/
def nbcd (b : Byte) : Bool :=
  decide ((b.extractLsb 7 4).toNat > 9) || decide ((b.extractLsb 3 0).toNat > 9)

/-- A value is too large for two BCD digits (R105). -/
def overNinetyNine (v : Byte) : Bool := decide (v.toNat > 99)

/-- The 12/24 select, bit 6 of an hours byte (R26, R32). -/
def twelveHour (hours : Byte) : Bool := hours.getLsbD 6

end Sys2Proof.Machine
end

