-- ==== Sys2Proof/Machine/Operands.lean ====
section
/-! DEFINITION. The forms in which a value stands in a register byte: BCD (R100 to R102), the
time-register masks (R150), the alarm fields and mode bits (R180 to R184), and bit fields (R9). -/

namespace Sys2Proof.Machine

open Sys2Proof

/-- `x[hi:lo]`, zero-extended to a byte (R9). -/
def bitField (x : Byte) (hi lo : Nat) : Byte := (x.extractLsb hi lo).setWidth 8

/-- A value shifted into its place in a byte: `zext_8(v) << n` (R9, R10). -/
def placed {w : Nat} (v : BitVec w) (n : Nat) : Byte := v.setWidth 8 <<< n

/-- `bcd_dec(b) = b[7:4] * 10 + b[3:0]`, for every byte (R101). -/
def bcdDec (b : Byte) : Byte :=
  BitVec.ofNat 8 ((b.extractLsb 7 4).toNat * 10 + (b.extractLsb 3 0).toNat)

/-- `bcd_enc(v) = trunc_8(((v div 10) << 4) | (v mod 10))` (R102). -/
def bcdEnc (v : Byte) : Byte := BitVec.ofNat 8 (((v.toNat / 10) <<< 4) ||| (v.toNat % 10))

/-- Byte i of a transfer (R56). A transfer has exactly the bytes its call asked for (R52). -/
def byteAt (b : List Byte) (i : Nat) : Byte := b.getD i 0

/-- `TMASK[i]`: the BCD field of time-keeping register i (R150). -/
def timeMask : Nat → Byte
  | 0 => 0x7F
  | 1 => 0x7F
  | 2 => 0x3F
  | 3 => 0x07
  | 4 => 0x3F
  | 5 => 0x1F
  | _ => 0xFF

/-! ### Alarm fields -/

/-- Field mask of alarm seconds and minutes (R180). -/
def alarmMinMask : Byte := 0x7F

/-- Field mask of alarm hours (R180). -/
def alarmHourMask : Byte := 0x3F

/-- Field mask of the day/date byte: 4 bits for a day of the week, 6 for a day of the month (R180). -/
def dayMask (dydt : Bit) : Byte := if dydt = 1 then 0x0F else 0x3F

/-- `afield(v, mask)` (R183). -/
def alarmField (v mask : Byte) : Byte := bcdEnc v &&& mask

/-- `aspill(v, mask)`: bits of the value were lost (R183). -/
def alarmSpill (v mask : Byte) : Bool := overNinetyNine v || (bcdEnc v &&& ~~~mask) != 0

/-- The match modes of alarm 1 with their mode bits A1M1 to A1M4 (R181). -/
def alarm1Modes : List (BitVec 3 × List Bit) :=
  [(0, [1, 1, 1, 1]), (1, [0, 1, 1, 1]), (2, [0, 0, 1, 1]), (3, [0, 0, 0, 1]), (4, [0, 0, 0, 0])]

/-- The match modes of alarm 2 with their mode bits A2M2 to A2M4 (R182). -/
def alarm2Modes : List (BitVec 3 × List Bit) :=
  [(0, [1, 1, 1]), (1, [0, 1, 1]), (2, [0, 0, 1]), (3, [0, 0, 0])]

/-- The mode bits of a match mode; none where the code lies outside the enumeration (R85). -/
def patternOf (modes : List (BitVec 3 × List Bit)) (mode : BitVec 3) : Option (List Bit) :=
  (modes.find? (fun r => r.1 == mode)).map (·.2)

/-- The match mode whose pattern the mode bits are, else 7 (R186, R188). -/
def modeOf (modes : List (BitVec 3 × List Bit)) (bits : List Bit) : BitVec 3 :=
  ((modes.find? (fun r => r.2 == bits)).map (·.1)).getD 7

/-- Bit 7 of each alarm byte: its mode bit (R180). -/
def modeBits (a : List Byte) : List Bit := a.map (·.extractLsb' 7 1)

/-- An alarm time byte: the mode bit over the masked BCD field (R183). -/
def alarmByte (m : Bit) (v mask : Byte) : Byte := placed m 7 ||| alarmField v mask

/-- The alarm day/date byte: mode bit, DY/DT selector, field (R183, R185). -/
def alarmDayByte (m dydt : Bit) (dd : Byte) : Byte :=
  placed m 7 ||| placed dydt 6 ||| alarmField dd (dayMask dydt)

/-- The DY/DT selector of a day/date byte (R184). -/
def dayDydt (b : Byte) : Bit := b.extractLsb' 6 1

/-- The day/date field of its byte, masked as its selector says (R184: the selector first). -/
def dayField (b : Byte) : Byte := b &&& dayMask (dayDydt b)

/-- The bytes SETAL1 writes to 0x07-0x0A, from the mode bits of `al.mode` (R185). -/
def alarm1Bytes (m : List Bit) (al : AlarmRecord) : List Byte :=
  [alarmByte (m.getD 0 0) al.sec alarmMinMask, alarmByte (m.getD 1 0) al.min alarmMinMask,
    alarmByte (m.getD 2 0) al.hour alarmHourMask, alarmDayByte (m.getD 3 0) al.dydt al.dd]

/-- Some field of the record loses bits in alarm 1's block (R185). -/
def alarm1Spill (al : AlarmRecord) : Bool :=
  alarmSpill al.sec alarmMinMask || alarmSpill al.min alarmMinMask ||
    alarmSpill al.hour alarmHourMask || alarmSpill al.dd (dayMask al.dydt)

/-- The bytes SETAL2 writes to 0x0B-0x0D, from the mode bits of `al.mode` (R187). -/
def alarm2Bytes (m : List Bit) (al : AlarmRecord) : List Byte :=
  [alarmByte (m.getD 0 0) al.min alarmMinMask, alarmByte (m.getD 1 0) al.hour alarmHourMask,
    alarmDayByte (m.getD 2 0) al.dydt al.dd]

/-- Some field of the record loses bits in alarm 2's block (R187). -/
def alarm2Spill (al : AlarmRecord) : Bool :=
  alarmSpill al.min alarmMinMask || alarmSpill al.hour alarmHourMask ||
    alarmSpill al.dd (dayMask al.dydt)

/-- The record GETAL1 decodes from 0x07-0x0A and the control byte (R186). -/
def decodeAlarm1 (a : List Byte) (c : Byte) : AlarmRecord where
  sec := bcdDec (byteAt a 0 &&& alarmMinMask)
  min := bcdDec (byteAt a 1 &&& alarmMinMask)
  hour := bcdDec (byteAt a 2 &&& alarmHourMask)
  dd := bcdDec (dayField (byteAt a 3))
  dydt := dayDydt (byteAt a 3)
  mode := modeOf alarm1Modes (modeBits a)
  ie := c.extractLsb' 0 1

/-- FLAGS of GETAL1: NBCD, H12, ILLOG (R186). -/
def alarm1Flags (a : List Byte) : Byte :=
  flagNbcd (nbcd (dayField (byteAt a 3)) || nbcd (byteAt a 0 &&& alarmMinMask) ||
      nbcd (byteAt a 1 &&& alarmMinMask) || nbcd (byteAt a 2 &&& alarmHourMask)) |||
    flagH12 (twelveHour (byteAt a 2)) ||| flagIllog (modeOf alarm1Modes (modeBits a) == 7)

/-- The record GETAL2 decodes from 0x0B-0x0D and the control byte; `sec` is written 0 (R188). -/
def decodeAlarm2 (a : List Byte) (c : Byte) : AlarmRecord where
  sec := 0
  min := bcdDec (byteAt a 0 &&& alarmMinMask)
  hour := bcdDec (byteAt a 1 &&& alarmHourMask)
  dd := bcdDec (dayField (byteAt a 2))
  dydt := dayDydt (byteAt a 2)
  mode := modeOf alarm2Modes (modeBits a)
  ie := c.extractLsb' 1 1

/-- FLAGS of GETAL2: NBCD, H12, ILLOG (R188). -/
def alarm2Flags (a : List Byte) : Byte :=
  flagNbcd (nbcd (dayField (byteAt a 2)) || nbcd (byteAt a 0 &&& alarmMinMask) ||
      nbcd (byteAt a 1 &&& alarmHourMask)) |||
    flagH12 (twelveHour (byteAt a 1)) ||| flagIllog (modeOf alarm2Modes (modeBits a) == 7)

end Sys2Proof.Machine
end

