-- ==== Sys2Proof/Machine/Ops.lean ====
section
/-! DEFINITION. The shared operations of every command: the two transport primitives (R52, R53), the
completion of a command (R12), raising an error (R241), the read-modify-write (R201) and the getter
(R213). The block has no return from an error: nothing is entered (R247, R248). -/

namespace Sys2Proof.Machine

open Sys2Proof

/-! ### Ends of a command -/

/-- The error outcomes (R240, R242 to R244). -/
inductive CommandError where
  | transportFailure
  | validationFailure
  | illegalCommand
  deriving DecidableEq, Repr

/-- The STATUS code of an error (R27, R240). -/
def errorCode : CommandError → Byte
  | .transportFailure => 0x01
  | .validationFailure => 0x02
  | .illegalCommand => 0x03

/-- `raise E()` (R241): STATUS <- code(E), FLAGS <- 0, nothing else; register writes that completed
before it stay. -/
def raise (e : CommandError) (s : State) : State :=
  { s with status := some (errorCode e), flags := some 0x00 }

/-- A command completes: FLAGS <- the value its rule gives, STATUS <- 0 (R12). -/
def complete (fl : Byte) (s : State) : State := { s with flags := some fl, status := some 0x00 }

/-! ### The transport -/

/-- The draw of the next transport call (R8; log 5). -/
def nextDraw (s : State) : CallDraw :=
  match s.draws with
  | d :: _ => d
  | [] => Config.freeCall s.made.length

/-- A transport call begins: it is made, its draw is used up, and the chip's steps since the last call
have happened (R60). -/
def beginCall (c : TransportCall) (s : State) : State :=
  chipSteps (nextDraw s).before { s with draws := s.draws.tail, made := s.made ++ [c] }

/-- The chip's steps after each byte of a read (R61): none where P_READ_ATOMIC holds. -/
def gapsOf (s : State) (d : CallDraw) : List (List ChipStep) := if s.params.readAtomic then [] else d.between

/-- Deliver n bytes from register a on, in address order, with the chip's steps after each byte
(R56, R61). -/
def deliver : Nat → Addr → List (List ChipStep) → State → List Byte × State
  | 0, _, _, s => ([], s)
  | n + 1, a, steps, s =>
    let rest := deliver n (a + 1) steps.tail (chipSteps (steps.headD []) s)
    (regByte s a :: rest.1, rest.2)

/-- `MemRead(addr, n)` (R52): none where the transport reports failure, and then no register of the
chip changes but by its own steps (R55). -/
def memRead (a : Addr) (n : Nat) (s : State) : Option (List Byte) × State :=
  if (nextDraw s).ok then
    let r := deliver n a (gapsOf s (nextDraw s)) (beginCall (.read a n) s)
    (some r.1, r.2)
  else (none, beginCall (.read a n) s)

/-- `MemWrite(addr, n, bytes)` (R53): whether the transport reports success. After a failure each
addressed register holds an arbitrary byte, the draw's, and no other register is touched (R54). -/
def memWrite (a : Addr) (bytes : List Byte) (s : State) : Bool × State :=
  if (nextDraw s).ok then (true, setRegs a bytes (beginCall (.write a bytes) s))
  else (false, setRegs a ((nextDraw s).left.take bytes.length) (beginCall (.write a bytes) s))

/-- A read and what follows it; a failed read raises TransportFailure at that point (R11, R244). -/
def readThen (a : Addr) (n : Nat) (k : List Byte → State → State) (s : State) : State :=
  match memRead a n s with
  | (none, t) => raise .transportFailure t
  | (some b, t) => k b t

/-- A write and what follows it; a failed write raises TransportFailure at that point (R11, R244). -/
def writeThen (a : Addr) (bytes : List Byte) (k : State → State) (s : State) : State :=
  match memWrite a bytes s with
  | (false, t) => raise .transportFailure t
  | (true, t) => k t

/-- `rmw(addr, mask, bits)` and what follows it (R201): one read call, then one write call, issued even
when the byte does not change. -/
def rmwThen (a : Addr) (mask bits : Byte) (k : State → State) (s : State) : State :=
  readThen a 1 (fun b t => writeThen a [(byteAt b 0 &&& ~~~mask) ||| bits] k t) s

/-- A setter of the control or status register (R200 to R212): the RMW, then FLAGS 0 and STATUS 0. -/
def setBits (a : Addr) (mask bits : Byte) (s : State) : State := rmwThen a mask bits (complete 0x00) s

/-- `get(addr, hi, lo)` (R213). -/
def getBits (a : Addr) (hi lo : Nat) (s : State) : State :=
  readThen a 1 (fun b t => complete 0x00 { t with resB := some (bitField (byteAt b 0) hi lo) }) s

/-- The control register 0x0E (R35). -/
def controlReg : Addr := 0x0E

/-- The status register 0x0F (R36). -/
def statusReg : Addr := 0x0F

end Sys2Proof.Machine
end

