-- ==== Sys2Proof/Machine/Alarms.lean ====
section
/-! DEFINITION. The alarm commands SETAL1, GETAL1, SETAL2, GETAL2 over 0x07-0x0A, 0x0B-0x0D and the
control register (43_alarms.md). -/

namespace Sys2Proof.Machine

open Sys2Proof

/-- SETAL1 (R185): a mode outside the enumeration raises IllegalCommand before any transport call
(R85); else the block write, then the RMW of SETA1IE with `ie` (R202, D22). -/
def execSetal1 (al : AlarmRecord) (s : State) : Result :=
  .next (match patternOf alarm1Modes al.mode with
    | none => raise .illegalCommand s
    | some m => writeThen 0x07 (alarm1Bytes m al)
        (rmwThen controlReg 0x05 (0x04 ||| placed al.ie 0) (complete (flagRange (alarm1Spill al)))) s)

/-- GETAL1 (R186). -/
def execGetal1 (s : State) : Result :=
  .next (readThen 0x07 4 (fun a => readThen controlReg 1 (fun c t =>
    complete (alarm1Flags a) { t with resAL := some (decodeAlarm1 a (byteAt c 0)) })) s)

/-- SETAL2 (R187): a mode outside the enumeration raises IllegalCommand before any transport call
(R85); else the block write, then the RMW of SETA2IE with `ie` (R202, D22). -/
def execSetal2 (al : AlarmRecord) (s : State) : Result :=
  .next (match patternOf alarm2Modes al.mode with
    | none => raise .illegalCommand s
    | some m => writeThen 0x0B (alarm2Bytes m al)
        (rmwThen controlReg 0x06 (0x04 ||| placed al.ie 1) (complete (flagRange (alarm2Spill al)))) s)

/-- GETAL2 (R188). -/
def execGetal2 (s : State) : Result :=
  .next (readThen 0x0B 3 (fun a => readThen controlReg 1 (fun c t =>
    complete (alarm2Flags a) { t with resAL := some (decodeAlarm2 a (byteAt c 0)) })) s)

end Sys2Proof.Machine
end

