-- ==== Sys2Proof/Machine/Civil.lean ====
section
/-! DEFINITION. The calendar converter's tables and pure functions (41_calendar.md section 1). The
arithmetic is on integers and naturals, narrowed once at the end (R10). -/

namespace Sys2Proof.Machine

open Sys2Proof

/-- `MDAYS[m]`, m in 1..12 (R120; other indexes are never used, log 17). -/
def monthDays (m : Nat) : Nat := [31, 28, 31, 30, 31, 30, 31, 31, 30, 31, 30, 31].getD (m - 1) 0

/-- `CUM[m]`, days before month m of a common year (R121). -/
def daysBeforeMonth (m : Nat) : Nat :=
  [0, 31, 59, 90, 120, 151, 181, 212, 243, 273, 304, 334].getD (m - 1) 0

/-- `MT[m]`, the day-of-week month table (R126). -/
def dowTable (m : Nat) : Nat := [0, 3, 2, 5, 0, 3, 5, 1, 4, 6, 2, 4].getD (m - 1) 0

/-- `leap4(y)` (R122). -/
def leap4 (y : Nat) : Bool := y % 4 == 0

/-- `leapg(y)` (R123). -/
def leapg (y : Nat) : Bool := y % 400 == 0 || (y % 4 == 0 && y % 100 != 0)

/-- `ylen(y)` (R124). -/
def yearLength (y : Nat) : Nat := if leapg y then 366 else 365

/-- `mlen(m, y)` (R125). -/
def monthLength (m y : Nat) : Nat := if m = 2 ∧ leapg y then 29 else monthDays m

/-- A month that has table entries (R129, R134). -/
def monthInTable (m : Byte) : Bool := decide (1 ≤ m.toNat) && decide (m.toNat ≤ 12)

/-- `dow(y, m, d)` (R127). `/` and `%` on integers with a positive divisor are floor division and
non-negative remainder (R10), so Y = -1 is well defined. -/
def dayOfWeek (y m d : Nat) : Nat :=
  let Y : Int := (y : Int) - (if m < 3 then 1 else 0)
  let r : Int := (Y + Y / 4 - Y / 100 + Y / 400 + (dowTable m : Int) + (d : Int)) % 7
  if r = 0 then 7 else r.toNat

/-- `EPOCH2000` (R128). -/
def epoch2000 : Int := 946684800

/-- `to_unix` accepts a DateTime (R129). -/
def acceptsUnix (dt : DateTime) : Bool := decide (2000 ≤ dt.year.toNat) && monthInTable dt.month

/-- The day count of `to_unix`, from 2000-01-01; -1 for its day 0 (R130). -/
def unixDays (dt : DateTime) : Int :=
  let y : Int := (dt.year.toNat : Int) - 2000
  ((dt.date.toNat : Int) - 1) + (daysBeforeMonth dt.month.toNat : Int)
    + (if dt.month.toNat > 2 ∧ leap4 dt.year.toNat then 1 else 0)
    + 365 * y + (y + 3) / 4

/-- `to_unix(dt)`, reduced modulo 2^32 (R130). -/
def toUnix (dt : DateTime) : UnixTime :=
  BitVec.ofInt 32 (unixDays dt * 86400 + (dt.hour.toNat : Int) * 3600 + (dt.min.toNat : Int) * 60
    + (dt.sec.toNat : Int) + epoch2000)

/-- The year walk of `to_datetime` (R131), at most `fuel` years: the days left in the year reached, and
that year. -/
def yearWalk : Nat → Nat → Nat → Nat × Nat
  | 0, days, year => (days, year)
  | fuel + 1, days, year =>
    if yearLength year ≤ days then yearWalk fuel (days - yearLength year) (year + 1) else (days, year)

/-- The month walk of `to_datetime` (R131, C3: it stops when `d <= mlen`), at most `fuel` months: the
1-based day left in the month reached, and that month. -/
def monthWalk : Nat → Nat → Nat → Nat → Nat × Nat
  | 0, d, month, _ => (d, month)
  | fuel + 1, d, month, year =>
    if monthLength month year < d then monthWalk fuel (d - monthLength month year) (month + 1) year
    else (d, month)

/-- The year walk's bound (R131: "at most 136 times"; log 16). -/
def yearWalkBound : Nat := 136

/-- The month walk's bound (R131: "at most 11"; log 16). -/
def monthWalkBound : Nat := 11

/-- `to_datetime(t)` (R131); `osc_en` is written 1 (R22). -/
def toDateTime (t : UnixTime) : DateTime :=
  let rem := t.toNat % 86400
  let yw := yearWalk yearWalkBound (t.toNat / 86400) 1970
  let mw := monthWalk monthWalkBound (yw.1 + 1) 1 yw.2
  { sec := BitVec.ofNat 8 (rem % 60)
    min := BitVec.ofNat 8 (rem % 3600 / 60)
    hour := BitVec.ofNat 8 (rem / 3600)
    dow := BitVec.ofNat 8 (dayOfWeek yw.2 mw.2 mw.1)
    date := BitVec.ofNat 8 mw.1
    month := BitVec.ofNat 8 mw.2
    year := BitVec.ofNat 16 yw.2
    oscEn := 1 }

end Sys2Proof.Machine
end

