-- ==== Sys2Proof/Machine/Calendar.lean ====
section
/-! DEFINITION. The calendar commands DT2U, U2DT, DOW, LEAP4, LEAPG, LDU (41_calendar.md section 2).
None makes a transport call. -/

namespace Sys2Proof.Machine

open Sys2Proof

/-- DT2U (R132): a rejected input leaves RES_U as it is, written or unwritten, and is no error. -/
def execDt2u (dt : DateTime) (s : State) : Result :=
  .next (complete 0x00 (if acceptsUnix dt then { s with resU := some (toUnix dt) } else s))

/-- U2DT (R133). -/
def execU2dt (t : UnixTime) (s : State) : Result :=
  .next (complete 0x00 { s with resDT := some (toDateTime t) })

/-- DOW (R134): a month without a table entry leaves RES_B as it is. -/
def execDow (dt : DateTime) (s : State) : Result :=
  .next (complete 0x00 (if monthInTable dt.month then
    { s with resB := some (BitVec.ofNat 8 (dayOfWeek dt.year.toNat dt.month.toNat dt.date.toNat)) }
  else s))

/-- LEAP4 (R135). -/
def execLeap4 (y : Year) (s : State) : Result :=
  .next (complete 0x00 { s with resB := some (boolByte (leap4 y.toNat)) })

/-- LEAPG (R136). -/
def execLeapg (y : Year) (s : State) : Result :=
  .next (complete 0x00 { s with resB := some (boolByte (leapg y.toNat)) })

/-- LDU (R137). -/
def execLdu (t : UnixTime) (s : State) : Result := .next (complete 0x00 { s with resU := some t })

end Sys2Proof.Machine
end

