-- ==== Sys2Proof/Machine/Codec.lean ====
section
/-! DEFINITION. The BCD codec: BCDDEC and BCDENC (40_bcd_codec.md). Neither makes a transport call. -/

namespace Sys2Proof.Machine

open Sys2Proof

/-- BCDDEC (R104). -/
def execBcddec (b : Byte) (s : State) : Result :=
  .next (complete (flagNbcd (nbcd b)) { s with resB := some (bcdDec b) })

/-- BCDENC (R105). -/
def execBcdenc (v : Byte) (s : State) : Result :=
  .next (complete (flagRange (overNinetyNine v)) { s with resB := some (bcdEnc v) })

end Sys2Proof.Machine
end

