-- ==== Sys2Proof/Machine/ControlStatus.lean ====
section
/-! DEFINITION. The bit accessors of the control register 0x0E and the status register 0x0F
(44_control_status.md): ten setters over `setBits`, eleven getters over `getBits`. -/

namespace Sys2Proof.Machine

open Sys2Proof

/-- SETEOSC (R203). -/
def execSeteosc (v : Bit) (s : State) : Result := .next (setBits controlReg 0x80 (placed v 7) s)

/-- SETBBSQW (R204). -/
def execSetbbsqw (v : Bit) (s : State) : Result := .next (setBits controlReg 0x40 (placed v 6) s)

/-- SETRS (R205: INTCN forced, R202). -/
def execSetrs (rs : BitVec 2) (s : State) : Result := .next (setBits controlReg 0x1C (placed rs 3 ||| 0x04) s)

/-- SETINTCN (R206). -/
def execSetintcn (v : Bit) (s : State) : Result := .next (setBits controlReg 0x04 (placed v 2) s)

/-- SETA1IE (R207: INTCN forced, R202). -/
def execSeta1ie (v : Bit) (s : State) : Result := .next (setBits controlReg 0x05 (placed v 0 ||| 0x04) s)

/-- SETA2IE (R208: INTCN forced, R202). -/
def execSeta2ie (v : Bit) (s : State) : Result := .next (setBits controlReg 0x06 (placed v 1 ||| 0x04) s)

/-- SETEN32K (R209). -/
def execSeten32k (v : Bit) (s : State) : Result := .next (setBits statusReg 0x08 (placed v 3) s)

/-- CLRA1F (R210). -/
def execClra1f (s : State) : Result := .next (setBits statusReg 0x01 0x00 s)

/-- CLRA2F (R211). -/
def execClra2f (s : State) : Result := .next (setBits statusReg 0x02 0x00 s)

/-- CLROSF (R212). -/
def execClrosf (s : State) : Result := .next (setBits statusReg 0x80 0x00 s)

/-- GETEOSC (R215). -/
def execGeteosc (s : State) : Result := .next (getBits controlReg 7 7 s)

/-- GETBBSQW (R216). -/
def execGetbbsqw (s : State) : Result := .next (getBits controlReg 6 6 s)

/-- GETRS (R217). -/
def execGetrs (s : State) : Result := .next (getBits controlReg 4 3 s)

/-- GETINTCN (R218). -/
def execGetintcn (s : State) : Result := .next (getBits controlReg 2 2 s)

/-- GETA1IE (R219). -/
def execGeta1ie (s : State) : Result := .next (getBits controlReg 0 0 s)

/-- GETA2IE (R220). -/
def execGeta2ie (s : State) : Result := .next (getBits controlReg 1 1 s)

/-- GETEN32K (R221). -/
def execGeten32k (s : State) : Result := .next (getBits statusReg 3 3 s)

/-- GETA1F (R222). -/
def execGeta1f (s : State) : Result := .next (getBits statusReg 0 0 s)

/-- GETA2F (R223). -/
def execGeta2f (s : State) : Result := .next (getBits statusReg 1 1 s)

/-- GETOSF (R224). -/
def execGetosf (s : State) : Result := .next (getBits statusReg 7 7 s)

/-- GETBSY (R225). -/
def execGetbsy (s : State) : Result := .next (getBits statusReg 2 2 s)

end Sys2Proof.Machine
end

