-- ==== Sys2Proof/Machine/DateTimeIO.lean ====
section
/-! DEFINITION. Date-time register I/O: SETDT, GETDT, SETU, GETU over the registers 0x00-0x06
(42_datetime_io.md). -/

namespace Sys2Proof.Machine

open Sys2Proof

/-- A number lies in a range. -/
def within (lo hi n : Nat) : Bool := decide (lo ≤ n) && decide (n ≤ hi)

/-- `valid(dt)`: the conjunctive range validation (R151, C5); no month-length and no weekday check. -/
def validDateTime (dt : DateTime) : Bool :=
  within 0 59 dt.sec.toNat && within 0 59 dt.min.toNat && within 0 23 dt.hour.toNat &&
    within 1 7 dt.dow.toNat && within 1 31 dt.date.toNat && within 1 12 dt.month.toNat &&
    within 2000 2099 dt.year.toNat

/-- `time_bytes(dt)`: the bytes for 0x00-0x06 (R152). -/
def timeBytes (dt : DateTime) : List Byte :=
  [bcdEnc dt.sec, bcdEnc dt.min, bcdEnc dt.hour, bcdEnc dt.dow, bcdEnc dt.date, bcdEnc dt.month,
    bcdEnc (BitVec.ofNat 8 (dt.year.toNat - 2000))]

/-- `m[i] = b[i] & TMASK[i]` (R153). -/
def maskedTime (b : List Byte) (i : Nat) : Byte := byteAt b i &&& timeMask i

/-- The DateTime of `decode_time(b)` (R153); `osc_en` is written 1 (R22). DEDUCED, unsafe (log 27): a corner
case of R157 says that a date byte 0x45 gives 45, against R150's mask 0x3F, R153's formula and the rows of
95_test_vectors.md, which give 5; every byte is masked here, and the date is 5. -/
def decodeTime (b : List Byte) : DateTime where
  sec := bcdDec (maskedTime b 0)
  min := bcdDec (maskedTime b 1)
  hour := bcdDec (maskedTime b 2)
  dow := bcdDec (maskedTime b 3)
  date := bcdDec (maskedTime b 4)
  month := bcdDec (maskedTime b 5)
  year := BitVec.ofNat 16 (2000 + (bcdDec (maskedTime b 6)).toNat)
  oscEn := 1

/-- The flags of `decode_time(b)`: NBCD and H12 (R153). -/
def timeFlags (b : List Byte) : Byte :=
  flagNbcd (nbcd (maskedTime b 0) || nbcd (maskedTime b 1) || nbcd (maskedTime b 2) ||
      nbcd (maskedTime b 3) || nbcd (maskedTime b 4) || nbcd (maskedTime b 5) ||
      nbcd (maskedTime b 6)) |||
    flagH12 (twelveHour (byteAt b 2))

/-- Validate, then write the seven time-keeping registers (R154, R156): an invalid date-time raises
ValidationFailure before any transport call (R243). -/
def writeTime (dt : DateTime) (s : State) : State :=
  if validDateTime dt then writeThen 0x00 (timeBytes dt) (complete 0x00) s
  else raise .validationFailure s

/-- SETDT (R154). -/
def execSetdt (dt : DateTime) (s : State) : Result := .next (writeTime dt s)

/-- GETDT (R155). -/
def execGetdt (s : State) : Result :=
  .next (readThen 0x00 7 (fun b t => complete (timeFlags b) { t with resDT := some (decodeTime b) }) s)

/-- SETU (R156). -/
def execSetu (u : UnixTime) (s : State) : Result := .next (writeTime (toDateTime u) s)

/-- GETU (R157): RES_DT always, RES_U where `to_unix` accepts the date-time read (R129). The date is that of
`decodeTime` (log 27). -/
def execGetu (s : State) : Result :=
  .next (readThen 0x00 7 (fun b t => complete (timeFlags b)
    (if acceptsUnix (decodeTime b) then
      { t with resDT := some (decodeTime b), resU := some (toUnix (decodeTime b)) }
    else { t with resDT := some (decodeTime b) })) s)

end Sys2Proof.Machine
end

