-- ==== Sys2Proof/Machine/Dispatch.lean ====
section
/-! DEFINITION. What a command does: one arm per constructor of Instr. -/

namespace Sys2Proof.Machine

open Sys2Proof

def exec (i : Instr) (s : State) : Host.Outcome State Fault Refusal :=
  match i with
  | .bcddec b => Sys2Proof.Machine.execBcddec b s
  | .bcdenc v => Sys2Proof.Machine.execBcdenc v s
  | .dt2u dt => Sys2Proof.Machine.execDt2u dt s
  | .u2dt t => Sys2Proof.Machine.execU2dt t s
  | .dow dt => Sys2Proof.Machine.execDow dt s
  | .leap4 y => Sys2Proof.Machine.execLeap4 y s
  | .leapg y => Sys2Proof.Machine.execLeapg y s
  | .ldu t => Sys2Proof.Machine.execLdu t s
  | .setdt dt => Sys2Proof.Machine.execSetdt dt s
  | .getdt => Sys2Proof.Machine.execGetdt s
  | .setu t => Sys2Proof.Machine.execSetu t s
  | .getu => Sys2Proof.Machine.execGetu s
  | .setal1 al => Sys2Proof.Machine.execSetal1 al s
  | .getal1 => Sys2Proof.Machine.execGetal1 s
  | .setal2 al => Sys2Proof.Machine.execSetal2 al s
  | .getal2 => Sys2Proof.Machine.execGetal2 s
  | .seteosc v => Sys2Proof.Machine.execSeteosc v s
  | .setbbsqw v => Sys2Proof.Machine.execSetbbsqw v s
  | .setrs rs => Sys2Proof.Machine.execSetrs rs s
  | .setintcn v => Sys2Proof.Machine.execSetintcn v s
  | .seta1ie v => Sys2Proof.Machine.execSeta1ie v s
  | .seta2ie v => Sys2Proof.Machine.execSeta2ie v s
  | .seten32k v => Sys2Proof.Machine.execSeten32k v s
  | .clra1f => Sys2Proof.Machine.execClra1f s
  | .clra2f => Sys2Proof.Machine.execClra2f s
  | .clrosf => Sys2Proof.Machine.execClrosf s
  | .geteosc => Sys2Proof.Machine.execGeteosc s
  | .getbbsqw => Sys2Proof.Machine.execGetbbsqw s
  | .getrs => Sys2Proof.Machine.execGetrs s
  | .getintcn => Sys2Proof.Machine.execGetintcn s
  | .geta1ie => Sys2Proof.Machine.execGeta1ie s
  | .geta2ie => Sys2Proof.Machine.execGeta2ie s
  | .geten32k => Sys2Proof.Machine.execGeten32k s
  | .geta1f => Sys2Proof.Machine.execGeta1f s
  | .geta2f => Sys2Proof.Machine.execGeta2f s
  | .getosf => Sys2Proof.Machine.execGetosf s
  | .getbsy => Sys2Proof.Machine.execGetbsy s

end Sys2Proof.Machine
end

