-- ==== Sys2Proof/Machine/HostPort.lean ====
section
/-! DEFINITION. The host interface (R41, R270, the table of R276): presenting a command, reading a
result register, resetting the block; and placing a command word where the next step takes it. -/

namespace Sys2Proof.Machine

open Sys2Proof

/-- A command presented on the ports runs to completion: the decode check comes first (R87, R245), and a
tuple that spells no command raises IllegalCommand with no transport call (R84, R85, R242). -/
def present (c : Command) (s : State) : Result :=
  match decode c with
  | .ok i => exec i s
  | .error _ => .next (raise .illegalCommand s)

/-- What a host read of a result register gives (R41). -/
inductive ResultValue where
  | unix (t : UnixTime)
  | byte (b : Byte)
  | dateTime (dt : DateTime)
  | alarm (al : AlarmRecord)
  deriving DecidableEq, Repr

/-- A command has written the register since reset (R28). -/
def isWritten (r : ResultReg) (s : State) : Bool :=
  match r with
  | .resU => s.resU.isSome
  | .resB => s.resB.isSome
  | .resDT => s.resDT.isSome
  | .resAL => s.resAL.isSome
  | .flags => s.flags.isSome
  | .status => s.status.isSome

/-- What an unwritten register holds: the free value of the last reset (log 3), within R26's bound on FLAGS
("7:4 always 0"). -/
def unwrittenResults (s : State) : ResultValues :=
  let v := Config.unwrittenResults s.resets
  { v with flags := v.flags &&& 0x0F }

/-- The host reads a result register (R41): the value a command wrote, or what the register holds while it is
unwritten. -/
def hostRead (r : ResultReg) (s : State) : ResultValue :=
  match r with
  | .resU => .unix (s.resU.getD (unwrittenResults s).resU)
  | .resB => .byte (s.resB.getD (unwrittenResults s).resB)
  | .resDT => .dateTime (s.resDT.getD (unwrittenResults s).resDT)
  | .resAL => .alarm (s.resAL.getD (unwrittenResults s).resAL)
  | .flags => .byte (s.flags.getD (unwrittenResults s).flags)
  | .status => .byte (s.status.getD (unwrittenResults s).status)

/-- What a host read leaves: nothing changes (R41), but a read of an unwritten register is recorded as the
fault R28 calls it (log 3). -/
def noteRead (r : ResultReg) (s : State) : State :=
  if isWritten r s then s else { s with faultyReads := s.faultyReads ++ [r] }

/-- The host resets the block (R270, R39): every result register becomes unwritten, and holds a fresh free
value (log 3); no register of the chip changes and no transport call is made. -/
def hostReset (s : State) : State :=
  { s with resU := none, resB := none, resDT := none, resAL := none, flags := none, status := none,
           resets := s.resets + 1 }

/-- One event of the agenda (R41, R60, R270). -/
def perform (e : Event) (s : State) : Result :=
  match e with
  | .issue c => present c s
  | .read r => .next (noteRead r s)
  | .reset => .next (hostReset s)
  | .chip c => .next (chipStep c s)

/-- The host presents, next, the command whose low `nbits` packed bits are those of `w` (log 1). -/
def presentNext (nbits w : Nat) (s : State) : State :=
  { s with agenda := .issue (tableCommand nbits w) :: s.agenda }

end Sys2Proof.Machine
end

