-- ==== Sys2Proof/Machine/Step.lean ====
section
/-! DEFINITION. One step: the next event of the agenda. With none, the block waits and holds its
result registers (R256, R270). -/

namespace Sys2Proof.Machine

open Sys2Proof

/-- One step of the machine. -/
def step (s : State) : Host.Outcome State Fault Refusal :=
  match s.agenda with
  | [] => .next s
  | e :: rest => perform e { s with agenda := rest }

/-- The state in which the command word `w` is the one the next step takes (log 1, log 12). -/
def State.withFetchWord (s : State) (nbits w : Nat) : State := presentNext nbits w s

end Sys2Proof.Machine
end

