-- ==== Sys2Proof/Machine/Assembler.lean ====
section
/-! DEFINITION. The assembler (R88, R89) on structured lines: a mnemonic and an operand that has been
read as its form says. The two pseudo-instructions are lines of their own (log 22). -/

namespace Sys2Proof.Machine

open Sys2Proof

/-- The operand of an assembler line (R88). -/
inductive AsmOperand where
  | imm (n : Nat)
  | dt (d : DateTime)
  | al (r : AlarmRecord)
  | none
  deriving DecidableEq, Repr

/-- The operand form a mnemonic takes; an immediate has the width R82 reads (R88). `date` is the `dt` form of
DOW, which reads no time of day (R82), so that its text may leave the time out (log 22). -/
inductive AsmForm where
  | imm (width : Nat)
  | dt
  | date
  | al
  | none
  deriving DecidableEq, Repr

/-- A mnemonic of the assembler (R83, R88). -/
structure AsmRow where
  mnemonic : String
  op : Byte
  form : AsmForm
  deriving DecidableEq, Repr

/-- The codec and the calendar (R83). -/
def asmCalendar : List AsmRow :=
  [⟨"BCDDEC", 0x01, .imm 8⟩, ⟨"BCDENC", 0x02, .imm 8⟩, ⟨"DT2U", 0x10, .dt⟩, ⟨"U2DT", 0x11, .imm 32⟩,
    ⟨"DOW", 0x12, .date⟩, ⟨"LEAP4", 0x13, .imm 16⟩, ⟨"LEAPG", 0x14, .imm 16⟩, ⟨"LDU", 0x15, .imm 32⟩]

/-- Date-time I/O and the alarms (R83). -/
def asmBlocks : List AsmRow :=
  [⟨"SETDT", 0x20, .dt⟩, ⟨"GETDT", 0x21, .none⟩, ⟨"SETU", 0x22, .imm 32⟩, ⟨"GETU", 0x23, .none⟩,
    ⟨"SETAL1", 0x28, .al⟩, ⟨"GETAL1", 0x29, .none⟩, ⟨"SETAL2", 0x2A, .al⟩, ⟨"GETAL2", 0x2B, .none⟩]

/-- The setters of the control and status registers (R83). -/
def asmSetters : List AsmRow :=
  [⟨"SETEOSC", 0x30, .imm 1⟩, ⟨"SETBBSQW", 0x31, .imm 1⟩, ⟨"SETRS", 0x32, .imm 2⟩,
    ⟨"SETINTCN", 0x33, .imm 1⟩, ⟨"SETA1IE", 0x34, .imm 1⟩, ⟨"SETA2IE", 0x35, .imm 1⟩,
    ⟨"SETEN32K", 0x36, .imm 1⟩, ⟨"CLRA1F", 0x37, .none⟩, ⟨"CLRA2F", 0x38, .none⟩,
    ⟨"CLROSF", 0x39, .none⟩]

/-- The getters of the control and status registers (R83). -/
def asmGetters : List AsmRow :=
  [⟨"GETEOSC", 0x40, .none⟩, ⟨"GETBBSQW", 0x41, .none⟩, ⟨"GETRS", 0x42, .none⟩,
    ⟨"GETINTCN", 0x43, .none⟩, ⟨"GETA1IE", 0x44, .none⟩, ⟨"GETA2IE", 0x45, .none⟩,
    ⟨"GETEN32K", 0x46, .none⟩, ⟨"GETA1F", 0x47, .none⟩, ⟨"GETA2F", 0x48, .none⟩,
    ⟨"GETOSF", 0x49, .none⟩, ⟨"GETBSY", 0x4A, .none⟩]

/-- Every mnemonic of the assembler (R83, R88). -/
def asmTable : List AsmRow := asmCalendar ++ asmBlocks ++ asmSetters ++ asmGetters

/-- The ports of a line whose operand has the form its mnemonic takes. An immediate that does not fit
is refused; an omitted `dow` or AL field is 0 in the operand already, and `osc_en` is 0 (R88). -/
def asmPorts (op : Byte) (f : AsmForm) (o : AsmOperand) : Option Command :=
  match f, o with
  | .imm w, .imm n => if n < 2 ^ w then some (scalarCommand op (BitVec.ofNat w n)) else none
  | .dt, .dt d | .date, .dt d => some (dateCommand op { d with oscEn := 0 })
  | .al, .al r => some (alarmCommand op r)
  | .none, .none => some (plainCommand op)
  | _, _ => none

/-- A line of a mnemonic of the table; an unknown mnemonic is refused (R88). -/
def asmCore (mnemonic : String) (o : AsmOperand) : Option Command :=
  match asmTable.find? (fun r => r.mnemonic == mnemonic) with
  | some r => asmPorts r.op r.form o
  | none => none

/-- Assemble one line; ALARMMODE is `SETINTCN 1` and SQWMODE is `SETINTCN 0` (R89). -/
def assemble (mnemonic : String) (o : AsmOperand) : Option Command :=
  if mnemonic == "ALARMMODE" then (if o = .none then asmCore "SETINTCN" (.imm 1) else none)
  else if mnemonic == "SQWMODE" then (if o = .none then asmCore "SETINTCN" (.imm 0) else none)
  else asmCore mnemonic o

end Sys2Proof.Machine
end

