-- ==== Sys2Proof/Machine/AsmLine.lean ====
section
/-! DEFINITION. The assembler's text (R88): a line `MNEMONIC [operand]` with a comment after `;`, read into
the structured line of Machine/Assembler.lean. The lexical points R88 leaves open are log 22. -/

namespace Sys2Proof.Machine

open Sys2Proof

/-! ### Characters and tokens -/

/-- The character that opens a record. -/
def openBrace : Char := Char.ofNat 0x7B

/-- The character that closes a record. -/
def closeBrace : Char := Char.ofNat 0x7D

/-- A separator inside a line. -/
def isBlank (c : Char) : Bool := c == ' ' || c == Char.ofNat 9

/-- The pieces of a text between separators; n separators give n + 1 pieces. -/
def splitChars (sep : Char → Bool) : List Char → List (List Char)
  | [] => [[]]
  | c :: cs =>
    match splitChars sep cs with
    | [] => [[c]]
    | w :: ws => if sep c then [] :: w :: ws else (c :: w) :: ws

/-- The words of a text. -/
def lineWords (cs : List Char) : List (List Char) := (splitChars isBlank cs).filter (fun w => !w.isEmpty)

/-- A line without its comment (R88: "a comment after `;`"). -/
def withoutComment (cs : List Char) : List Char := cs.takeWhile (fun c => c != ';')

/-! ### Numbers -/

/-- The value of a digit, in either base. -/
def digitValue (c : Char) : Option Nat :=
  let n := c.toNat
  if 48 ≤ n ∧ n ≤ 57 then some (n - 48)
  else if 65 ≤ n ∧ n ≤ 70 then some (n - 55)
  else if 97 ≤ n ∧ n ≤ 102 then some (n - 87)
  else none

/-- Digits in a base, on top of the value read so far. -/
def digitsFrom (base : Nat) : Nat → List Char → Option Nat
  | acc, [] => some acc
  | acc, c :: cs =>
    match digitValue c with
    | some d => if d < base then digitsFrom base (acc * base + d) cs else none
    | none => none

/-- A number of at least one digit. -/
def digitsOf (base : Nat) (cs : List Char) : Option Nat := if cs.isEmpty then none else digitsFrom base 0 cs

/-- A number: decimal `45` or hex `0x2D` (R88). -/
def numberOf (cs : List Char) : Option Nat :=
  match cs with
  | '0' :: 'x' :: hs => digitsOf 16 hs
  | ds => digitsOf 10 ds

/-- A decimal number of exactly k digits: the parts of `YYYY-MM-DD hh:mm:ss`. -/
def paddedOf (k : Nat) (cs : List Char) : Option Nat := if cs.length = k then digitsOf 10 cs else none

/-- A number as a field of w bits; one that does not fit is refused (R88). -/
def fieldOf (w n : Nat) : Option (BitVec w) := if n < 2 ^ w then some (BitVec.ofNat w n) else none

/-! ### Records -/

/-- One `name=N` of a record. -/
def assignmentOf (cs : List Char) : Option (String × Nat) :=
  match splitChars (fun c => c == '=') cs with
  | [name, v] => (numberOf v).map (fun n => (String.ofList name, n))
  | _ => none

/-- All `name=N` of a record, each of which must read. -/
def assignmentsOf : List (List Char) → Option (List (String × Nat))
  | [] => some []
  | c :: cs =>
    match assignmentOf c, assignmentsOf cs with
    | some a, some as => some (a :: as)
    | _, _ => none

/-- A record's assignments: its words joined, between the braces, separated by commas. -/
def recordOf (ws : List (List Char)) : Option (List (String × Nat)) :=
  match ws.flatten with
  | [] => none
  | c :: cs =>
    if c == openBrace && cs.getLast? == some closeBrace then
      (if cs.dropLast.isEmpty then some []
       else assignmentsOf (splitChars (fun x => x == ',') cs.dropLast))
    else none

/-- The fields named are among the given ones, and none is named twice. -/
def namesLegal (names : List String) (as : List (String × Nat)) : Bool :=
  as.all (fun a => names.contains a.1) && decide ((as.map (·.1)).Nodup)

/-- The value a record gives a field. -/
def valueOf (as : List (String × Nat)) (name : String) : Option Nat :=
  (as.find? (fun a => a.1 == name)).map (·.2)

/-- The value a record gives a field, 0 where the field is omitted (R88). -/
def valueOrZero (as : List (String × Nat)) (name : String) : Nat := (valueOf as name).getD 0

/-- The DateTime of numbers that fit their ports; `osc_en` is 0 (R88). -/
def dateTimeOf (year month date hour min sec dow : Nat) : Option DateTime :=
  match fieldOf 16 year, fieldOf 8 month, fieldOf 8 date, fieldOf 8 hour, fieldOf 8 min, fieldOf 8 sec,
      fieldOf 8 dow with
  | some y, some mo, some d, some h, some mi, some s, some w => some ⟨s, mi, h, w, d, mo, y, 0⟩
  | _, _, _, _, _, _, _ => none

/-- The record form of a `dt` operand: every field but `dow` is given (R88). -/
def dateRecordOf (as : List (String × Nat)) : Option DateTime :=
  if namesLegal ["year", "month", "date", "hour", "min", "sec", "dow"] as then
    match valueOf as "year", valueOf as "month", valueOf as "date", valueOf as "hour", valueOf as "min",
        valueOf as "sec" with
    | some y, some mo, some d, some h, some mi, some s => dateTimeOf y mo d h mi s (valueOrZero as "dow")
    | _, _, _, _, _, _ => none
  else none

/-- The `al` operand: an omitted field is 0 (R88). -/
def alarmRecordOf (as : List (String × Nat)) : Option AlarmRecord :=
  if namesLegal ["mode", "dydt", "dd", "hour", "min", "sec", "ie"] as then
    match fieldOf 3 (valueOrZero as "mode"), fieldOf 1 (valueOrZero as "dydt"), fieldOf 8 (valueOrZero as "dd"),
        fieldOf 8 (valueOrZero as "hour"), fieldOf 8 (valueOrZero as "min"), fieldOf 8 (valueOrZero as "sec"),
        fieldOf 1 (valueOrZero as "ie") with
    | some m, some dy, some d, some h, some mi, some s, some ie => some ⟨s, mi, h, d, dy, m, ie⟩
    | _, _, _, _, _, _, _ => none
  else none

/-! ### Operands -/

/-- `dow=N`, or 0 where it is omitted (R88). -/
def dowOf (ws : List (List Char)) : Option Nat :=
  match ws with
  | [] => some 0
  | [w] =>
    match assignmentOf w with
    | some (name, n) => if name == "dow" then some n else none
    | none => none
  | _ => none

/-- `YYYY-MM-DD hh:mm:ss [dow=N]` (R88). -/
def calendarFormOf (date time : List Char) (more : List (List Char)) : Option DateTime :=
  match splitChars (fun c => c == '-') date, splitChars (fun c => c == ':') time, dowOf more with
  | [y, mo, d], [h, mi, s], some w =>
    match paddedOf 4 y, paddedOf 2 mo, paddedOf 2 d, paddedOf 2 h, paddedOf 2 mi, paddedOf 2 s with
    | some y, some mo, some d, some h, some mi, some s => dateTimeOf y mo d h mi s w
    | _, _, _, _, _, _ => none
  | _, _, _ => none

/-- A `dt` operand: a record, or the calendar form (R88). -/
def dateOperandOf (ws : List (List Char)) : Option DateTime :=
  match recordOf ws with
  | some as => dateRecordOf as
  | none =>
    match ws with
    | date :: time :: more => calendarFormOf date time more
    | _ => none

/-- The operand of DOW: a `dt` operand (R88), or a date alone, whose time is then 00:00:00. R88 writes the
time unbracketed, while R134's example `DOW 2000-01-01` leaves it out. DESIGN CHOICE, safe: such a line of DOW,
and of DOW alone, assembles (log 22). -/
def dowOperandOf (ws : List (List Char)) : Option DateTime :=
  match dateOperandOf ws, ws with
  | some d, _ => some d
  | none, [date] => calendarFormOf date "00:00:00".toList []
  | none, _ => none

/-- The operand of a line, as the mnemonic's form reads it (R88). -/
def operandOf (f : AsmForm) (ws : List (List Char)) : Option AsmOperand :=
  match f, ws with
  | .imm _, [w] => (numberOf w).map .imm
  | .dt, ws => (dateOperandOf ws).map .dt
  | .date, ws => (dowOperandOf ws).map .dt
  | .al, ws =>
    match recordOf ws with
    | some as => (alarmRecordOf as).map .al
    | none => none
  | .none, [] => some .none
  | _, _ => none

/-- The operand form of a mnemonic; the two pseudo-instructions take no operand (R88, R89). -/
def formOf (mnemonic : String) : Option AsmForm :=
  if mnemonic == "ALARMMODE" || mnemonic == "SQWMODE" then some .none
  else (asmTable.find? (fun r => r.mnemonic == mnemonic)).map (·.form)

/-- Assemble a line of text (R88, R89): the ports it presents, or none where the assembler refuses it. -/
def assembleLine (line : String) : Option Command :=
  match lineWords (withoutComment line.toList) with
  | [] => none
  | m :: ws =>
    match formOf (String.ofList m) with
    | some f =>
      match operandOf f ws with
      | some o => assemble (String.ofList m) o
      | none => none
    | none => none

end Sys2Proof.Machine
end

