-- ==== Sys2Proof/Safety.lean ====
section
/-! DEFINITION. The terms in which claims speak: a safe outcome, a calm environment, the invariant, what
the spec's tables say a command may write, what a run leaves behind, and the Gregorian calendar as
the claims about the converter need it. Nothing here is used by the step. -/

namespace Sys2Proof

/-- A draw in which the chip takes no step of its own (R60, R226's premise). The transport may still
fail. -/
def CallDraw.calm (d : CallDraw) : Bool := d.before.isEmpty && d.between.all (·.isEmpty)

namespace Machine

/-- An outcome that did not stop the machine. -/
def safeOutcome : Result → Bool
  | .next _ => true
  | .fault _ => false
  | .refused _ => false

/-- The next n transport calls are among the draws already fixed, and the chip takes no step in them. -/
def calmFor (n : Nat) (s : State) : Bool := decide (n ≤ s.draws.length) && (s.draws.take n).all (·.calm)

/-! ### The invariant -/

/-- FLAGS bits 7:4 are 0 (R26). -/
def flagsReservedZero (s : State) : Bool := s.flags.all (fun f => f &&& 0xF0 == 0)

/-- STATUS holds one of its four codes (R27). -/
def statusLegal (s : State) : Bool := s.status.all (fun c => decide (c.toNat ≤ 3))

/-- FLAGS and STATUS are written together: every command writes both (R20). -/
def writtenTogether (s : State) : Bool := s.flags.isSome == s.status.isSome

/-- An error leaves FLAGS 0 (R26, R241). -/
def errorClearsFlags (s : State) : Bool := s.status.all (fun c => c == 0 || s.flags == some 0)

/-- Every DateTime result has osc_en = 1 (R22). -/
def oscEnWritten (s : State) : Bool := s.resDT.all (fun d => d.oscEn == 1)

/-- A match mode in a result is a listed code, or 7 (R25). -/
def alarmModeLegal (s : State) : Bool := s.resAL.all (fun r => decide (r.mode.toNat ≤ 4) || r.mode == 7)

/-- The invariant of the machine: REG in canonical form, FLAGS, STATUS, RES_DT, RES_AL as R20 to R27
and R241 leave them. -/
abbrev Inv (s : State) : Prop :=
  Memory.wf s.reg = true ∧ flagsReservedZero s = true ∧ statusLegal s = true ∧
    writtenTogether s = true ∧ errorClearsFlags s = true ∧ oscEnWritten s = true ∧
    alarmModeLegal s = true

/-! ### What the spec's tables let a command write -/

/-- The commands that may write RES_U (R20). -/
def mayWriteU : Instr → Bool
  | .dt2u _ | .ldu _ | .getu => true
  | _ => false

/-- The commands that may write RES_B (R20: the codec, DOW, the leap tests, every single-field getter). -/
def mayWriteB : Instr → Bool
  | .bcddec _ | .bcdenc _ | .dow _ | .leap4 _ | .leapg _ | .geteosc | .getbbsqw | .getrs | .getintcn
  | .geta1ie | .geta2ie | .geten32k | .geta1f | .geta2f | .getosf | .getbsy => true
  | _ => false

/-- The commands that may write RES_DT (R20). -/
def mayWriteDT : Instr → Bool
  | .u2dt _ | .getdt | .getu => true
  | _ => false

/-- The commands that may write RES_AL (R20). -/
def mayWriteAL : Instr → Bool
  | .getal1 | .getal2 => true
  | _ => false

/-- The registers a command's MemWrite calls address (R57). -/
def storedRegs : Instr → List Addr
  | .setdt _ | .setu _ => [0x00, 0x01, 0x02, 0x03, 0x04, 0x05, 0x06]
  | .setal1 _ => [0x07, 0x08, 0x09, 0x0A, 0x0E]
  | .setal2 _ => [0x0B, 0x0C, 0x0D, 0x0E]
  | .seteosc _ | .setbbsqw _ | .setrs _ | .setintcn _ | .seta1ie _ | .seta2ie _ => [0x0E]
  | .seten32k _ | .clra1f | .clra2f | .clrosf => [0x0F]
  | _ => []

/-- A transport call as R57's table prints it: whether it is a MemWrite, its address, its count. -/
abbrev CallShape := Bool × Addr × Nat

/-- The shape of a call. -/
def TransportCall.shape : TransportCall → CallShape
  | .read a n => (false, a, n)
  | .write a bytes => (true, a, bytes.length)

/-- R57's table: the calls of each command, in order. -/
def callTable : Instr → List CallShape
  | .setdt _ | .setu _ => [(true, 0x00, 7)]
  | .getdt | .getu => [(false, 0x00, 7)]
  | .setal1 _ => [(true, 0x07, 4), (false, 0x0E, 1), (true, 0x0E, 1)]
  | .getal1 => [(false, 0x07, 4), (false, 0x0E, 1)]
  | .setal2 _ => [(true, 0x0B, 3), (false, 0x0E, 1), (true, 0x0E, 1)]
  | .getal2 => [(false, 0x0B, 3), (false, 0x0E, 1)]
  | .seteosc _ | .setbbsqw _ | .setrs _ | .setintcn _ | .seta1ie _ | .seta2ie _ =>
    [(false, 0x0E, 1), (true, 0x0E, 1)]
  | .seten32k _ | .clra1f | .clra2f | .clrosf => [(false, 0x0F, 1), (true, 0x0F, 1)]
  | .geteosc | .getbbsqw | .getrs | .getintcn | .geta1ie | .geta2ie => [(false, 0x0E, 1)]
  | .geten32k | .geta1f | .geta2f | .getosf | .getbsy => [(false, 0x0F, 1)]
  | _ => []

/-- How many transport calls a command makes when it completes without an error (R57). -/
def transportCalls (i : Instr) : Nat := (callTable i).length

/-- The default P_VOLATILE as R60's table prints it: the *any* bits of a register. -/
def tableAny (a : Addr) : Byte :=
  if a.toNat ≤ 0x06 ∨ a = 0x11 ∨ a = 0x12 then 0xFF
  else if a = 0x0E then 0x20
  else if a = 0x0F then 0x04
  else 0x00

/-- The *set-only* bits of R60's table: OSF, A2F, A1F. -/
def tableSetOnly (a : Addr) : Byte := if a = 0x0F then 0x83 else 0x00

/-- What the chip's own steps can make of a register's byte, any number of them (R60): bits outside
P_VOLATILE keep their value, and a set-only bit that is 1 stays 1. -/
def chipReaches (p : Params) (a : Addr) (old new : Byte) : Bool :=
  let row := volatileRow p a
  (new &&& ~~~(row.any ||| row.setOnly)) == (old &&& ~~~(row.any ||| row.setOnly)) &&
    (old &&& row.setOnly &&& ~~~row.any &&& ~~~new) == 0

/-! ### Where the chip stands during a call (R60, R61) -/

/-- The chip when a call begins: after the steps its draw puts before it. -/
def atStart (s : State) (d : CallDraw) : State := chipSteps d.before s

/-- The chip when byte i of a read is delivered, and, for i the count, when the read is over. -/
def atByte (s : State) (d : CallDraw) (i : Nat) : State :=
  chipSteps (d.before ++ ((gapsOf s d).take i).flatten) s

/-- Byte i of a read from a: the register's byte at the instant the chip delivered it (R52). -/
def byteOf (s : State) (d : CallDraw) (a : Addr) (i : Nat) : Byte :=
  regByte (atByte s d i) (a + BitVec.ofNat 8 i)

/-- The commands that force INTCN to 1 (R202). -/
def forcesIntcn : Instr → Bool
  | .seta1ie _ | .seta2ie _ | .setrs _ | .setal1 _ | .setal2 _ => true
  | _ => false

/-- The setters of R226's table: register, mask of the owned bits, the new bits in place. -/
def setterRow : Instr → Option (Addr × Byte × Byte)
  | .seteosc v => some (0x0E, 0x80, v.setWidth 8 <<< 7)
  | .setbbsqw v => some (0x0E, 0x40, v.setWidth 8 <<< 6)
  | .setrs rs => some (0x0E, 0x1C, rs.setWidth 8 <<< 3 ||| 0x04)
  | .setintcn v => some (0x0E, 0x04, v.setWidth 8 <<< 2)
  | .seta1ie v => some (0x0E, 0x05, v.setWidth 8 ||| 0x04)
  | .seta2ie v => some (0x0E, 0x06, v.setWidth 8 <<< 1 ||| 0x04)
  | .seten32k v => some (0x0F, 0x08, v.setWidth 8 <<< 3)
  | .clra1f => some (0x0F, 0x01, 0x00)
  | .clra2f => some (0x0F, 0x02, 0x00)
  | .clrosf => some (0x0F, 0x80, 0x00)
  | _ => none

/-- Two tuples agree on every port bit and field that R82 lists for their OP. -/
def agreeOnOperands (c c' : Command) : Prop :=
  match c.op with
  | 0x01#8 | 0x02#8 => c.a.extractLsb' 0 8 = c'.a.extractLsb' 0 8
  | 0x11#8 | 0x22#8 | 0x15#8 => c.a = c'.a
  | 0x13#8 | 0x14#8 => c.a.extractLsb' 0 16 = c'.a.extractLsb' 0 16
  | 0x30#8 | 0x31#8 | 0x33#8 | 0x34#8 | 0x35#8 | 0x36#8 => c.a.extractLsb' 0 1 = c'.a.extractLsb' 0 1
  | 0x32#8 => c.a.extractLsb' 0 2 = c'.a.extractLsb' 0 2
  | 0x10#8 => c.dt.year = c'.dt.year ∧ c.dt.month = c'.dt.month ∧ c.dt.date = c'.dt.date ∧
      c.dt.hour = c'.dt.hour ∧ c.dt.min = c'.dt.min ∧ c.dt.sec = c'.dt.sec
  | 0x12#8 => c.dt.year = c'.dt.year ∧ c.dt.month = c'.dt.month ∧ c.dt.date = c'.dt.date
  | 0x20#8 => c.dt.year = c'.dt.year ∧ c.dt.month = c'.dt.month ∧ c.dt.date = c'.dt.date ∧
      c.dt.hour = c'.dt.hour ∧ c.dt.min = c'.dt.min ∧ c.dt.sec = c'.dt.sec ∧ c.dt.dow = c'.dt.dow
  | 0x28#8 => c.al = c'.al
  | 0x2A#8 => c.al.min = c'.al.min ∧ c.al.hour = c'.al.hour ∧ c.al.dd = c'.al.dd ∧
      c.al.dydt = c'.al.dydt ∧ c.al.mode = c'.al.mode ∧ c.al.ie = c'.al.ie
  | _ => True

/-- The OP values of R83. -/
def assignedOpcodes : List Byte :=
  [0x01, 0x02, 0x10, 0x11, 0x12, 0x13, 0x14, 0x15, 0x20, 0x21, 0x22, 0x23, 0x28, 0x29, 0x2A, 0x2B] ++
    [0x30, 0x31, 0x32, 0x33, 0x34, 0x35, 0x36, 0x37, 0x38, 0x39] ++
    [0x40, 0x41, 0x42, 0x43, 0x44, 0x45, 0x46, 0x47, 0x48, 0x49, 0x4A]

/-- The mnemonics of R83, and the two pseudo-instructions of R89. -/
def assemblerMnemonics : List String :=
  ["BCDDEC", "BCDENC", "DT2U", "U2DT", "DOW", "LEAP4", "LEAPG", "LDU", "SETDT", "GETDT", "SETU", "GETU"] ++
    ["SETAL1", "GETAL1", "SETAL2", "GETAL2", "SETEOSC", "SETBBSQW", "SETRS", "SETINTCN", "SETA1IE"] ++
    ["SETA2IE", "SETEN32K", "CLRA1F", "CLRA2F", "CLROSF", "GETEOSC", "GETBBSQW", "GETRS", "GETINTCN"] ++
    ["GETA1IE", "GETA2IE", "GETEN32K", "GETA1F", "GETA2F", "GETOSF", "GETBSY", "ALARMMODE", "SQWMODE"]

/-! ### Values as the rules' formulas give them -/

/-- The value of a BCD byte (R101). -/
def bcdValue (b : Byte) : Nat := b.toNat / 16 * 10 + b.toNat % 16

/-- A byte that is not valid BCD (R103). -/
def notBcd (b : Byte) : Bool := decide (9 < b.toNat / 16) || decide (9 < b.toNat % 16)

/-- The BCD byte of a number, truncated to 8 bits (R102: the OR equals the sum). -/
def bcdOf (n : Nat) : Byte := BitVec.ofNat 8 (n / 10 * 16 + n % 10)

/-- The DateTime ranges of R151. -/
def legalFields (dt : DateTime) : Prop :=
  dt.sec.toNat ≤ 59 ∧ dt.min.toNat ≤ 59 ∧ dt.hour.toNat ≤ 23 ∧ 1 ≤ dt.dow.toNat ∧ dt.dow.toNat ≤ 7 ∧
    1 ≤ dt.date.toNat ∧ dt.date.toNat ≤ 31 ∧ 1 ≤ dt.month.toNat ∧ dt.month.toNat ≤ 12 ∧
    2000 ≤ dt.year.toNat ∧ dt.year.toNat ≤ 2099

/-- A command that fails validation (R243): SETDT of a date-time outside the ranges, SETU outside the
window. -/
def failsValidation : Instr → Prop
  | .setdt dt => ¬ legalFields dt
  | .setu u => u.toNat < 946684800 ∨ 4102444799 < u.toNat
  | _ => False

/-- The bytes R152 gives a legal date-time. -/
def clockBytes (dt : DateTime) : List Byte :=
  [bcdOf dt.sec.toNat, bcdOf dt.min.toNat, bcdOf dt.hour.toNat, bcdOf dt.dow.toNat, bcdOf dt.date.toNat,
    bcdOf dt.month.toNat, bcdOf (dt.year.toNat - 2000)]

/-- The DateTime R153 decodes from seven bytes, with the masks of R150. -/
def clockReading (b0 b1 b2 b3 b4 b5 b6 : Byte) : DateTime where
  sec := BitVec.ofNat 8 (bcdValue (b0 &&& 0x7F))
  min := BitVec.ofNat 8 (bcdValue (b1 &&& 0x7F))
  hour := BitVec.ofNat 8 (bcdValue (b2 &&& 0x3F))
  dow := BitVec.ofNat 8 (bcdValue (b3 &&& 0x07))
  date := BitVec.ofNat 8 (bcdValue (b4 &&& 0x3F))
  month := BitVec.ofNat 8 (bcdValue (b5 &&& 0x1F))
  year := BitVec.ofNat 16 (2000 + bcdValue b6)
  oscEn := 1

/-- The FLAGS R153 gives seven bytes: NBCD, and H12 from bit 6 of the hours byte. -/
def clockFlags (b0 b1 b2 b3 b4 b5 b6 : Byte) : Byte :=
  (if notBcd (b0 &&& 0x7F) ∨ notBcd (b1 &&& 0x7F) ∨ notBcd (b2 &&& 0x3F) ∨ notBcd (b3 &&& 0x07) ∨
      notBcd (b4 &&& 0x3F) ∨ notBcd (b5 &&& 0x1F) ∨ notBcd b6 then 0x01 else 0x00) |||
    (if b2.toNat / 64 % 2 = 1 then 0x04 else 0x00)

/-- The 32-bit sum of R130. -/
def unixSum (dt : DateTime) : UnixTime :=
  BitVec.ofInt 32
    ((((dt.date.toNat : Int) - 1)
      + ((((List.range (dt.month.toNat - 1)).map (fun k => monthDays (k + 1))).sum : Nat) : Int)
      + (if dt.month.toNat > 2 ∧ dt.year.toNat % 4 = 0 then 1 else 0)
      + 365 * ((dt.year.toNat : Int) - 2000) + ((dt.year.toNat : Int) - 2000 + 3) / 4) * 86400
      + (dt.hour.toNat : Int) * 3600 + (dt.min.toNat : Int) * 60 + (dt.sec.toNat : Int) + 946684800)

/-- The width mask of an alarm's day/date field (R180). -/
def dayWidth (dydt : Bit) : Byte := if dydt = 1 then 0x0F else 0x3F

/-- A mode bit in place: set where the code is at most k (the columns of R181 and R182). -/
def modeBit (mode : BitVec 3) (k : Nat) : Byte := if mode.toNat ≤ k then 0x80 else 0x00

/-- Bits of a value are lost in a field (R183). -/
def loses (v mask : Byte) : Bool := decide (99 < v.toNat) || (bcdOf v.toNat &&& ~~~mask) != 0

/-- The bytes R185 gives 0x07-0x0A. -/
def alarm1Block (al : AlarmRecord) : List Byte :=
  [modeBit al.mode 0 ||| (bcdOf al.sec.toNat &&& 0x7F), modeBit al.mode 1 ||| (bcdOf al.min.toNat &&& 0x7F),
    modeBit al.mode 2 ||| (bcdOf al.hour.toNat &&& 0x3F),
    modeBit al.mode 3 ||| (al.dydt.setWidth 8 <<< 6) ||| (bcdOf al.dd.toNat &&& dayWidth al.dydt)]

/-- The FLAGS R185 gives: RANGE. -/
def alarm1Range (al : AlarmRecord) : Byte :=
  if loses al.sec 0x7F ∨ loses al.min 0x7F ∨ loses al.hour 0x3F ∨ loses al.dd (dayWidth al.dydt) then 0x02 else 0x00

/-- The bytes R187 gives 0x0B-0x0D. -/
def alarm2Block (al : AlarmRecord) : List Byte :=
  [modeBit al.mode 0 ||| (bcdOf al.min.toNat &&& 0x7F), modeBit al.mode 1 ||| (bcdOf al.hour.toNat &&& 0x3F),
    modeBit al.mode 2 ||| (al.dydt.setWidth 8 <<< 6) ||| (bcdOf al.dd.toNat &&& dayWidth al.dydt)]

/-- The FLAGS R187 gives: RANGE. -/
def alarm2Range (al : AlarmRecord) : Byte :=
  if loses al.min 0x7F ∨ loses al.hour 0x3F ∨ loses al.dd (dayWidth al.dydt) then 0x02 else 0x00

/-- The match-mode code of alarm 1's mode bits; 7 where they form no row of R181. -/
def alarm1Code (b0 b1 b2 b3 : Byte) : BitVec 3 :=
  match b0.msb, b1.msb, b2.msb, b3.msb with
  | true, true, true, true => 0
  | false, true, true, true => 1
  | false, false, true, true => 2
  | false, false, false, true => 3
  | false, false, false, false => 4
  | _, _, _, _ => 7

/-- The match-mode code of alarm 2's mode bits; 7 where they form no row of R182. -/
def alarm2Code (b0 b1 b2 : Byte) : BitVec 3 :=
  match b0.msb, b1.msb, b2.msb with
  | true, true, true => 0
  | false, true, true => 1
  | false, false, true => 2
  | false, false, false => 3
  | _, _, _ => 7

/-- The DY/DT selector of a day/date byte (R180). -/
def selector (b : Byte) : Bit := BitVec.ofNat 1 (b.toNat / 64)

/-- The record R186 decodes. -/
def alarm1Reading (b0 b1 b2 b3 c : Byte) : AlarmRecord where
  sec := BitVec.ofNat 8 (bcdValue (b0 &&& 0x7F))
  min := BitVec.ofNat 8 (bcdValue (b1 &&& 0x7F))
  hour := BitVec.ofNat 8 (bcdValue (b2 &&& 0x3F))
  dd := BitVec.ofNat 8 (bcdValue (b3 &&& dayWidth (selector b3)))
  dydt := selector b3
  mode := alarm1Code b0 b1 b2 b3
  ie := BitVec.ofNat 1 c.toNat

/-- The record R188 decodes; sec is 0. -/
def alarm2Reading (b0 b1 b2 c : Byte) : AlarmRecord where
  sec := 0
  min := BitVec.ofNat 8 (bcdValue (b0 &&& 0x7F))
  hour := BitVec.ofNat 8 (bcdValue (b1 &&& 0x3F))
  dd := BitVec.ofNat 8 (bcdValue (b2 &&& dayWidth (selector b2)))
  dydt := selector b2
  mode := alarm2Code b0 b1 b2
  ie := BitVec.ofNat 1 (c.toNat / 2)

/-- The FLAGS R186 gives: NBCD, H12, ILLOG. -/
def alarm1ReadFlags (b0 b1 b2 b3 : Byte) : Byte :=
  (if notBcd (b0 &&& 0x7F) ∨ notBcd (b1 &&& 0x7F) ∨ notBcd (b2 &&& 0x3F) ∨
      notBcd (b3 &&& dayWidth (selector b3)) then 0x01 else 0x00) |||
    (if b2.toNat / 64 % 2 = 1 then 0x04 else 0x00) |||
    (if alarm1Code b0 b1 b2 b3 = 7 then 0x08 else 0x00)

/-- The FLAGS R188 gives: NBCD, H12, ILLOG. -/
def alarm2ReadFlags (b0 b1 b2 : Byte) : Byte :=
  (if notBcd (b0 &&& 0x7F) ∨ notBcd (b1 &&& 0x3F) ∨ notBcd (b2 &&& dayWidth (selector b2)) then 0x01
      else 0x00) |||
    (if b1.toNat / 64 % 2 = 1 then 0x04 else 0x00) |||
    (if alarm2Code b0 b1 b2 = 7 then 0x08 else 0x00)

/-- A state in which `calls` have been made, the draws `ds` are left, the register file is `m`, and FLAGS
and STATUS are written; everything else is as before. -/
def ended (s : State) (calls : List TransportCall) (ds : List CallDraw) (m : Memory) (fl st : Byte) : State :=
  { s with reg := m, draws := ds, made := s.made ++ calls, flags := some fl, status := some st }

/-! ### The end of a run (R283) -/

/-- What can be observed at the end of a run (R283). -/
structure RunResult where
  resU : Option UnixTime
  resB : Option Byte
  resDT : Option DateTime
  resAL : Option AlarmRecord
  flags : Option Byte
  status : Option Byte
  regs : List Byte
  deriving DecidableEq, Repr

/-- The bytes of n registers from an address on. -/
def regBlock (s : State) (a : Addr) (n : Nat) : List Byte :=
  (List.range n).map (fun i => regByte s (a + BitVec.ofNat 8 i))

/-- The observable result at a point of a run: the result registers and REG[0x00..0x12] (R283). -/
def runResult (s : State) : RunResult :=
  ⟨s.resU, s.resB, s.resDT, s.resAL, s.flags, s.status, regBlock s 0x00 19⟩

/-- The start of a run of commands (R283): the host will issue them one after another. -/
def startRun (cs : List Command) (s : State) : State := { s with agenda := cs.map .issue }

/-! ### The Gregorian calendar, as claims about the converter need it -/

/-- Days from 1970-01-01 to January 1st of a year. -/
def daysToYear (y : Nat) : Nat := ((List.range (y - 1970)).map (fun k => yearLength (1970 + k))).sum

/-- Days from January 1st to the first of a month, in a year. -/
def daysToMonth (m y : Nat) : Nat := ((List.range (m - 1)).map (fun k => monthLength (k + 1) y)).sum

/-- A date of the Gregorian calendar. -/
def gregorianDate (y m d : Nat) : Bool :=
  decide (1 ≤ y) && decide (1 ≤ m) && decide (m ≤ 12) && decide (1 ≤ d) && decide (d ≤ monthLength m y)

/-- The date after a date. -/
def nextDate (y m d : Nat) : Nat × Nat × Nat :=
  if d < monthLength m y then (y, m, d + 1)
  else if m < 12 then (y, m + 1, 1)
  else (y + 1, 1, 1)

/-- The weekday after a weekday, 1 = Monday to 7 = Sunday (R127). -/
def nextWeekday (w : Nat) : Nat := if w = 7 then 1 else w + 1

/-- A DateTime whose date exists and whose time of day is in range (R138, R140). -/
def properDateTime (dt : DateTime) : Bool :=
  gregorianDate dt.year.toNat dt.month.toNat dt.date.toNat && decide (dt.hour.toNat ≤ 23) &&
    decide (dt.min.toNat ≤ 59) && decide (dt.sec.toNat ≤ 59)

/-- The Gregorian second count of a proper DateTime of 1970 or later. -/
def gregorianSeconds (dt : DateTime) : Nat :=
  (daysToYear dt.year.toNat + daysToMonth dt.month.toNat dt.year.toNat + (dt.date.toNat - 1)) * 86400
    + dt.hour.toNat * 3600 + dt.min.toNat * 60 + dt.sec.toNat

end Machine

end Sys2Proof
end

