-- ==== Sys2Proof/Certificates/Slice0/Obligations.lean ====
section
/-! DEFINITION. The statements for the provers. Each docstring names the rules it formalises; where a
statement rests on a choice of the model, it names the log entry. -/

open Sys2Proof Sys2Proof.Machine

/-- Decoding the packed word of a well-formed command gives that command (30_encoding.md section 1
(packed order), 30_encoding.md section 2 (operands per command), 30_encoding.md section 3 (opcode
map)). Model's choice: log 12. -/
def Obligations.EncodedWordDecodes : Prop :=
  ∀ i : Instr, i.wellFormed = true → decodeTableWord 142 (encodeWord i).toNat = some i

/-- Each assigned OP selects its command with the operand bits the spec lists, and no other OP
decodes (R82, R83). -/
def Obligations.EachOpcodeSelectsItsCommand : Prop :=
  (∀ (a : BitVec 32) (dt : DateTime) (al : AlarmRecord),
    decode ⟨0x01,a,dt,al⟩ = .ok (.bcddec (a.extractLsb' 0 8)) ∧
    decode ⟨0x02,a,dt,al⟩ = .ok (.bcdenc (a.extractLsb' 0 8)) ∧
    decode ⟨0x11,a,dt,al⟩ = .ok (.u2dt (a.extractLsb' 0 32)) ∧
    decode ⟨0x13,a,dt,al⟩ = .ok (.leap4 (a.extractLsb' 0 16)) ∧
    decode ⟨0x14,a,dt,al⟩ = .ok (.leapg (a.extractLsb' 0 16)) ∧
    decode ⟨0x15,a,dt,al⟩ = .ok (.ldu (a.extractLsb' 0 32)) ∧
    decode ⟨0x22,a,dt,al⟩ = .ok (.setu (a.extractLsb' 0 32)) ∧
    decode ⟨0x30,a,dt,al⟩ = .ok (.seteosc (a.extractLsb' 0 1)) ∧
    decode ⟨0x31,a,dt,al⟩ = .ok (.setbbsqw (a.extractLsb' 0 1)) ∧
    decode ⟨0x32,a,dt,al⟩ = .ok (.setrs (a.extractLsb' 0 2)) ∧
    decode ⟨0x33,a,dt,al⟩ = .ok (.setintcn (a.extractLsb' 0 1)) ∧
    decode ⟨0x34,a,dt,al⟩ = .ok (.seta1ie (a.extractLsb' 0 1)) ∧
    decode ⟨0x35,a,dt,al⟩ = .ok (.seta2ie (a.extractLsb' 0 1)) ∧
    decode ⟨0x36,a,dt,al⟩ = .ok (.seten32k (a.extractLsb' 0 1)) ∧
    decode ⟨0x21,a,dt,al⟩ = .ok .getdt ∧
    decode ⟨0x23,a,dt,al⟩ = .ok .getu ∧
    decode ⟨0x29,a,dt,al⟩ = .ok .getal1 ∧
    decode ⟨0x2B,a,dt,al⟩ = .ok .getal2 ∧
    decode ⟨0x37,a,dt,al⟩ = .ok .clra1f ∧
    decode ⟨0x38,a,dt,al⟩ = .ok .clra2f ∧
    decode ⟨0x39,a,dt,al⟩ = .ok .clrosf ∧
    decode ⟨0x40,a,dt,al⟩ = .ok .geteosc ∧
    decode ⟨0x41,a,dt,al⟩ = .ok .getbbsqw ∧
    decode ⟨0x42,a,dt,al⟩ = .ok .getrs ∧
    decode ⟨0x43,a,dt,al⟩ = .ok .getintcn ∧
    decode ⟨0x44,a,dt,al⟩ = .ok .geta1ie ∧
    decode ⟨0x45,a,dt,al⟩ = .ok .geta2ie ∧
    decode ⟨0x46,a,dt,al⟩ = .ok .geten32k ∧
    decode ⟨0x47,a,dt,al⟩ = .ok .geta1f ∧
    decode ⟨0x48,a,dt,al⟩ = .ok .geta2f ∧
    decode ⟨0x49,a,dt,al⟩ = .ok .getosf ∧
    decode ⟨0x4A,a,dt,al⟩ = .ok .getbsy ∧
    (∃ d, decode ⟨0x10,a,dt,al⟩ = .ok (.dt2u d) ∧ d.year = dt.year ∧ d.month = dt.month ∧ d.date = dt.date ∧
      d.hour = dt.hour ∧ d.min = dt.min ∧ d.sec = dt.sec) ∧
    (∃ d, decode ⟨0x12,a,dt,al⟩ = .ok (.dow d) ∧ d.year = dt.year ∧ d.month = dt.month ∧ d.date = dt.date) ∧
    (∃ d, decode ⟨0x20,a,dt,al⟩ = .ok (.setdt d) ∧ d.year = dt.year ∧ d.month = dt.month ∧ d.date = dt.date ∧
      d.hour = dt.hour ∧ d.min = dt.min ∧ d.sec = dt.sec ∧ d.dow = dt.dow) ∧
    (al.mode.toNat ≤ 4 → decode ⟨0x28,a,dt,al⟩ = .ok (.setal1 al)) ∧
    (al.mode.toNat ≤ 3 → ∃ r, decode ⟨0x2A,a,dt,al⟩ = .ok (.setal2 r) ∧ r.min = al.min ∧ r.hour = al.hour ∧
      r.dd = al.dd ∧ r.dydt = al.dydt ∧ r.mode = al.mode ∧ r.ie = al.ie)) ∧
  ∀ c i, decode c = .ok i → c.op ∈ assignedOpcodes

/-- A command with a reserved OP writes STATUS 3 and FLAGS 0 and does nothing else (R84). -/
def Obligations.ReservedOpcodeRaisesIllegalCommand : Prop :=
  (∀ op : Byte, op ∈ assignedOpcodes ↔ ¬ (op.toNat = 0x00 ∨ (0x03 ≤ op.toNat ∧ op.toNat ≤ 0x0F) ∨
    (0x16 ≤ op.toNat ∧ op.toNat ≤ 0x1F) ∨ (0x24 ≤ op.toNat ∧ op.toNat ≤ 0x27) ∨
    (0x2C ≤ op.toNat ∧ op.toNat ≤ 0x2F) ∨ (0x3A ≤ op.toNat ∧ op.toNat ≤ 0x3F) ∨ 0x4B ≤ op.toNat)) ∧
  ∀ (c : Command) (s : State) (rest : List Event), c.op ∉ assignedOpcodes → s.agenda = .issue c :: rest →
    step s = .next { s with agenda := rest, status := some 0x03, flags := some 0x00 }

/-- SETAL1 with mode 5-7 and SETAL2 with mode 4-7 write STATUS 3 and FLAGS 0 and do nothing else
(R85). -/
def Obligations.ReservedAlarmModeRaisesIllegalCommand : Prop :=
  (∀ (a : BitVec 32) (dt : DateTime) (al : AlarmRecord) (s : State) (rest : List Event),
    (4 < al.mode.toNat → s.agenda = .issue ⟨0x28, a, dt, al⟩ :: rest →
      step s = .next { s with agenda := rest, status := some 0x03, flags := some 0x00 }) ∧
    (3 < al.mode.toNat → s.agenda = .issue ⟨0x2A, a, dt, al⟩ :: rest →
      step s = .next { s with agenda := rest, status := some 0x03, flags := some 0x00 })) ∧
  (∀ (al : AlarmRecord) (s : State),
    (4 < al.mode.toNat → exec (.setal1 al) s = .next { s with status := some 0x03, flags := some 0x00 }) ∧
    (3 < al.mode.toNat → exec (.setal2 al) s = .next { s with status := some 0x03, flags := some 0x00 })) ∧
  ∀ c : Command, c.op ∈ assignedOpcodes → c.op ≠ 0x28 → c.op ≠ 0x2A → ∃ i, decode c = .ok i

/-- Every command tuple decodes to one command or is refused, and the decode check comes first
(R87). -/
def Obligations.DecodingIsTotal : Prop :=
  (∀ c : Command, (∃ i, decode c = .ok i) ↔ (c.op ∈ assignedOpcodes ∧ (c.op = 0x28 → c.al.mode.toNat ≤ 4) ∧
    (c.op = 0x2A → c.al.mode.toNat ≤ 3))) ∧
  ∀ (c : Command) (s : State) (rest : List Event), s.agenda = .issue c :: rest → (∀ i, decode c ≠ .ok i) →
    step s = .next { s with agenda := rest, status := some 0x03, flags := some 0x00 }

/-- A command's effect does not depend on the port bits it does not read (30_encoding.md section 1
(operand ports are read-only inputs), 30_encoding.md section 2 (operands per command)). Model's
choice: log 14. -/
def Obligations.UnreadPortBitsDoNotMatter : Prop :=
  (∀ (c c' : Command) (s : State), c.op = c'.op → agreeOnOperands c c' → present c s = present c' s) ∧
  ∀ (c : Command) (i : Instr), decode c = .ok i → i.wellFormed = true ∧ decode (encode i) = .ok i ∧
    (encode i).op = c.op ∧ ∀ s : State, present (encode i) s = present c s

/-- Words written out from the encoding tables decode to the commands they stand for (30_encoding.md
section 3 (opcode map), 30_encoding.md section 1 (packed order)). Model's choice: log 12. -/
def Obligations.WordsFromTheEncodingDecode : Prop :=
  decodeTableWord 142 0x2D02 = some (.bcdenc 45) ∧
  decodeTableWord 142 0x65E071C011 = some (.u2dt 1709208000) ∧
  decodeTableWord 142 0x07E8021D000C00000000000010 = some (.dt2u ⟨0, 0, 12, 0, 29, 2, 2024, 0⟩) ∧
  decodeTableWord 142 0x07E8021D040C00000000000020 = some (.setdt ⟨0, 0, 12, 4, 29, 2, 2024, 0⟩) ∧
  decodeTableWord 142 (0x19050A1E00 * 2 ^ 105 + 0x28) = some (.setal1 ⟨0, 30, 10, 5, 1, 4, 1⟩) ∧
  decodeTableWord 142 0x0232 = some (.setrs 2) ∧
  decodeTableWord 142 0x4A = some .getbsy

/-- Each mnemonic assembles to its own OP with its own operand form; an unknown one is refused, and
no reserved OP is emitted (30_encoding.md section 3 (opcode map), 30_encoding.md section 5
(assembler syntax)). Model's choice: log 22. -/
def Obligations.AssemblerRefusesUnknownAndReserved : Prop :=
  (∀ (m : String) (op : Byte) (w : Nat), (m, op, w) ∈ ([
      ("BCDDEC", 0x01, 8), ("BCDENC", 0x02, 8), ("U2DT", 0x11, 32), ("LEAP4", 0x13, 16),
      ("LEAPG", 0x14, 16), ("LDU", 0x15, 32), ("SETU", 0x22, 32), ("SETEOSC", 0x30, 1),
      ("SETBBSQW", 0x31, 1), ("SETRS", 0x32, 2), ("SETINTCN", 0x33, 1), ("SETA1IE", 0x34, 1),
      ("SETA2IE", 0x35, 1), ("SETEN32K", 0x36, 1)] :
      List (String × Byte × Nat)) →
    (∀ n, assemble m (.imm n) =
      if n < 2 ^ w then some ⟨op, BitVec.ofNat 32 n, zeroDateTime, zeroAlarm⟩ else none) ∧
    (∀ d, assemble m (.dt d) = none) ∧ (∀ r, assemble m (.al r) = none) ∧ assemble m .none = none) ∧
  (∀ (m : String) (op : Byte), (m, op) ∈ ([
      ("DT2U", 0x10), ("DOW", 0x12), ("SETDT", 0x20)] : List (String × Byte)) →
    (∀ d, assemble m (.dt d) = some ⟨op, 0, { d with oscEn := 0 }, zeroAlarm⟩) ∧
    (∀ n, assemble m (.imm n) = none) ∧ (∀ r, assemble m (.al r) = none) ∧ assemble m .none = none) ∧
  (∀ (m : String) (op : Byte), (m, op) ∈ ([
      ("SETAL1", 0x28), ("SETAL2", 0x2A)] : List (String × Byte)) →
    (∀ r, assemble m (.al r) = some ⟨op, 0, zeroDateTime, r⟩) ∧
    (∀ n, assemble m (.imm n) = none) ∧ (∀ d, assemble m (.dt d) = none) ∧ assemble m .none = none) ∧
  (∀ (m : String) (op : Byte), (m, op) ∈ ([
      ("GETDT", 0x21), ("GETU", 0x23), ("GETAL1", 0x29), ("GETAL2", 0x2B), ("CLRA1F", 0x37),
      ("CLRA2F", 0x38), ("CLROSF", 0x39), ("GETEOSC", 0x40), ("GETBBSQW", 0x41), ("GETRS", 0x42),
      ("GETINTCN", 0x43), ("GETA1IE", 0x44), ("GETA2IE", 0x45), ("GETEN32K", 0x46), ("GETA1F", 0x47),
      ("GETA2F", 0x48), ("GETOSF", 0x49), ("GETBSY", 0x4A)] :
      List (String × Byte)) →
    assemble m .none = some ⟨op, 0, zeroDateTime, zeroAlarm⟩ ∧
    (∀ n, assemble m (.imm n) = none) ∧ (∀ d, assemble m (.dt d) = none) ∧ (∀ r, assemble m (.al r) = none)) ∧
  (∀ (m : String) (o : AsmOperand) (c : Command), assemble m o = some c →
    c.op ∈ assignedOpcodes ∧ m ∈ assemblerMnemonics) ∧
  ∀ (line : String) (c : Command), assembleLine line = some c → c.op ∈ assignedOpcodes ∧
    ∃ m ws, lineWords (withoutComment line.toList) = m :: ws ∧ String.ofList m ∈ assemblerMnemonics

/-- A line of text assembles as its mnemonic and its operand read; numbers are read in decimal and
hex (30_encoding.md section 5 (assembler syntax)). Model's choice: log 22. -/
def Obligations.AssemblerReadsLinesOfText : Prop :=
  (∀ (line : String) (m : List Char) (ws : List (List Char)) (c : Command),
    lineWords (withoutComment line.toList) = m :: ws →
    (∀ x n, ws = [x] → numberOf x = some n → assemble (String.ofList m) (.imm n) = some c →
      assembleLine line = some c) ∧
    (∀ d, dateOperandOf ws = some d → assemble (String.ofList m) (.dt d) = some c → assembleLine line = some c) ∧
    (∀ as r, recordOf ws = some as → alarmRecordOf as = some r → assemble (String.ofList m) (.al r) = some c →
      assembleLine line = some c) ∧
    (ws = [] → assemble (String.ofList m) .none = some c → assembleLine line = some c)) ∧
  (∀ n : Nat, numberOf (Nat.toDigits 10 n) = some n ∧ numberOf ('0' :: 'x' :: Nat.toDigits 16 n) = some n) ∧
  assembleLine "LDU 0xFFFFFFFF ; sentinel" = some ⟨0x15, 0xFFFFFFFF, zeroDateTime, zeroAlarm⟩ ∧
  assembleLine "U2DT 1709208000" = some ⟨0x11, 0x65E071C0, zeroDateTime, zeroAlarm⟩ ∧
  assembleLine "DT2U 1999-12-31 23:59:59" = some ⟨0x10, 0, ⟨59, 59, 23, 0, 31, 12, 1999, 0⟩, zeroAlarm⟩ ∧
  assembleLine "SETDT 2024-02-29 12:00:00 dow=4" = some ⟨0x20, 0, ⟨0, 0, 12, 4, 29, 2, 2024, 0⟩, zeroAlarm⟩ ∧
  assembleLine (String.ofList ("SETDT ".toList ++ [openBrace] ++
      "year=2024, month=1, date=32, hour=0, min=0, sec=0, dow=1".toList ++ [closeBrace])) =
    some ⟨0x20, 0, ⟨0, 0, 0, 1, 32, 1, 2024, 0⟩, zeroAlarm⟩ ∧
  assembleLine (String.ofList ("SETAL1 ".toList ++ [openBrace] ++
      "mode=4, dydt=1, dd=5, hour=10, min=30, sec=0, ie=1".toList ++ [closeBrace])) =
    some ⟨0x28, 0, zeroDateTime, ⟨0, 30, 10, 5, 1, 4, 1⟩⟩ ∧
  assembleLine (String.ofList ("SETAL1 ".toList ++ [openBrace] ++ "mode=6".toList ++ [closeBrace])) =
    some ⟨0x28, 0, zeroDateTime, ⟨0, 0, 0, 0, 0, 6, 0⟩⟩ ∧
  assembleLine "DOW 2024-02-29 00:00:00" = some ⟨0x12, 0, ⟨0, 0, 0, 0, 29, 2, 2024, 0⟩, zeroAlarm⟩ ∧
  assembleLine "DOW 2000-01-01" = some ⟨0x12, 0, ⟨0, 0, 0, 0, 1, 1, 2000, 0⟩, zeroAlarm⟩ ∧
  assembleLine "GETDT" = some ⟨0x21, 0, zeroDateTime, zeroAlarm⟩ ∧
  assembleLine "SQWMODE" = some ⟨0x33, 0, zeroDateTime, zeroAlarm⟩

/-- ALARMMODE is SETINTCN 1, SQWMODE is SETINTCN 0, and there is no other pseudo-instruction (R89). -/
def Obligations.PseudoInstructionsExpandToSetintcn : Prop :=
  assemble "ALARMMODE" .none = assemble "SETINTCN" (.imm 1) ∧
  assemble "SQWMODE" .none = assemble "SETINTCN" (.imm 0) ∧
  (assemble "ALARMMODE" .none).map decode = some (.ok (.setintcn 1)) ∧
  (assemble "SQWMODE" .none).map decode = some (.ok (.setintcn 0)) ∧
  ∀ (m : String) (o : AsmOperand) (c : Command), assemble m o = some c → m ≠ "ALARMMODE" → m ≠ "SQWMODE" →
    m ∈ asmTable.map (·.mnemonic)

/-- A step on a presented command that decodes to i is exec of i (00_scope.md section 2 (level of
the model), 10_state.md section 4 (the host interface)). Model's choice: log 1. -/
def Obligations.StepRunsTheDecodedCommand : Prop :=
  (∀ (s : State) (c : Command) (i : Instr) (rest : List Event), s.agenda = .issue c :: rest →
    decode c = .ok i → step s = exec i { s with agenda := rest }) ∧
  ∀ (s : State) (n w : Nat) (i : Instr), decodeTableWord n w = some i → step (s.withFetchWord n w) = exec i s

/-- A host read gives the value the register holds, and one of an unwritten register is recorded as
a fault and gives a value that nothing constrains (10_state.md section 1 (unwritten result
registers), 10_state.md section 4 (what the host can do)). Model's choice: log 3, 11, 25. -/
def Obligations.HostReadGivesTheRegistersValue : Prop :=
  (∀ s : State,
    (∀ t : UnixTime, s.resU = some t → hostRead .resU s = .unix t ∧ isWritten .resU s = true) ∧
    (s.resU = none → isWritten .resU s = false ∧ hostRead .resU s =
      .unix ((Config.unwrittenResults s.resets).resU)) ∧
    (∀ b : Byte, s.resB = some b → hostRead .resB s = .byte b ∧ isWritten .resB s = true) ∧
    (s.resB = none → isWritten .resB s = false ∧ hostRead .resB s =
      .byte ((Config.unwrittenResults s.resets).resB)) ∧
    (∀ dt : DateTime, s.resDT = some dt → hostRead .resDT s = .dateTime dt ∧ isWritten .resDT s = true) ∧
    (s.resDT = none → isWritten .resDT s = false ∧ hostRead .resDT s =
      .dateTime ((Config.unwrittenResults s.resets).resDT)) ∧
    (∀ al : AlarmRecord, s.resAL = some al → hostRead .resAL s = .alarm al ∧ isWritten .resAL s = true) ∧
    (s.resAL = none → isWritten .resAL s = false ∧ hostRead .resAL s =
      .alarm ((Config.unwrittenResults s.resets).resAL)) ∧
    (∀ b : Byte, s.flags = some b → hostRead .flags s = .byte b ∧ isWritten .flags s = true) ∧
    (s.flags = none → isWritten .flags s = false ∧ hostRead .flags s =
      .byte ((Config.unwrittenResults s.resets).flags &&& 0x0F)) ∧
    (∀ b : Byte, s.status = some b → hostRead .status s = .byte b ∧ isWritten .status s = true) ∧
    (s.status = none → isWritten .status s = false ∧ hostRead .status s =
      .byte ((Config.unwrittenResults s.resets).status))) ∧
  (∀ (s : State) (rest : List Event) (r : ResultReg), s.agenda = .read r :: rest →
    (isWritten r s = true → step s = .next { s with agenda := rest }) ∧
    (isWritten r s = false → step s = .next { s with agenda := rest, faultyReads := s.faultyReads ++ [r] })) ∧
  ∀ s : State, ∃ t, step s = .next t

/-- No command's effect depends on what the result registers hold (10_state.md section 1 (a command
never reads a result register), 70_reset_and_hazards.md section 4 (control transfer)). -/
def Obligations.NoCommandReadsAResultRegister : Prop :=
  ∀ (i : Instr) (s s' : State), s.reg = s'.reg → s.draws = s'.draws → s.made = s'.made → s.agenda = s'.agenda →
    s.params = s'.params →
    ∃ t t', exec i s = .next t ∧ exec i s' = .next t' ∧ t.reg = t'.reg ∧ t.draws = t'.draws ∧
      t.made = t'.made ∧ t.params = t'.params ∧ t.agenda = t'.agenda ∧ t.flags = t'.flags ∧ t.status = t'.status ∧
      ((t.resU = t'.resU ∧ t.resU.isSome) ∨ (t.resU = s.resU ∧ t'.resU = s'.resU)) ∧
      ((t.resB = t'.resB ∧ t.resB.isSome) ∨ (t.resB = s.resB ∧ t'.resB = s'.resB)) ∧
      ((t.resDT = t'.resDT ∧ t.resDT.isSome) ∨ (t.resDT = s.resDT ∧ t'.resDT = s'.resDT)) ∧
      ((t.resAL = t'.resAL ∧ t.resAL.isSome) ∨ (t.resAL = s.resAL ∧ t'.resAL = s'.resAL))

/-- At reset every result register becomes unwritten, and the block waits for the host's first
command (10_state.md section 3 (reset values), 70_reset_and_hazards.md section 1 (reset)). Model's
choice: log 1, 2, 3. -/
def Obligations.ResetLeavesEveryResultUnwritten : Prop :=
  (∀ (s : State) (rest : List Event), s.agenda = .reset :: rest → step s = .next
    { s with resU := none, resB := none, resDT := none, resAL := none, flags := none, status := none,
             resets := s.resets + 1, agenda := rest }) ∧
  (State.reset.resU = none ∧ State.reset.resB = none ∧ State.reset.resDT = none ∧ State.reset.resAL = none ∧
    State.reset.flags = none ∧ State.reset.status = none ∧ State.reset.agenda = []) ∧
  ∀ s : State, s.agenda = [] → step s = .next s

/-- The invariant holds in the state after reset (10_state.md section 3 (reset values)). Model's
choice: log 4. -/
def Obligations.InvariantHoldsAtReset : Prop :=
  Inv State.reset

/-- Every step keeps the invariant: canonical REG, FLAGS 7:4 zero, a legal STATUS, FLAGS 0 on an
error, osc_en 1, a legal mode (10_state.md section 1 (R20 to R27), 60_exceptions.md section 1 (what
raise does)). Model's choice: log 4. -/
def Obligations.EveryStepKeepsTheInvariant : Prop :=
  ∀ s t : State, Inv s → step s = .next t → Inv t

/-- A result register changes only under the commands the spec lists as its writers (10_state.md
section 1 (the Written-by column of the result registers), 10_state.md section 1 (persistence)). -/
def Obligations.OnlyListedCommandsWriteAResultRegister : Prop :=
  ∀ (i : Instr) (s t : State), exec i s = .next t →
    (mayWriteU i = false → t.resU = s.resU) ∧ (mayWriteB i = false → t.resB = s.resB) ∧
    (mayWriteDT i = false → t.resDT = s.resDT) ∧ (mayWriteAL i = false → t.resAL = s.resAL) ∧
    t.flags.isSome = true ∧ t.status.isSome = true ∧ t.agenda = s.agenda ∧ t.params = s.params ∧
    t.resets = s.resets ∧ t.faultyReads = s.faultyReads

/-- With no chip step, every register a command does not write through the transport keeps its byte
(20_memory.md section 2 (transport primitives), 20_memory.md section 3 (the block's transfers)). -/
def Obligations.CalmCommandKeepsUnaddressedRegisters : Prop :=
  ∀ (i : Instr) (s t : State) (a : Addr), calmFor (transportCalls i) s = true → exec i s = .next t →
    a ∉ storedRegs i → regByte t a = regByte s a

/-- A peripheral register changes only by a write of the block or within the volatile bits (R38). -/
def Obligations.RegistersChangeOnlyByStoresAndVolatileBits : Prop :=
  ∀ (s t : State) (a : Addr), step s = .next t →
    (∀ c i rest, s.agenda = .issue c :: rest → decode c = .ok i → a ∉ storedRegs i) →
    chipReaches s.params a (regByte s a) (regByte t a) = true

/-- A set OSF, A2F or A1F stays set through every completing command but its own clear
(60_exceptions.md section 2 (alarm events are polled), 70_reset_and_hazards.md section 2 (RMW
against the chip), 20_memory.md section 4 (environment steps)). -/
def Obligations.StickyFlagsFallOnlyWhenCleared : Prop :=
  (volatileRow State.reset.params 0x0F).any &&& 0x83 = 0 ∧
  ∀ (i : Instr) (s t : State), (volatileRow s.params 0x0F).any &&& 0x83 = 0 → exec i s = .next t → t.status = some 0x00 →
    (i ≠ .clrosf → (regByte s 0x0F).getLsbD 7 = true → (regByte t 0x0F).getLsbD 7 = true) ∧
    (i ≠ .clra2f → (regByte s 0x0F).getLsbD 1 = true → (regByte t 0x0F).getLsbD 1 = true) ∧
    (i ≠ .clra1f → (regByte s 0x0F).getLsbD 0 = true → (regByte t 0x0F).getLsbD 0 = true)

/-- The enables, the rate and the alarm setters force INTCN to 1, SETINTCN writes its operand, and
no other command changes it (R202). -/
def Obligations.IntcnIsForcedByTheCouplingAlone : Prop :=
  ∀ (i : Instr) (s t : State), calmFor (transportCalls i) s = true → exec i s = .next t → t.status = some 0x00 →
    (forcesIntcn i = true → (regByte t 0x0E).extractLsb' 2 1 = 1) ∧
    (∀ v, i = .setintcn v → (regByte t 0x0E).extractLsb' 2 1 = v) ∧
    (forcesIntcn i = false → (∀ v, i ≠ .setintcn v) →
      (regByte t 0x0E).extractLsb' 2 1 = (regByte s 0x0E).extractLsb' 2 1) ∧
    (∀ v, i = .seta1ie v → (regByte t 0x0E).extractLsb' 0 1 = v) ∧
    (∀ al, i = .setal1 al → (regByte t 0x0E).extractLsb' 0 1 = al.ie) ∧
    (∀ v, i = .seta2ie v → (regByte t 0x0E).extractLsb' 1 1 = v) ∧
    (∀ al, i = .setal2 al → (regByte t 0x0E).extractLsb' 1 1 = al.ie) ∧
    (∀ rs, i = .setrs rs → (regByte t 0x0E).extractLsb' 3 2 = rs)

/-- Every presented command completes, with STATUS 0 to 3, and an error writes nothing but STATUS
and FLAGS 0 (60_exceptions.md section 1 (overview), 10_state.md section 4 (what the host owes and
gets)). Model's choice: log 11. -/
def Obligations.EveryCommandEndsInOneOfFourWays : Prop :=
  ∀ (c : Command) (s : State), ∃ t k fl, present c s = .next t ∧ t.status = some k ∧ t.flags = some fl ∧
    k.toNat ≤ 3 ∧ (k ≠ 0 → fl = 0 ∧ t.resU = s.resU ∧ t.resB = s.resB ∧ t.resDT = s.resDT ∧ t.resAL = s.resAL)

/-- ValidationFailure is raised exactly by SETDT of an illegal date-time and SETU outside the
window, before any call (R243). -/
def Obligations.OnlySetdtAndSetuRaiseValidationFailure : Prop :=
  ∀ (i : Instr) (s t : State), exec i s = .next t →
    (t.status = some 0x02 ↔ (∃ dt, i = .setdt dt ∧ ¬ legalFields dt) ∨
      (∃ u : UnixTime, i = .setu u ∧ (u.toNat < 946684800 ∨ 4102444799 < u.toNat))) ∧
    (t.status = some 0x02 → t.made = s.made ∧ t.draws = s.draws ∧ t.reg = s.reg)

/-- A command makes the calls of the transfer table in order, up to the first that fails, after the
decode and validation checks (R57, R244, R245). -/
def Obligations.FirstFailedCallEndsTheCommand : Prop :=
  (∀ (c : Command) (s : State),
    ((∀ i, decode c ≠ .ok i) → present c s = .next { s with status := some 0x03, flags := some 0x00 }) ∧
    ∀ i, decode c = .ok i →
      (failsValidation i → present c s = .next { s with status := some 0x02, flags := some 0x00 }) ∧
      (¬ failsValidation i →
        ∃ (t : State) (cs : List TransportCall) (k : Nat), present c s = .next t ∧ t.made = s.made ++ cs ∧
          cs.map TransportCall.shape = (callTable i).take k ∧ t.draws = s.draws.drop k ∧
          ((t.status = some 0x00 ∧ k = (callTable i).length) ∨
            (t.status = some 0x01 ∧ 0 < k ∧ k ≤ (callTable i).length)) ∧
          ((callTable i).length ≤ s.draws.length →
            if (s.draws.take (callTable i).length).all (·.ok) then t.status = some 0x00
            else t.status = some 0x01 ∧
              k = (s.draws.take (callTable i).length).findIdx (fun d => !d.ok) + 1))) ∧
  ∀ (i : Instr) (w : Bool) (a : Addr) (n : Nat), (w, a, n) ∈ callTable i → a.toNat + n ≤ 0x10

/-- A successful write stores its bytes; a failed one leaves any bytes in its range; no other
register changes (R53, R54). -/
def Obligations.WriteStoresOrLeavesArbitraryBytes : Prop :=
  (∀ (a : Addr) (bs : List Byte) (s : State) (d : CallDraw) (ds : List CallDraw),
    a.toNat + bs.length ≤ 256 → s.draws = d :: ds →
      (memWrite a bs s).1 = d.ok ∧
      (d.ok = true → ∀ i b, bs[i]? = some b → regByte (memWrite a bs s).2 (a + BitVec.ofNat 8 i) = b) ∧
      ∀ a' : Addr, (a'.toNat < a.toNat ∨ a.toNat + bs.length ≤ a'.toNat) →
        regByte (memWrite a bs s).2 a' = regByte (atStart s d) a') ∧
  (∀ (a : Addr) (bs cs : List Byte) (before : List ChipStep), a.toNat + bs.length ≤ 256 → cs.length = bs.length →
    ∃ d : CallDraw, d.ok = false ∧ d.before = before ∧ ∀ (s : State) (ds : List CallDraw), s.draws = d :: ds →
      ∀ i b, cs[i]? = some b → regByte (memWrite a bs s).2 (a + BitVec.ofNat 8 i) = b) ∧
  ∀ (a : Addr) (bs : List Byte) (k : State → State) (s : State), (nextDraw s).ok = false →
    writeThen a bs k s = { (memWrite a bs s).2 with status := some 0x01, flags := some 0x00 }

/-- A successful read returns each register's byte as it was delivered; a failed read returns none
and changes no register (20_memory.md section 2 (transport primitives: MemRead, a failed read),
20_memory.md section 4 (environment steps, atomicity of one transfer)). Model's choice: log 6. -/
def Obligations.ReadReturnsRegisterBytesOrNothing : Prop :=
  (∀ (a : Addr) (n : Nat) (s : State) (d : CallDraw) (ds : List CallDraw), s.draws = d :: ds → d.ok = true →
    ∃ b, memRead a n s = (some b, { s with reg := (atByte s d n).reg, draws := ds,
                                           made := s.made ++ [.read a n] }) ∧
      b.length = n ∧ ∀ i, i < n → b[i]? = some (regByte (atByte s d i) (a + BitVec.ofNat 8 i))) ∧
  ∀ (a : Addr) (n : Nat) (s : State) (d : CallDraw) (ds : List CallDraw), s.draws = d :: ds → d.ok = false →
    memRead a n s = (none, { s with reg := (chipSteps d.before s).reg, draws := ds,
                                    made := s.made ++ [.read a n] }) ∧
    ∀ k, readThen a n k s = { (memRead a n s).2 with status := some 0x01, flags := some 0x00 }

/-- P_READ_ATOMIC decides whether a read's bytes come from one instant; a write's bytes are stored
at one (20_memory.md section 4 (atomicity of one transfer), 00_scope.md section 3 (named
parameters)). Model's choice: log 9, 26. -/
def Obligations.ReadAtomicDecidesWhenBytesAreTaken : Prop :=
  (∀ (a : Addr) (n : Nat) (s : State) (d : CallDraw) (ds : List CallDraw), s.draws = d :: ds → d.ok = true →
    (s.params.readAtomic = false → ∃ b, (memRead a n s).1 = some b ∧ b.length = n ∧ ∀ i, i < n →
      b[i]? = some (regByte (chipSteps (d.before ++ (d.between.take i).flatten) s) (a + BitVec.ofNat 8 i))) ∧
    (s.params.readAtomic = true → (memRead a n s).1 = some (regBlock (chipSteps d.before s) a n))) ∧
  (∀ (a : Addr) (bs : List Byte) (s : State) (d : CallDraw) (ds : List CallDraw), s.draws = d :: ds →
    d.ok = true → (memWrite a bs s).1 = true ∧
      (memWrite a bs s).2.reg = (setRegs a bs (chipSteps d.before s)).reg) ∧
  State.reset.params.readAtomic = false

/-- The chip's steps reach exactly what the volatile table allows (R60). -/
def Obligations.ChipStepsStayWithinTheVolatileBits : Prop :=
  (∀ (cs : List ChipStep) (s : State) (a : Addr),
    chipReaches s.params a (regByte s a) (regByte (chipSteps cs s) a) = true) ∧
  (∀ (s : State) (a : Addr) (b : Byte), chipReaches s.params a (regByte s a) b = true →
    ∃ c : ChipStep, regByte (chipStep c s) a = b ∧ ∀ a', a' ≠ a → regByte (chipStep c s) a' = regByte s a') ∧
  (∀ (s : State) (c : ChipStep) (rest : List Event), s.agenda = .chip c :: rest →
    step s = .next (chipStep c { s with agenda := rest })) ∧
  (∀ (s : State) (d : CallDraw) (ds : List CallDraw) (c : TransportCall), s.draws = d :: ds →
    (beginCall c s).reg = (chipSteps d.before s).reg) ∧
  ∀ a : Addr, (volatileRow State.reset.params a).any = tableAny a ∧
    (volatileRow State.reset.params a).setOnly = tableSetOnly a

/-- No step changes a parameter, and no command depends on P_BUS_ADDR (00_scope.md section 3 (named
parameters)). Model's choice: log 26. -/
def Obligations.ParametersStayAndBusAddressIsUnused : Prop :=
  (∀ s t : State, step s = .next t → t.params = s.params) ∧
  State.reset.params.readAtomic = false ∧ State.reset.params.busAddr = 0x68 ∧
  ∀ (i : Instr) (s : State) (b : BitVec 7), ∃ t, exec i s = .next t ∧
    exec i { s with params := { s.params with busAddr := b } } =
      .next { t with params := { t.params with busAddr := b } }

/-- Whatever the chip changes between a setter's read and its write, the setter stores the byte
computed from the read (20_memory.md section 4 (read-modify-write is not atomic),
70_reset_and_hazards.md section 2 (RMW against the chip), 44_control_status.md section 1 (the
read-modify-write primitive)). -/
def Obligations.ReadModifyWriteRestoresWhatItRead : Prop :=
  ∀ (i : Instr) (r : Addr) (m v : Byte) (s : State) (d1 d2 : CallDraw) (ds : List CallDraw),
    setterRow i = some (r, m, v) → s.draws = d1 :: d2 :: ds → d1.ok = true → d2.ok = true →
    ∃ t, exec i s = .next t ∧ t.status = some 0x00 ∧ t.flags = some 0x00 ∧ regByte t r = (regByte (atStart s d1) r &&& ~~~m) ||| v ∧
      ∀ a, a ≠ r → regByte t a = regByte (atStart (atByte s d1 1) d2) a

/-- GETDT can return 12:01:59 while the clock goes from 12:00:59 to 12:01:00
(70_reset_and_hazards.md section 2 (non-atomic time read), 20_memory.md section 4 (atomicity of one
transfer)). Model's choice: log 9. -/
def Obligations.ReadMayStraddleACarry : Prop :=
  ∃ (s t : State) (d : CallDraw) (ds : List CallDraw), s.params = State.reset.params ∧ s.params.readAtomic = false ∧
    s.draws = d :: ds ∧ d.ok = true ∧ d.before = [] ∧
    regBlock s 0x00 7 = [0x59, 0x00, 0x12, 0x04, 0x29, 0x02, 0x24] ∧
    (∀ i : Nat, regBlock (atByte s d i) 0x00 7 =
      if i = 0 then [0x59, 0x00, 0x12, 0x04, 0x29, 0x02, 0x24] else [0x00, 0x01, 0x12, 0x04, 0x29, 0x02, 0x24]) ∧
    exec .getdt s = .next t ∧ t.status = some 0x00 ∧ t.flags = some 0x00 ∧
    t.resDT = some ⟨59, 1, 12, 4, 29, 2, 2024, 1⟩ ∧
    regBlock t 0x00 7 = [0x00, 0x01, 0x12, 0x04, 0x29, 0x02, 0x24]

/-- BCDDEC writes 10 times the high nibble plus the low nibble, and NBCD for a nibble above 9 (R101,
R104). -/
def Obligations.BcddecDecodesByTheFormula : Prop :=
  (∀ a dt al, decode ⟨0x01, a, dt, al⟩ = .ok (.bcddec (a.extractLsb' 0 8))) ∧
  ∀ (b : Byte) (s : State), exec (.bcddec b) s = .next
    { s with resB := some (BitVec.ofNat 8 (b.toNat / 16 * 10 + b.toNat % 16)),
             flags := some (if 9 < b.toNat / 16 ∨ 9 < b.toNat % 16 then 0x01 else 0x00),
             status := some 0x00 }

/-- BCDENC writes the truncated BCD byte, and RANGE for a value above 99 (R105). -/
def Obligations.BcdencEncodesByTheFormula : Prop :=
  (∀ a dt al, decode ⟨0x02, a, dt, al⟩ = .ok (.bcdenc (a.extractLsb' 0 8))) ∧
  ∀ (v : Byte) (s : State), exec (.bcdenc v) s = .next
    { s with resB := some (BitVec.ofNat 8 (v.toNat / 10 * 16 + v.toNat % 10)),
             flags := some (if 99 < v.toNat then 0x02 else 0x00),
             status := some 0x00 }

/-- Decoding an encoded value gives it back below 160, and encoding a decoded valid byte gives it
back (40_bcd_codec.md section 3 (codec laws)). -/
def Obligations.BcdCodecLaws : Prop :=
  (∀ (v : Byte) (s : State), ∃ t b u x, exec (.bcdenc v) s = .next t ∧ t.resB = some b ∧
    exec (.bcddec b) t = .next u ∧ u.resB = some x ∧
    x.toNat = (if v.toNat < 160 then v.toNat else v.toNat - 160) ∧
    (u.flags = some 0x00 ↔ (v.toNat ≤ 99 ∨ 160 ≤ v.toNat))) ∧
  ∀ (b : Byte) (s : State), b.toNat / 16 ≤ 9 → b.toNat % 16 ≤ 9 → ∃ t v u, exec (.bcddec b) s = .next t ∧
    t.resB = some v ∧ exec (.bcdenc v) t = .next u ∧ u.resB = some b

/-- LEAP4 writes year mod 4 = 0, LEAPG writes the full Gregorian test (R135, R136). -/
def Obligations.LeapTestsFollowTheirRules : Prop :=
  (∀ a dt al, decode ⟨0x13, a, dt, al⟩ = .ok (.leap4 (a.extractLsb' 0 16)) ∧
    decode ⟨0x14, a, dt, al⟩ = .ok (.leapg (a.extractLsb' 0 16))) ∧
  ∀ (y : Year) (s : State),
    exec (.leap4 y) s = .next { s with resB := some (if y.toNat % 4 = 0 then 1 else 0),
                                       flags := some 0x00, status := some 0x00 } ∧
    exec (.leapg y) s = .next
      { s with resB := some (if y.toNat % 400 = 0 ∨ (y.toNat % 4 = 0 ∧ y.toNat % 100 ≠ 0) then 1 else 0),
               flags := some 0x00, status := some 0x00 }

/-- LDU writes A[31:0] to RES_U (R137). -/
def Obligations.LduLoadsTheUnixResult : Prop :=
  (∀ a dt al, decode ⟨0x15, a, dt, al⟩ = .ok (.ldu a)) ∧
  ∀ (u : UnixTime) (s : State), exec (.ldu u) s = .next
    { s with resU := some u, flags := some 0x00, status := some 0x00 }

/-- DT2U writes the 32-bit sum for a year from 2000 and a month 1-12, and else leaves RES_U as it
was (R129, R130, R132). -/
def Obligations.Dt2uSumsOrLeavesResU : Prop :=
  (∀ a dt al, ∃ d, decode ⟨0x10, a, dt, al⟩ = .ok (.dt2u d) ∧ d.year = dt.year ∧ d.month = dt.month ∧
    d.date = dt.date ∧ d.hour = dt.hour ∧ d.min = dt.min ∧ d.sec = dt.sec) ∧
  ∀ (dt : DateTime) (s : State),
    (2000 ≤ dt.year.toNat ∧ 1 ≤ dt.month.toNat ∧ dt.month.toNat ≤ 12 → exec (.dt2u dt) s = .next
      { s with resU := some (unixSum dt), flags := some 0x00, status := some 0x00 }) ∧
    (¬ (2000 ≤ dt.year.toNat ∧ 1 ≤ dt.month.toNat ∧ dt.month.toNat ≤ 12) → exec (.dt2u dt) s = .next
      { s with flags := some 0x00, status := some 0x00 })

/-- U2DT gives, for every 32-bit time, the Gregorian date-time that many seconds after 1970-01-01
(41_calendar.md section 1 (to_datetime), 41_calendar.md section 3 (range of to_datetime, outside the
window)). -/
def Obligations.U2dtGivesTheGregorianDateTime : Prop :=
  (∀ a dt al, decode ⟨0x11, a, dt, al⟩ = .ok (.u2dt a)) ∧
  ∀ t : UnixTime, ∃ dt : DateTime,
    (∀ s : State, exec (.u2dt t) s = .next { s with resDT := some dt, flags := some 0x00, status := some 0x00 }) ∧
    1970 ≤ dt.year.toNat ∧ dt.year.toNat ≤ 2106 ∧ properDateTime dt = true ∧ dt.oscEn = 1 ∧
    dt.dow.toNat = dayOfWeek dt.year.toNat dt.month.toNat dt.date.toNat ∧
    1 ≤ dt.dow.toNat ∧ dt.dow.toNat ≤ 7 ∧ gregorianSeconds dt = t.toNat

/-- Inside 2000-2099 U2DT and DT2U are exact inverses (R138). -/
def Obligations.RoundTripInsideTheWindow : Prop :=
  (∀ t : UnixTime, 946684800 ≤ t.toNat → t.toNat ≤ 4102444799 → ∃ dt : DateTime,
    (∀ s, exec (.u2dt t) s = .next { s with resDT := some dt, flags := some 0x00, status := some 0x00 }) ∧
    2000 ≤ dt.year.toNat ∧ dt.year.toNat ≤ 2099 ∧ 1 ≤ dt.month.toNat ∧ dt.month.toNat ≤ 12 ∧
    ∀ s, exec (.dt2u dt) s = .next { s with resU := some t, flags := some 0x00, status := some 0x00 }) ∧
  ∀ dt : DateTime, properDateTime dt = true → 2000 ≤ dt.year.toNat → dt.year.toNat ≤ 2099 →
    ∃ (u : UnixTime) (dt' : DateTime),
      (∀ s, exec (.dt2u dt) s = .next { s with resU := some u, flags := some 0x00, status := some 0x00 }) ∧
      (∀ s, exec (.u2dt u) s = .next { s with resDT := some dt', flags := some 0x00, status := some 0x00 }) ∧
      dt' = { dt with dow := dt'.dow, oscEn := dt'.oscEn }

/-- DOW writes the weekday of the table-driven congruence, and leaves RES_B for a month outside 1-12
(R127, R134). -/
def Obligations.DowWritesTheCongruence : Prop :=
  (∀ a dt al, ∃ d, decode ⟨0x12, a, dt, al⟩ = .ok (.dow d) ∧ d.year = dt.year ∧ d.month = dt.month ∧
    d.date = dt.date) ∧
  ∀ (dt : DateTime) (s : State) (Y r : Int),
    Y = (dt.year.toNat : Int) - (if dt.month.toNat < 3 then 1 else 0) →
    r = (Y + Y.fdiv 4 - Y.fdiv 100 + Y.fdiv 400
      + (([0, 3, 2, 5, 0, 3, 5, 1, 4, 6, 2, 4].getD (dt.month.toNat - 1) 0 : Nat) : Int)
      + (dt.date.toNat : Int)).fmod 7 →
    (1 ≤ dt.month.toNat ∧ dt.month.toNat ≤ 12 → exec (.dow dt) s = .next
      { s with resB := some (BitVec.ofNat 8 (if r = 0 then 7 else r.toNat)), flags := some 0x00,
               status := some 0x00 }) ∧
    (¬ (1 ≤ dt.month.toNat ∧ dt.month.toNat ≤ 12) → exec (.dow dt) s = .next
      { s with flags := some 0x00, status := some 0x00 })

/-- The congruence is the Gregorian weekday: Saturday on 2000-01-01, and one weekday on per day
(41_calendar.md section 3 (weekday law)). -/
def Obligations.WeekdayAdvancesByOneEachDay : Prop :=
  dayOfWeek 2000 1 1 = 6 ∧
  ∀ y m d : Nat, gregorianDate y m d = true →
    1 ≤ dayOfWeek y m d ∧ dayOfWeek y m d ≤ 7 ∧
    dayOfWeek (nextDate y m d).1 (nextDate y m d).2.1 (nextDate y m d).2.2 = nextWeekday (dayOfWeek y m d)

/-- SETDT writes the seven BCD bytes of a legal date-time, and refuses any other before the
transport (R151, R152, R154). -/
def Obligations.SetdtValidatesThenWrites : Prop :=
  (∀ a dt al, ∃ d, decode ⟨0x20, a, dt, al⟩ = .ok (.setdt d) ∧ d.year = dt.year ∧ d.month = dt.month ∧
    d.date = dt.date ∧ d.hour = dt.hour ∧ d.min = dt.min ∧ d.sec = dt.sec ∧ d.dow = dt.dow) ∧
  (∀ (dt : DateTime) (s : State) (d : CallDraw) (ds : List CallDraw), legalFields dt → s.draws = d :: ds →
      (d.ok = true → exec (.setdt dt) s =
        .next (ended s [.write 0x00 (clockBytes dt)] ds (setRegs 0x00 (clockBytes dt) (atStart s d)).reg 0x00 0x00)) ∧
      (d.ok = false → exec (.setdt dt) s =
        .next (ended s [.write 0x00 (clockBytes dt)] ds (setRegs 0x00 (d.left.take 7) (atStart s d)).reg 0x00 0x01))) ∧
  ∀ (dt : DateTime) (s : State), ¬ legalFields dt → exec (.setdt dt) s =
    .next { s with flags := some 0x00, status := some 0x02 }

/-- GETDT decodes the seven masked registers, with NBCD and H12, or raises and leaves RES_DT (R150,
R153, R155). -/
def Obligations.GetdtDecodesTheTimeRegisters : Prop :=
  (∀ a dt al, decode ⟨0x21, a, dt, al⟩ = .ok .getdt) ∧
  ∀ (s : State) (d : CallDraw) (ds : List CallDraw), s.draws = d :: ds →
    (d.ok = true → exec .getdt s = .next { ended s [.read 0x00 7] ds (atByte s d 7).reg
        (clockFlags (byteOf s d 0x00 0) (byteOf s d 0x00 1) (byteOf s d 0x00 2) (byteOf s d 0x00 3)
          (byteOf s d 0x00 4) (byteOf s d 0x00 5) (byteOf s d 0x00 6)) 0x00 with
      resDT := some (clockReading (byteOf s d 0x00 0) (byteOf s d 0x00 1) (byteOf s d 0x00 2) (byteOf s d 0x00 3)
        (byteOf s d 0x00 4) (byteOf s d 0x00 5) (byteOf s d 0x00 6)) }) ∧
    (d.ok = false → exec .getdt s = .next (ended s [.read 0x00 7] ds (atStart s d).reg 0x00 0x01))

/-- SETU writes the registers of an in-window time, and refuses a time outside the window before the
transport (R156). -/
def Obligations.SetuConvertsValidatesWrites : Prop :=
  (∀ a dt al, decode ⟨0x22, a, dt, al⟩ = .ok (.setu a)) ∧
  (∀ u : UnixTime, 946684800 ≤ u.toNat → u.toNat ≤ 4102444799 → ∃ dt : DateTime,
    (∀ s, exec (.u2dt u) s = .next { s with resDT := some dt, flags := some 0x00, status := some 0x00 }) ∧
    ∀ (s : State) (d : CallDraw) (ds : List CallDraw), s.draws = d :: ds →
      (d.ok = true → exec (.setu u) s =
        .next (ended s [.write 0x00 (clockBytes dt)] ds (setRegs 0x00 (clockBytes dt) (atStart s d)).reg 0x00 0x00)) ∧
      (d.ok = false → exec (.setu u) s =
        .next (ended s [.write 0x00 (clockBytes dt)] ds (setRegs 0x00 (d.left.take 7) (atStart s d)).reg 0x00 0x01))) ∧
  ∀ (u : UnixTime) (s : State), u.toNat < 946684800 ∨ 4102444799 < u.toNat → exec (.setu u) s =
    .next { s with flags := some 0x00, status := some 0x02 }

/-- GETU decodes the registers to RES_DT and, for a month 1-12, sums them to RES_U
(42_datetime_io.md section 2 (GETU), 42_datetime_io.md section 1 (field masks, decode_time),
41_calendar.md section 1 (to_unix)). Model's choice: log 27. -/
def Obligations.GetuReadsAndSums : Prop :=
  (∀ a dt al, decode ⟨0x23, a, dt, al⟩ = .ok .getu) ∧
  ∀ (s : State) (d : CallDraw) (ds : List CallDraw) (dt : DateTime) (fl : Byte), s.draws = d :: ds →
    dt = clockReading (byteOf s d 0x00 0) (byteOf s d 0x00 1) (byteOf s d 0x00 2) (byteOf s d 0x00 3)
      (byteOf s d 0x00 4) (byteOf s d 0x00 5) (byteOf s d 0x00 6) →
    fl = clockFlags (byteOf s d 0x00 0) (byteOf s d 0x00 1) (byteOf s d 0x00 2) (byteOf s d 0x00 3)
      (byteOf s d 0x00 4) (byteOf s d 0x00 5) (byteOf s d 0x00 6) →
    (d.ok = true → 1 ≤ dt.month.toNat ∧ dt.month.toNat ≤ 12 → exec .getu s = .next
      { ended s [.read 0x00 7] ds (atByte s d 7).reg fl 0x00 with
        resDT := some dt, resU := some (unixSum dt) }) ∧
    (d.ok = true → ¬ (1 ≤ dt.month.toNat ∧ dt.month.toNat ≤ 12) → exec .getu s = .next
      { ended s [.read 0x00 7] ds (atByte s d 7).reg fl 0x00 with resDT := some dt }) ∧
    (d.ok = false → exec .getu s = .next (ended s [.read 0x00 7] ds (atStart s d).reg 0x00 0x01))

/-- GETDT after SETDT returns the date-time set, with osc_en 1 and FLAGS 0 (42_datetime_io.md
section 1 (time bytes and their decoding), 40_bcd_codec.md section 3 (codec laws)). -/
def Obligations.GetdtReturnsWhatSetdtWrote : Prop :=
  ∀ (dt : DateTime) (s : State) (d1 d2 : CallDraw) (ds : List CallDraw), legalFields dt →
    s.draws = d1 :: d2 :: ds → d1.calm = true → d2.calm = true → d1.ok = true → d2.ok = true →
    ∃ t u, exec (.setdt dt) s = .next t ∧ exec .getdt t = .next u ∧
      u.resDT = some { dt with oscEn := 1 } ∧ u.flags = some 0x00 ∧ u.status = some 0x00 ∧ u.reg = t.reg

/-- GETU after SETU returns the time set, for every time of the window (42_datetime_io.md section 2
(SETU and GETU), 41_calendar.md section 3 (round trip inside the window)). -/
def Obligations.GetuReturnsWhatSetuWrote : Prop :=
  ∀ (u : UnixTime) (s : State) (d1 d2 : CallDraw) (ds : List CallDraw), 946684800 ≤ u.toNat →
    u.toNat ≤ 4102444799 → s.draws = d1 :: d2 :: ds → d1.calm = true → d2.calm = true → d1.ok = true →
    d2.ok = true → ∃ s1 s2 s3, exec (.setu u) s = .next s1 ∧ exec .getu s1 = .next s2 ∧
      exec (.u2dt u) s = .next s3 ∧ s2.resU = some u ∧ s2.resDT = s3.resDT ∧ s2.flags = some 0x00 ∧
      s2.status = some 0x00

/-- SETAL1 writes the alarm 1 block, then A1IE and INTCN = 1, with RANGE for lost bits and no
rollback (R181, R183, R185). -/
def Obligations.Setal1WritesBlockThenControl : Prop :=
  (∀ a dt al, al.mode.toNat ≤ 4 → decode ⟨0x28, a, dt, al⟩ = .ok (.setal1 al)) ∧
  (∀ (al : AlarmRecord) (s : State), 4 < al.mode.toNat → exec (.setal1 al) s =
    .next { s with flags := some 0x00, status := some 0x03 }) ∧
  ∀ (al : AlarmRecord) (s s1 s2 : State) (new : Byte) (d1 d2 d3 : CallDraw) (ds : List CallDraw),
    al.mode.toNat ≤ 4 → s.draws = d1 :: d2 :: d3 :: ds →
    s1 = setRegs 0x07 (alarm1Block al) (atStart s d1) → s2 = atByte s1 d2 1 →
    new = (byteOf s1 d2 0x0E 0 &&& ~~~(0x05 : Byte)) ||| 0x04 ||| al.ie.setWidth 8 →
    (d1.ok = true → d2.ok = true → d3.ok = true → exec (.setal1 al) s = .next (ended s
      [.write 0x07 (alarm1Block al), .read 0x0E 1, .write 0x0E [new]] ds
      (setReg 0x0E new (atStart s2 d3)).reg (alarm1Range al) 0x00)) ∧
    (d1.ok = false → exec (.setal1 al) s = .next (ended s [.write 0x07 (alarm1Block al)] (d2 :: d3 :: ds)
      (setRegs 0x07 (d1.left.take 4) (atStart s d1)).reg 0x00 0x01)) ∧
    (d1.ok = true → d2.ok = false → exec (.setal1 al) s = .next (ended s
      [.write 0x07 (alarm1Block al), .read 0x0E 1] (d3 :: ds) (atStart s1 d2).reg 0x00 0x01)) ∧
    (d1.ok = true → d2.ok = true → d3.ok = false → exec (.setal1 al) s = .next (ended s
      [.write 0x07 (alarm1Block al), .read 0x0E 1, .write 0x0E [new]] ds
      (setRegs 0x0E (d3.left.take 1) (atStart s2 d3)).reg 0x00 0x01))

/-- GETAL1 decodes the alarm 1 block and A1IE, with NBCD, H12 and ILLOG, or raises and leaves RES_AL
(R184, R186). -/
def Obligations.Getal1DecodesBlockAndEnable : Prop :=
  (∀ a dt al, decode ⟨0x29, a, dt, al⟩ = .ok .getal1) ∧
  ∀ (s s1 : State) (d1 d2 : CallDraw) (ds : List CallDraw), s.draws = d1 :: d2 :: ds → s1 = atByte s d1 4 →
    (d1.ok = true → d2.ok = true → exec .getal1 s = .next
      { ended s [.read 0x07 4, .read 0x0E 1] ds (atByte s1 d2 1).reg
          (alarm1ReadFlags (byteOf s d1 0x07 0) (byteOf s d1 0x07 1) (byteOf s d1 0x07 2) (byteOf s d1 0x07 3)) 0x00 with
        resAL := some (alarm1Reading (byteOf s d1 0x07 0) (byteOf s d1 0x07 1) (byteOf s d1 0x07 2) (byteOf s d1 0x07 3)
          (byteOf s1 d2 0x0E 0)) }) ∧
    (d1.ok = false → exec .getal1 s = .next
      (ended s [.read 0x07 4] (d2 :: ds) (atStart s d1).reg 0x00 0x01)) ∧
    (d1.ok = true → d2.ok = false → exec .getal1 s = .next
      (ended s [.read 0x07 4, .read 0x0E 1] ds (atStart s1 d2).reg 0x00 0x01))

/-- SETAL2 writes the alarm 2 block, then A2IE and INTCN = 1, with RANGE for lost bits and no
rollback (R182, R187). -/
def Obligations.Setal2WritesBlockThenControl : Prop :=
  (∀ a dt al, al.mode.toNat ≤ 3 → ∃ r, decode ⟨0x2A, a, dt, al⟩ = .ok (.setal2 r) ∧ r.min = al.min ∧
    r.hour = al.hour ∧ r.dd = al.dd ∧ r.dydt = al.dydt ∧ r.mode = al.mode ∧ r.ie = al.ie) ∧
  (∀ (al : AlarmRecord) (s : State), 3 < al.mode.toNat → exec (.setal2 al) s =
    .next { s with flags := some 0x00, status := some 0x03 }) ∧
  ∀ (al : AlarmRecord) (s s1 s2 : State) (new : Byte) (d1 d2 d3 : CallDraw) (ds : List CallDraw),
    al.mode.toNat ≤ 3 → s.draws = d1 :: d2 :: d3 :: ds →
    s1 = setRegs 0x0B (alarm2Block al) (atStart s d1) → s2 = atByte s1 d2 1 →
    new = (byteOf s1 d2 0x0E 0 &&& ~~~(0x06 : Byte)) ||| 0x04 ||| al.ie.setWidth 8 <<< 1 →
    (d1.ok = true → d2.ok = true → d3.ok = true → exec (.setal2 al) s = .next (ended s
      [.write 0x0B (alarm2Block al), .read 0x0E 1, .write 0x0E [new]] ds
      (setReg 0x0E new (atStart s2 d3)).reg (alarm2Range al) 0x00)) ∧
    (d1.ok = false → exec (.setal2 al) s = .next (ended s [.write 0x0B (alarm2Block al)] (d2 :: d3 :: ds)
      (setRegs 0x0B (d1.left.take 3) (atStart s d1)).reg 0x00 0x01)) ∧
    (d1.ok = true → d2.ok = false → exec (.setal2 al) s = .next (ended s
      [.write 0x0B (alarm2Block al), .read 0x0E 1] (d3 :: ds) (atStart s1 d2).reg 0x00 0x01)) ∧
    (d1.ok = true → d2.ok = true → d3.ok = false → exec (.setal2 al) s = .next (ended s
      [.write 0x0B (alarm2Block al), .read 0x0E 1, .write 0x0E [new]] ds
      (setRegs 0x0E (d3.left.take 1) (atStart s2 d3)).reg 0x00 0x01))

/-- GETAL2 decodes the alarm 2 block and A2IE with sec 0, with NBCD, H12 and ILLOG, or raises and
leaves RES_AL (R188). -/
def Obligations.Getal2DecodesBlockAndEnable : Prop :=
  (∀ a dt al, decode ⟨0x2B, a, dt, al⟩ = .ok .getal2) ∧
  ∀ (s s1 : State) (d1 d2 : CallDraw) (ds : List CallDraw), s.draws = d1 :: d2 :: ds → s1 = atByte s d1 3 →
    (d1.ok = true → d2.ok = true → exec .getal2 s = .next
      { ended s [.read 0x0B 3, .read 0x0E 1] ds (atByte s1 d2 1).reg
          (alarm2ReadFlags (byteOf s d1 0x0B 0) (byteOf s d1 0x0B 1) (byteOf s d1 0x0B 2)) 0x00 with
        resAL := some (alarm2Reading (byteOf s d1 0x0B 0) (byteOf s d1 0x0B 1) (byteOf s d1 0x0B 2)
          (byteOf s1 d2 0x0E 0)) }) ∧
    (d1.ok = false → exec .getal2 s = .next
      (ended s [.read 0x0B 3] (d2 :: ds) (atStart s d1).reg 0x00 0x01)) ∧
    (d1.ok = true → d2.ok = false → exec .getal2 s = .next
      (ended s [.read 0x0B 3, .read 0x0E 1] ds (atStart s1 d2).reg 0x00 0x01))

/-- A record that SETAL1 stores without RANGE is what GETAL1 returns (43_alarms.md section 3 (alarm
round trip, items 1 and 2)). -/
def Obligations.Alarm1RoundTripWithoutLoss : Prop :=
  ∀ (al : AlarmRecord) (s t : State) (d1 d2 d3 d4 d5 : CallDraw) (ds : List CallDraw),
    s.draws = d1 :: d2 :: d3 :: d4 :: d5 :: ds → calmFor 5 s = true → d4.ok = true → d5.ok = true →
    exec (.setal1 al) s = .next t → t.status = some 0x00 → t.flags = some 0x00 →
    ∃ u, exec .getal1 t = .next u ∧ u.resAL = some al ∧ u.flags = some 0x00 ∧ u.status = some 0x00

/-- A record that SETAL2 stores without RANGE is what GETAL2 returns, with sec 0 (43_alarms.md
section 3 (alarm round trip, item 3)). -/
def Obligations.Alarm2RoundTripWithoutLoss : Prop :=
  ∀ (al : AlarmRecord) (s t : State) (d1 d2 d3 d4 d5 : CallDraw) (ds : List CallDraw),
    s.draws = d1 :: d2 :: d3 :: d4 :: d5 :: ds → calmFor 5 s = true → d4.ok = true → d5.ok = true →
    exec (.setal2 al) s = .next t → t.status = some 0x00 → t.flags = some 0x00 →
    ∃ u, exec .getal2 t = .next u ∧ u.resAL = some { al with sec := 0 } ∧ u.flags = some 0x00 ∧
      u.status = some 0x00

/-- SETEOSC, SETBBSQW, SETRS, SETINTCN, SETA1IE and SETA2IE clear exactly their bits of 0x0E and
write the new ones (R203, R204, R205, R206, R207, R208). -/
def Obligations.ControlSettersReadModifyWrite : Prop :=
  ∀ (a : BitVec 32) (op : Byte) (i : Instr) (m v : Byte), (op, i, m, v) ∈ ([
      (0x30, .seteosc (a.extractLsb' 0 1), 0x80, (a.extractLsb' 0 1).setWidth 8 <<< 7),
      (0x31, .setbbsqw (a.extractLsb' 0 1), 0x40, (a.extractLsb' 0 1).setWidth 8 <<< 6),
      (0x32, .setrs (a.extractLsb' 0 2), 0x1C, (a.extractLsb' 0 2).setWidth 8 <<< 3 ||| 0x04),
      (0x33, .setintcn (a.extractLsb' 0 1), 0x04, (a.extractLsb' 0 1).setWidth 8 <<< 2),
      (0x34, .seta1ie (a.extractLsb' 0 1), 0x05, (a.extractLsb' 0 1).setWidth 8 ||| 0x04),
      (0x35, .seta2ie (a.extractLsb' 0 1), 0x06, (a.extractLsb' 0 1).setWidth 8 <<< 1 ||| 0x04)] : List (Byte × Instr × Byte × Byte)) →
    (∀ dt al, decode ⟨op, a, dt, al⟩ = .ok i) ∧
    ∀ (s s1 : State) (new : Byte) (d1 d2 : CallDraw) (ds : List CallDraw), s.draws = d1 :: d2 :: ds →
      s1 = atByte s d1 1 → new = (byteOf s d1 0x0E 0 &&& ~~~m) ||| v →
      (d1.ok = true → d2.ok = true → exec i s = .next (ended s [.read 0x0E 1, .write 0x0E [new]] ds
        (setReg 0x0E new (atStart s1 d2)).reg 0x00 0x00)) ∧
      (d1.ok = false → exec i s = .next (ended s [.read 0x0E 1] (d2 :: ds) (atStart s d1).reg 0x00 0x01)) ∧
      (d1.ok = true → d2.ok = false → exec i s = .next (ended s [.read 0x0E 1, .write 0x0E [new]] ds
        (setRegs 0x0E (d2.left.take 1) (atStart s1 d2)).reg 0x00 0x01))

/-- SETEN32K, CLRA1F, CLRA2F and CLROSF clear exactly their bit of 0x0F and write the new one (R209,
R210, R211, R212). -/
def Obligations.StatusSettersReadModifyWrite : Prop :=
  ∀ (a : BitVec 32) (op : Byte) (i : Instr) (m v : Byte), (op, i, m, v) ∈ ([
      (0x36, .seten32k (a.extractLsb' 0 1), 0x08, (a.extractLsb' 0 1).setWidth 8 <<< 3),
      (0x37, .clra1f, 0x01, 0x00),
      (0x38, .clra2f, 0x02, 0x00),
      (0x39, .clrosf, 0x80, 0x00)] : List (Byte × Instr × Byte × Byte)) →
    (∀ dt al, decode ⟨op, a, dt, al⟩ = .ok i) ∧
    ∀ (s s1 : State) (new : Byte) (d1 d2 : CallDraw) (ds : List CallDraw), s.draws = d1 :: d2 :: ds →
      s1 = atByte s d1 1 → new = (byteOf s d1 0x0F 0 &&& ~~~m) ||| v →
      (d1.ok = true → d2.ok = true → exec i s = .next (ended s [.read 0x0F 1, .write 0x0F [new]] ds
        (setReg 0x0F new (atStart s1 d2)).reg 0x00 0x00)) ∧
      (d1.ok = false → exec i s = .next (ended s [.read 0x0F 1] (d2 :: ds) (atStart s d1).reg 0x00 0x01)) ∧
      (d1.ok = true → d2.ok = false → exec i s = .next (ended s [.read 0x0F 1, .write 0x0F [new]] ds
        (setRegs 0x0F (d2.left.take 1) (atStart s1 d2)).reg 0x00 0x01))

/-- GETEOSC, GETBBSQW, GETRS, GETINTCN, GETA1IE and GETA2IE read 0x0E once and extract their bits
(R213, R215, R216, R217, R218, R219, R220). -/
def Obligations.ControlGettersExtractTheirField : Prop :=
  ∀ (op : Byte) (i : Instr) (hi lo : Nat), (op, i, hi, lo) ∈ ([
      (0x40, .geteosc, 7, 7), (0x41, .getbbsqw, 6, 6), (0x42, .getrs, 4, 3), (0x43, .getintcn, 2, 2),
      (0x44, .geta1ie, 0, 0), (0x45, .geta2ie, 1, 1)] : List (Byte × Instr × Nat × Nat)) →
    (∀ a dt al, decode ⟨op, a, dt, al⟩ = .ok i) ∧
    ∀ (s : State) (d : CallDraw) (ds : List CallDraw), s.draws = d :: ds →
      (d.ok = true → exec i s = .next { ended s [.read 0x0E 1] ds (atByte s d 1).reg 0x00 0x00 with
        resB := some (BitVec.ofNat 8 ((byteOf s d 0x0E 0).toNat / 2 ^ lo % 2 ^ (hi + 1 - lo))) }) ∧
      (d.ok = false → exec i s = .next (ended s [.read 0x0E 1] ds (atStart s d).reg 0x00 0x01))

/-- GETEN32K, GETA1F, GETA2F, GETOSF and GETBSY read 0x0F once and extract their bit (R213, R221,
R222, R223, R224, R225). -/
def Obligations.StatusGettersExtractTheirField : Prop :=
  (∃ s0 s1 s2 : State, exec .getbsy s0 = .next s1 ∧ exec .getbsy s1 = .next s2 ∧ s1.resB = some 0 ∧
    s2.resB = some 1) ∧
  ∀ (op : Byte) (i : Instr) (hi lo : Nat), (op, i, hi, lo) ∈ ([
      (0x46, .geten32k, 3, 3), (0x47, .geta1f, 0, 0), (0x48, .geta2f, 1, 1), (0x49, .getosf, 7, 7),
      (0x4A, .getbsy, 2, 2)] : List (Byte × Instr × Nat × Nat)) →
    (∀ a dt al, decode ⟨op, a, dt, al⟩ = .ok i) ∧
    ∀ (s : State) (d : CallDraw) (ds : List CallDraw), s.draws = d :: ds →
      (d.ok = true → exec i s = .next { ended s [.read 0x0F 1] ds (atByte s d 1).reg 0x00 0x00 with
        resB := some (BitVec.ofNat 8 ((byteOf s d 0x0F 0).toNat / 2 ^ lo % 2 ^ (hi + 1 - lo))) }) ∧
      (d.ok = false → exec i s = .next (ended s [.read 0x0F 1] ds (atStart s d).reg 0x00 0x01))

/-- A setter keeps every bit it does not own, for every initial byte, and its getter then returns
the value written (44_control_status.md section 4 (bit preservation)). -/
def Obligations.SetThenGetPreservesOtherBits : Prop :=
  ∀ (v : Bit) (rs : BitVec 2) (i g : Instr) (x : Byte), (i, g, x) ∈ ([
      (.seteosc v, .geteosc, v.setWidth 8), (.setbbsqw v, .getbbsqw, v.setWidth 8),
      (.setrs rs, .getrs, rs.setWidth 8), (.setintcn v, .getintcn, v.setWidth 8),
      (.seta1ie v, .geta1ie, v.setWidth 8), (.seta2ie v, .geta2ie, v.setWidth 8),
      (.seten32k v, .geten32k, v.setWidth 8), (.clra1f, .geta1f, 0), (.clra2f, .geta2f, 0),
      (.clrosf, .getosf, 0)] : List (Instr × Instr × Byte)) →
    ∀ (r : Addr) (m b : Byte) (s : State) (d1 d2 d3 : CallDraw) (ds : List CallDraw),
      setterRow i = some (r, m, b) → s.draws = d1 :: d2 :: d3 :: ds → calmFor 3 s = true →
      d1.ok = true → d2.ok = true → d3.ok = true →
      ∃ t u, exec i s = .next t ∧ exec g t = .next u ∧ (regByte t r &&& ~~~m) = (regByte s r &&& ~~~m) ∧
        (regByte t r &&& m) = b ∧ (∀ a, a ≠ r → regByte t a = regByte s a) ∧ u.resB = some x ∧
        u.status = some 0x00
end

