-- ==== Sys2Proof/Laws/State.lean ====
section
/-! SUPPORT. One lemma per field per named update of the state, each true by unfolding. -/

namespace Sys2Proof.Machine

open Sys2Proof

/-! ### complete -/

@[simp] theorem complete_resU (fl : Byte) (s : State) : (complete fl s).resU = s.resU := rfl

@[simp] theorem complete_resB (fl : Byte) (s : State) : (complete fl s).resB = s.resB := rfl

@[simp] theorem complete_resDT (fl : Byte) (s : State) : (complete fl s).resDT = s.resDT := rfl

@[simp] theorem complete_resAL (fl : Byte) (s : State) : (complete fl s).resAL = s.resAL := rfl

@[simp] theorem complete_flags (fl : Byte) (s : State) : (complete fl s).flags = some fl := rfl

@[simp] theorem complete_status (fl : Byte) (s : State) : (complete fl s).status = some 0x00 := rfl

@[simp] theorem complete_reg (fl : Byte) (s : State) : (complete fl s).reg = s.reg := rfl

@[simp] theorem complete_agenda (fl : Byte) (s : State) : (complete fl s).agenda = s.agenda := rfl

@[simp] theorem complete_draws (fl : Byte) (s : State) : (complete fl s).draws = s.draws := rfl

@[simp] theorem complete_made (fl : Byte) (s : State) : (complete fl s).made = s.made := rfl

@[simp] theorem complete_params (fl : Byte) (s : State) : (complete fl s).params = s.params := rfl

@[simp] theorem complete_resets (fl : Byte) (s : State) : (complete fl s).resets = s.resets := rfl

@[simp] theorem complete_faultyReads (fl : Byte) (s : State) : (complete fl s).faultyReads = s.faultyReads := rfl

/-! ### raise -/

@[simp] theorem raise_resU (e : CommandError) (s : State) : (raise e s).resU = s.resU := rfl

@[simp] theorem raise_resB (e : CommandError) (s : State) : (raise e s).resB = s.resB := rfl

@[simp] theorem raise_resDT (e : CommandError) (s : State) : (raise e s).resDT = s.resDT := rfl

@[simp] theorem raise_resAL (e : CommandError) (s : State) : (raise e s).resAL = s.resAL := rfl

@[simp] theorem raise_flags (e : CommandError) (s : State) : (raise e s).flags = some 0x00 := rfl

@[simp] theorem raise_status (e : CommandError) (s : State) : (raise e s).status = some (errorCode e) := rfl

@[simp] theorem raise_reg (e : CommandError) (s : State) : (raise e s).reg = s.reg := rfl

@[simp] theorem raise_agenda (e : CommandError) (s : State) : (raise e s).agenda = s.agenda := rfl

@[simp] theorem raise_draws (e : CommandError) (s : State) : (raise e s).draws = s.draws := rfl

@[simp] theorem raise_made (e : CommandError) (s : State) : (raise e s).made = s.made := rfl

@[simp] theorem raise_params (e : CommandError) (s : State) : (raise e s).params = s.params := rfl

@[simp] theorem raise_resets (e : CommandError) (s : State) : (raise e s).resets = s.resets := rfl

@[simp] theorem raise_faultyReads (e : CommandError) (s : State) : (raise e s).faultyReads = s.faultyReads := rfl

/-! ### setReg -/

@[simp] theorem setReg_resU (a : Addr) (b : Byte) (s : State) : (setReg a b s).resU = s.resU := rfl

@[simp] theorem setReg_resB (a : Addr) (b : Byte) (s : State) : (setReg a b s).resB = s.resB := rfl

@[simp] theorem setReg_resDT (a : Addr) (b : Byte) (s : State) : (setReg a b s).resDT = s.resDT := rfl

@[simp] theorem setReg_resAL (a : Addr) (b : Byte) (s : State) : (setReg a b s).resAL = s.resAL := rfl

@[simp] theorem setReg_flags (a : Addr) (b : Byte) (s : State) : (setReg a b s).flags = s.flags := rfl

@[simp] theorem setReg_status (a : Addr) (b : Byte) (s : State) : (setReg a b s).status = s.status := rfl

@[simp] theorem setReg_reg (a : Addr) (b : Byte) (s : State) : (setReg a b s).reg = Memory.write s.reg a.toNat b := rfl

@[simp] theorem setReg_agenda (a : Addr) (b : Byte) (s : State) : (setReg a b s).agenda = s.agenda := rfl

@[simp] theorem setReg_draws (a : Addr) (b : Byte) (s : State) : (setReg a b s).draws = s.draws := rfl

@[simp] theorem setReg_made (a : Addr) (b : Byte) (s : State) : (setReg a b s).made = s.made := rfl

@[simp] theorem setReg_params (a : Addr) (b : Byte) (s : State) : (setReg a b s).params = s.params := rfl

@[simp] theorem setReg_resets (a : Addr) (b : Byte) (s : State) : (setReg a b s).resets = s.resets := rfl

@[simp] theorem setReg_faultyReads (a : Addr) (b : Byte) (s : State) : (setReg a b s).faultyReads = s.faultyReads := rfl

/-! ### chipStep -/

@[simp] theorem chipStep_resU (c : ChipStep) (s : State) : (chipStep c s).resU = s.resU := rfl

@[simp] theorem chipStep_resB (c : ChipStep) (s : State) : (chipStep c s).resB = s.resB := rfl

@[simp] theorem chipStep_resDT (c : ChipStep) (s : State) : (chipStep c s).resDT = s.resDT := rfl

@[simp] theorem chipStep_resAL (c : ChipStep) (s : State) : (chipStep c s).resAL = s.resAL := rfl

@[simp] theorem chipStep_flags (c : ChipStep) (s : State) : (chipStep c s).flags = s.flags := rfl

@[simp] theorem chipStep_status (c : ChipStep) (s : State) : (chipStep c s).status = s.status := rfl

@[simp] theorem chipStep_reg (c : ChipStep) (s : State) : (chipStep c s).reg = Memory.write s.reg c.addr.toNat (chipByte (volatileRow s.params c.addr) (regByte s c.addr) c.drive) := rfl

@[simp] theorem chipStep_agenda (c : ChipStep) (s : State) : (chipStep c s).agenda = s.agenda := rfl

@[simp] theorem chipStep_draws (c : ChipStep) (s : State) : (chipStep c s).draws = s.draws := rfl

@[simp] theorem chipStep_made (c : ChipStep) (s : State) : (chipStep c s).made = s.made := rfl

@[simp] theorem chipStep_params (c : ChipStep) (s : State) : (chipStep c s).params = s.params := rfl

@[simp] theorem chipStep_resets (c : ChipStep) (s : State) : (chipStep c s).resets = s.resets := rfl

@[simp] theorem chipStep_faultyReads (c : ChipStep) (s : State) : (chipStep c s).faultyReads = s.faultyReads := rfl

/-! ### hostReset -/

@[simp] theorem hostReset_resU (s : State) : (hostReset s).resU = none := rfl

@[simp] theorem hostReset_resB (s : State) : (hostReset s).resB = none := rfl

@[simp] theorem hostReset_resDT (s : State) : (hostReset s).resDT = none := rfl

@[simp] theorem hostReset_resAL (s : State) : (hostReset s).resAL = none := rfl

@[simp] theorem hostReset_flags (s : State) : (hostReset s).flags = none := rfl

@[simp] theorem hostReset_status (s : State) : (hostReset s).status = none := rfl

@[simp] theorem hostReset_reg (s : State) : (hostReset s).reg = s.reg := rfl

@[simp] theorem hostReset_agenda (s : State) : (hostReset s).agenda = s.agenda := rfl

@[simp] theorem hostReset_draws (s : State) : (hostReset s).draws = s.draws := rfl

@[simp] theorem hostReset_made (s : State) : (hostReset s).made = s.made := rfl

@[simp] theorem hostReset_params (s : State) : (hostReset s).params = s.params := rfl

@[simp] theorem hostReset_resets (s : State) : (hostReset s).resets = s.resets + 1 := rfl

@[simp] theorem hostReset_faultyReads (s : State) : (hostReset s).faultyReads = s.faultyReads := rfl

/-! ### noteRead -/

/-- Everything a host read can do to the state. -/
theorem noteRead_eq (r : ResultReg) (s : State) : noteRead r s =
    { s with faultyReads := if isWritten r s then s.faultyReads else s.faultyReads ++ [r] } := by
  unfold noteRead; split <;> rfl

@[simp] theorem noteRead_resU (r : ResultReg) (s : State) : (noteRead r s).resU = s.resU := by rw [noteRead_eq]

@[simp] theorem noteRead_resB (r : ResultReg) (s : State) : (noteRead r s).resB = s.resB := by rw [noteRead_eq]

@[simp] theorem noteRead_resDT (r : ResultReg) (s : State) : (noteRead r s).resDT = s.resDT := by rw [noteRead_eq]

@[simp] theorem noteRead_resAL (r : ResultReg) (s : State) : (noteRead r s).resAL = s.resAL := by rw [noteRead_eq]

@[simp] theorem noteRead_flags (r : ResultReg) (s : State) : (noteRead r s).flags = s.flags := by rw [noteRead_eq]

@[simp] theorem noteRead_status (r : ResultReg) (s : State) : (noteRead r s).status = s.status := by rw [noteRead_eq]

@[simp] theorem noteRead_reg (r : ResultReg) (s : State) : (noteRead r s).reg = s.reg := by rw [noteRead_eq]

@[simp] theorem noteRead_agenda (r : ResultReg) (s : State) : (noteRead r s).agenda = s.agenda := by rw [noteRead_eq]

@[simp] theorem noteRead_draws (r : ResultReg) (s : State) : (noteRead r s).draws = s.draws := by rw [noteRead_eq]

@[simp] theorem noteRead_made (r : ResultReg) (s : State) : (noteRead r s).made = s.made := by rw [noteRead_eq]

@[simp] theorem noteRead_params (r : ResultReg) (s : State) : (noteRead r s).params = s.params := by rw [noteRead_eq]

@[simp] theorem noteRead_resets (r : ResultReg) (s : State) : (noteRead r s).resets = s.resets := by rw [noteRead_eq]

/-! ### presentNext -/

@[simp] theorem presentNext_resU (n w : Nat) (s : State) : (presentNext n w s).resU = s.resU := rfl

@[simp] theorem presentNext_resB (n w : Nat) (s : State) : (presentNext n w s).resB = s.resB := rfl

@[simp] theorem presentNext_resDT (n w : Nat) (s : State) : (presentNext n w s).resDT = s.resDT := rfl

@[simp] theorem presentNext_resAL (n w : Nat) (s : State) : (presentNext n w s).resAL = s.resAL := rfl

@[simp] theorem presentNext_flags (n w : Nat) (s : State) : (presentNext n w s).flags = s.flags := rfl

@[simp] theorem presentNext_status (n w : Nat) (s : State) : (presentNext n w s).status = s.status := rfl

@[simp] theorem presentNext_reg (n w : Nat) (s : State) : (presentNext n w s).reg = s.reg := rfl

@[simp] theorem presentNext_agenda (n w : Nat) (s : State) : (presentNext n w s).agenda = .issue (tableCommand n w) :: s.agenda := rfl

@[simp] theorem presentNext_draws (n w : Nat) (s : State) : (presentNext n w s).draws = s.draws := rfl

@[simp] theorem presentNext_made (n w : Nat) (s : State) : (presentNext n w s).made = s.made := rfl

@[simp] theorem presentNext_params (n w : Nat) (s : State) : (presentNext n w s).params = s.params := rfl

@[simp] theorem presentNext_resets (n w : Nat) (s : State) : (presentNext n w s).resets = s.resets := rfl

@[simp] theorem presentNext_faultyReads (n w : Nat) (s : State) : (presentNext n w s).faultyReads = s.faultyReads := rfl

/-! ### The state after reset -/

@[simp] theorem reset_resU : State.reset.resU = none := rfl

@[simp] theorem reset_resB : State.reset.resB = none := rfl

@[simp] theorem reset_resDT : State.reset.resDT = none := rfl

@[simp] theorem reset_resAL : State.reset.resAL = none := rfl

@[simp] theorem reset_flags : State.reset.flags = none := rfl

@[simp] theorem reset_status : State.reset.status = none := rfl

@[simp] theorem reset_reg : State.reset.reg = [] := rfl

@[simp] theorem reset_agenda : State.reset.agenda = [] := rfl

@[simp] theorem reset_draws : State.reset.draws = [] := rfl

@[simp] theorem reset_made : State.reset.made = [] := rfl

@[simp] theorem reset_params : State.reset.params = defaultParams := rfl

@[simp] theorem reset_resets : State.reset.resets = 0 := rfl

@[simp] theorem reset_faultyReads : State.reset.faultyReads = [] := rfl

end Sys2Proof.Machine
end

