-- ==== Sys2Proof/Laws/Memory.lean ====
section
/-! SUPPORT. The register file: a read after a write, and the canonical form kept by every operation
that writes it. -/

namespace Sys2Proof.Machine

open Sys2Proof

theorem Memory.read_write_same (m : Memory) (a : Nat) (b : Byte) :
    Memory.read (Memory.write m a b) a = some b := by
  induction m with
  | nil => simp [Memory.write, Memory.read]
  | cons c m ih =>
    obtain ⟨k, v⟩ := c
    unfold Memory.write
    split
    · simp [Memory.read]
    · split
      · simp [Memory.read]
      · have hk : k ≠ a := by omega
        simp [Memory.read, hk, ih]

theorem Memory.read_write_other (m : Memory) {a a' : Nat} (b : Byte) (h : a' ≠ a) :
    Memory.read (Memory.write m a b) a' = Memory.read m a' := by
  induction m with
  | nil => simp [Memory.write, Memory.read, Ne.symm h]
  | cons c m ih =>
    obtain ⟨k, v⟩ := c
    unfold Memory.write
    split
    · simp [Memory.read, Ne.symm h]
    · split
      · rename_i h1; subst h1; simp [Memory.read, Ne.symm h]
      · by_cases hk : k = a' <;> simp [Memory.read, hk, ih]

theorem Memory.wfFrom_mono {lo lo' : Nat} (h : lo' ≤ lo) {m : Memory} (hm : Memory.wfFrom lo m = true) :
    Memory.wfFrom lo' m = true := by
  cases m with
  | nil => rfl
  | cons c m =>
    obtain ⟨k, v⟩ := c
    simp only [Memory.wfFrom, Bool.and_eq_true, decide_eq_true_eq] at hm ⊢
    exact ⟨⟨by omega, hm.1.2⟩, hm.2⟩

theorem Memory.wfFrom_write {lo a : Nat} (b : Byte) (hlo : lo ≤ a) (ha : a < 256) {m : Memory}
    (hm : Memory.wfFrom lo m = true) : Memory.wfFrom lo (Memory.write m a b) = true := by
  induction m generalizing lo with
  | nil => simp [Memory.write, Memory.wfFrom, hlo, ha]
  | cons c m ih =>
    obtain ⟨k, v⟩ := c
    simp only [Memory.wfFrom, Bool.and_eq_true, decide_eq_true_eq] at hm
    unfold Memory.write
    split
    · simp only [Memory.wfFrom, Bool.and_eq_true, decide_eq_true_eq]
      exact ⟨⟨hlo, ha⟩, ⟨by omega, hm.1.2⟩, hm.2⟩
    · split
      · rename_i h1 h2
        subst h2
        simp only [Memory.wfFrom, Bool.and_eq_true, decide_eq_true_eq]
        exact ⟨⟨hlo, ha⟩, hm.2⟩
      · simp only [Memory.wfFrom, Bool.and_eq_true, decide_eq_true_eq]
        exact ⟨hm.1, ih (by omega) hm.2⟩

/-- Writing a register keeps the canonical form. -/
theorem Memory.wf_write {m : Memory} (a : Addr) (b : Byte) (hm : Memory.wf m = true) :
    Memory.wf (Memory.write m a.toNat b) = true :=
  Memory.wfFrom_write b (Nat.zero_le _) a.isLt hm

/-- Nothing is listed after reset, so the canonical form holds. -/
theorem reset_reg_wf : Memory.wf State.reset.reg = true := rfl

/-! ### Registers -/

@[simp] theorem regByte_setReg_same (a : Addr) (b : Byte) (s : State) : regByte (setReg a b s) a = b := by
  simp [regByte, Memory.read_write_same]

theorem regByte_setReg_other {a a' : Addr} (b : Byte) (s : State) (h : a' ≠ a) :
    regByte (setReg a b s) a' = regByte s a' := by
  have h' : a'.toNat ≠ a.toNat := fun e => h (BitVec.eq_of_toNat_eq e)
  simp [regByte, Memory.read_write_other _ _ h']

/-- A register's byte depends on the register file alone. -/
theorem regByte_congr {s t : State} (h : s.reg = t.reg) (a : Addr) : regByte s a = regByte t a := by
  simp [regByte, h]

theorem setReg_wf {s : State} (a : Addr) (b : Byte) (h : Memory.wf s.reg = true) :
    Memory.wf (setReg a b s).reg = true := Memory.wf_write a b h

theorem chipStep_wf {s : State} (c : ChipStep) (h : Memory.wf s.reg = true) :
    Memory.wf (chipStep c s).reg = true := Memory.wf_write c.addr _ h

theorem setRegs_wf (bs : List Byte) : ∀ (a : Addr) (s : State), Memory.wf s.reg = true →
    Memory.wf (setRegs a bs s).reg = true := by
  induction bs with
  | nil => exact fun _ _ h => h
  | cons b bs ih => exact fun a s h => ih _ _ (setReg_wf a b h)

theorem chipSteps_wf (cs : List ChipStep) : ∀ s : State, Memory.wf s.reg = true →
    Memory.wf (chipSteps cs s).reg = true := by
  induction cs with
  | nil => exact fun _ h => h
  | cons c cs ih => exact fun s h => ih _ (chipStep_wf c h)

end Sys2Proof.Machine
end

