-- ==== Sys2Proof/Laws/Ops.lean ====
section
/-! SUPPORT. What each shared operation can do, said once: the transport primitives, the two ways a
read or a write can go on, and the read-modify-write. -/

namespace Sys2Proof.Machine

open Sys2Proof

/-- Two states that differ at most in the register file, the draws used up and the calls made. -/
def SameResults (s t : State) : Prop :=
  t.resU = s.resU ∧ t.resB = s.resB ∧ t.resDT = s.resDT ∧ t.resAL = s.resAL ∧ t.flags = s.flags ∧
    t.status = s.status ∧ t.agenda = s.agenda ∧ t.params = s.params ∧ t.resets = s.resets ∧
    t.faultyReads = s.faultyReads

theorem SameResults.refl (s : State) : SameResults s s := ⟨rfl, rfl, rfl, rfl, rfl, rfl, rfl, rfl, rfl, rfl⟩

theorem SameResults.trans {s t u : State} (h : SameResults s t) (k : SameResults t u) : SameResults s u := by
  unfold SameResults at *; simp_all

/-! ### Chip steps and stores change the register file alone -/

theorem chipSteps_frame (cs : List ChipStep) : ∀ s : State, ∃ m, chipSteps cs s = { s with reg := m } := by
  induction cs with
  | nil => exact fun s => ⟨s.reg, rfl⟩
  | cons c cs ih =>
    intro s
    obtain ⟨m, hm⟩ := ih (chipStep c s)
    exact ⟨m, hm⟩

theorem setRegs_frame (bs : List Byte) : ∀ (a : Addr) (s : State), ∃ m, setRegs a bs s = { s with reg := m } := by
  induction bs with
  | nil => exact fun _ s => ⟨s.reg, rfl⟩
  | cons b bs ih =>
    intro a s
    obtain ⟨m, hm⟩ := ih (a + 1) (setReg a b s)
    exact ⟨m, hm⟩

theorem chipSteps_sameResults (cs : List ChipStep) (s : State) : SameResults s (chipSteps cs s) := by
  obtain ⟨m, hm⟩ := chipSteps_frame cs s
  rw [hm]; exact ⟨rfl, rfl, rfl, rfl, rfl, rfl, rfl, rfl, rfl, rfl⟩

theorem setRegs_sameResults (a : Addr) (bs : List Byte) (s : State) : SameResults s (setRegs a bs s) := by
  obtain ⟨m, hm⟩ := setRegs_frame bs a s
  rw [hm]; exact ⟨rfl, rfl, rfl, rfl, rfl, rfl, rfl, rfl, rfl, rfl⟩

@[simp] theorem chipSteps_made (cs : List ChipStep) (s : State) : (chipSteps cs s).made = s.made := by
  obtain ⟨m, hm⟩ := chipSteps_frame cs s; rw [hm]

@[simp] theorem chipSteps_draws (cs : List ChipStep) (s : State) : (chipSteps cs s).draws = s.draws := by
  obtain ⟨m, hm⟩ := chipSteps_frame cs s; rw [hm]

@[simp] theorem chipSteps_params (cs : List ChipStep) (s : State) : (chipSteps cs s).params = s.params := by
  obtain ⟨m, hm⟩ := chipSteps_frame cs s; rw [hm]

@[simp] theorem setRegs_made (a : Addr) (bs : List Byte) (s : State) : (setRegs a bs s).made = s.made := by
  obtain ⟨m, hm⟩ := setRegs_frame bs a s; rw [hm]

@[simp] theorem setRegs_draws (a : Addr) (bs : List Byte) (s : State) : (setRegs a bs s).draws = s.draws := by
  obtain ⟨m, hm⟩ := setRegs_frame bs a s; rw [hm]

@[simp] theorem setRegs_params (a : Addr) (bs : List Byte) (s : State) : (setRegs a bs s).params = s.params := by
  obtain ⟨m, hm⟩ := setRegs_frame bs a s; rw [hm]

/-- Chip steps changed nothing but REG, so the state is the old one with the new REG. -/
theorem chipSteps_eq (cs : List ChipStep) (s : State) : chipSteps cs s = { s with reg := (chipSteps cs s).reg } := by
  obtain ⟨m, hm⟩ := chipSteps_frame cs s; rw [hm]

theorem setRegs_eq (a : Addr) (bs : List Byte) (s : State) :
    setRegs a bs s = { s with reg := (setRegs a bs s).reg } := by
  obtain ⟨m, hm⟩ := setRegs_frame bs a s; rw [hm]

theorem chipSteps_append (cs ds : List ChipStep) : ∀ s : State,
    chipSteps (cs ++ ds) s = chipSteps ds (chipSteps cs s) := by
  induction cs with
  | nil => exact fun _ => rfl
  | cons c cs ih => exact fun s => ih (chipStep c s)

/-- What chip steps make of REG depends on REG and on P_VOLATILE alone. -/
theorem chipSteps_congr (cs : List ChipStep) : ∀ s t : State, s.reg = t.reg → s.params = t.params →
    (chipSteps cs s).reg = (chipSteps cs t).reg := by
  induction cs with
  | nil => exact fun _ _ h _ => h
  | cons c cs ih =>
    intro s t h hp
    exact ih _ _ (by simp [h, hp, regByte_congr h]) hp

/-- What a store makes of REG depends on REG alone. -/
theorem setRegs_congr (bs : List Byte) : ∀ (a : Addr) (s t : State), s.reg = t.reg →
    (setRegs a bs s).reg = (setRegs a bs t).reg := by
  induction bs with
  | nil => exact fun _ _ _ h => h
  | cons b bs ih => exact fun a s t h => ih _ _ _ (by simp [h])

/-- Byte i + 1 from an address is byte i from the next address (R56). -/
theorem addr_succ (a : Addr) (i : Nat) : a + 1 + BitVec.ofNat 8 i = a + BitVec.ofNat 8 (i + 1) := by
  apply BitVec.eq_of_toNat_eq; simp; omega

theorem setRegs_append (bs cs : List Byte) : ∀ (a : Addr) (s : State),
    setRegs a (bs ++ cs) s = setRegs (a + BitVec.ofNat 8 bs.length) cs (setRegs a bs s) := by
  induction bs with
  | nil => intro a s; simp [setRegs]
  | cons b bs ih =>
    intro a s
    rw [List.cons_append, setRegs, ih, addr_succ]; rfl

/-- A store leaves every register outside its range alone (R53, R54). -/
theorem regByte_setRegs_other (bs : List Byte) : ∀ (a a' : Addr) (s : State),
    (∀ i, i < bs.length → a' ≠ a + BitVec.ofNat 8 i) → regByte (setRegs a bs s) a' = regByte s a' := by
  induction bs with
  | nil => exact fun _ _ _ _ => rfl
  | cons b bs ih =>
    intro a a' s h
    have h0 : a' ≠ a := by simpa using h 0 (by simp)
    rw [setRegs, ih, regByte_setReg_other _ _ h0]
    intro i hi e
    exact h (i + 1) (by simpa using hi) (e.trans (addr_succ a i))

/-! ### The transport -/

/-- With a draw listed, it is the one the next call takes. -/
@[simp] theorem nextDraw_cons (s : State) (d : CallDraw) (ds : List CallDraw) :
    nextDraw { s with draws := d :: ds } = d := rfl

theorem nextDraw_of_draws {s : State} {d : CallDraw} {ds : List CallDraw} (h : s.draws = d :: ds) :
    nextDraw s = d := by simp [nextDraw, h]

/-- What beginning a call does: it is made, the draw is used up, and the chip's steps change REG alone. -/
theorem beginCall_eq (c : TransportCall) (s : State) :
    ∃ m, beginCall c s = { s with reg := m, draws := s.draws.tail, made := s.made ++ [c] } :=
  chipSteps_frame _ _

theorem beginCall_sameResults (c : TransportCall) (s : State) : SameResults s (beginCall c s) := by
  obtain ⟨m, hm⟩ := beginCall_eq c s
  rw [hm]; exact ⟨rfl, rfl, rfl, rfl, rfl, rfl, rfl, rfl, rfl, rfl⟩

@[simp] theorem beginCall_made (c : TransportCall) (s : State) : (beginCall c s).made = s.made ++ [c] := by
  obtain ⟨m, hm⟩ := beginCall_eq c s; rw [hm]

@[simp] theorem beginCall_draws (c : TransportCall) (s : State) : (beginCall c s).draws = s.draws.tail := by
  obtain ⟨m, hm⟩ := beginCall_eq c s; rw [hm]

@[simp] theorem beginCall_params (c : TransportCall) (s : State) : (beginCall c s).params = s.params := by
  obtain ⟨m, hm⟩ := beginCall_eq c s; rw [hm]

theorem beginCall_wf {s : State} (c : TransportCall) (h : Memory.wf s.reg = true) :
    Memory.wf (beginCall c s).reg = true :=
  chipSteps_wf _ _ h

/-- A read delivers exactly n bytes (R52), and its chip steps change REG alone. -/
theorem deliver_length : ∀ (n : Nat) (a : Addr) (st : List (List ChipStep)) (s : State),
    (deliver n a st s).1.length = n := by
  intro n
  induction n with
  | zero => exact fun _ _ _ => rfl
  | succ n ih => intro a st s; simp [deliver, ih]

theorem deliver_frame : ∀ (n : Nat) (a : Addr) (st : List (List ChipStep)) (s : State),
    ∃ m, (deliver n a st s).2 = { s with reg := m } := by
  intro n
  induction n with
  | zero => exact fun _ _ s => ⟨s.reg, rfl⟩
  | succ n ih =>
    intro a st s
    obtain ⟨m, hm⟩ := chipSteps_frame (st.headD []) s
    obtain ⟨m', hm'⟩ := ih (a + 1) st.tail (chipSteps (st.headD []) s)
    exact ⟨m', by simp only [deliver, hm']; rw [hm]⟩

theorem deliver_wf : ∀ (n : Nat) (a : Addr) (st : List (List ChipStep)) (s : State),
    Memory.wf s.reg = true → Memory.wf (deliver n a st s).2.reg = true := by
  intro n
  induction n with
  | zero => exact fun _ _ _ h => h
  | succ n ih => intro a st s h; exact ih _ _ _ (chipSteps_wf _ _ h)

/-- What a delivery delivers: byte i is its register's byte after the steps of the first i gaps (R61). -/
theorem deliver_eq : ∀ (n : Nat) (a : Addr) (st : List (List ChipStep)) (s : State),
    deliver n a st s =
      ((List.range n).map (fun i => regByte (chipSteps (st.take i).flatten s) (a + BitVec.ofNat 8 i)),
        chipSteps (st.take n).flatten s) := by
  intro n
  induction n with
  | zero => intro a st s; simp [deliver, chipSteps]
  | succ n ih =>
    intro a st s
    have key : ∀ k, chipSteps (st.take (k + 1)).flatten s =
        chipSteps (st.tail.take k).flatten (chipSteps (st.headD []) s) := by
      intro k
      cases st with
      | nil => simp [chipSteps]
      | cons l st => simp [chipSteps_append]
    rw [deliver, ih (a + 1) st.tail (chipSteps (st.headD []) s), List.range_succ_eq_map]
    simp only [List.map_cons, List.map_map, Function.comp_def, addr_succ, key, Nat.succ_eq_add_one]
    simp [chipSteps]

/-- Everything a read can do: it fails, or it delivers n bytes; either way it makes one call, uses up its
draw, and otherwise changes REG alone, by chip steps. -/
theorem memRead_cases (a : Addr) (n : Nat) (s : State) :
    (∃ m, memRead a n s =
        (none, { s with reg := m, draws := s.draws.tail, made := s.made ++ [.read a n] }) ∧
        (nextDraw s).ok = false) ∨
      (∃ m b, memRead a n s =
        (some b, { s with reg := m, draws := s.draws.tail, made := s.made ++ [.read a n] }) ∧
        b.length = n ∧ (nextDraw s).ok = true) := by
  obtain ⟨m, hm⟩ := beginCall_eq (.read a n) s
  by_cases h : (nextDraw s).ok
  · right
    obtain ⟨m', hm'⟩ := deliver_frame n a (gapsOf s (nextDraw s)) (beginCall (.read a n) s)
    refine ⟨m', (deliver n a (gapsOf s (nextDraw s)) (beginCall (.read a n) s)).1, ?_,
      deliver_length _ _ _ _, h⟩
    simp only [memRead, h, if_true, hm']
    rw [hm]
  · left
    exact ⟨m, by simp [memRead, h, hm], by simpa using h⟩

/-- Everything a write can do. -/
theorem memWrite_cases (a : Addr) (bs : List Byte) (s : State) :
    (∃ m, memWrite a bs s =
        (false, { s with reg := m, draws := s.draws.tail, made := s.made ++ [.write a bs] }) ∧
        (nextDraw s).ok = false) ∨
      (∃ m, memWrite a bs s =
        (true, { s with reg := m, draws := s.draws.tail, made := s.made ++ [.write a bs] }) ∧
        (nextDraw s).ok = true) := by
  obtain ⟨m, hm⟩ := beginCall_eq (.write a bs) s
  by_cases h : (nextDraw s).ok
  · right
    obtain ⟨m', hm'⟩ := setRegs_frame bs a (beginCall (.write a bs) s)
    exact ⟨m', by simp only [memWrite, h, if_true, hm']; rw [hm], h⟩
  · left
    obtain ⟨m', hm'⟩ := setRegs_frame ((nextDraw s).left.take bs.length) a (beginCall (.write a bs) s)
    exact ⟨m', by simp only [memWrite, h, if_false, Bool.false_eq_true, hm']; rw [hm], by simpa using h⟩

theorem memRead_wf (a : Addr) (n : Nat) {s : State} (h : Memory.wf s.reg = true) :
    Memory.wf (memRead a n s).2.reg = true := by
  unfold memRead
  split
  · exact deliver_wf _ _ _ _ (beginCall_wf _ h)
  · exact beginCall_wf _ h

theorem memWrite_wf (a : Addr) (bs : List Byte) {s : State} (h : Memory.wf s.reg = true) :
    Memory.wf (memWrite a bs s).2.reg = true := by
  unfold memWrite
  split
  · exact setRegs_wf _ _ _ (beginCall_wf _ h)
  · exact setRegs_wf _ _ _ (beginCall_wf _ h)

/-! ### A call whose draw is listed -/

theorem beginCall_draw {s : State} {d : CallDraw} {ds : List CallDraw} (c : TransportCall)
    (h : s.draws = d :: ds) :
    beginCall c s = { s with reg := (atStart s d).reg, draws := ds, made := s.made ++ [c] } := by
  have hr := chipSteps_congr d.before { s with draws := ds, made := s.made ++ [c] } s rfl rfl
  rw [beginCall, nextDraw_of_draws h, chipSteps_eq, h, List.tail_cons, hr]; rfl

/-- A read whose draw is listed (R52, R55, R61): each byte at its instant, or a failure. -/
theorem memRead_draw {s : State} {d : CallDraw} {ds : List CallDraw} (a : Addr) (n : Nat)
    (h : s.draws = d :: ds) :
    memRead a n s = if d.ok then
        (some ((List.range n).map (byteOf s d a)),
          { s with reg := (atByte s d n).reg, draws := ds, made := s.made ++ [.read a n] })
      else (none, { s with reg := (atStart s d).reg, draws := ds, made := s.made ++ [.read a n] }) := by
  have key : ∀ cs, (chipSteps cs (beginCall (.read a n) s)).reg = (chipSteps (d.before ++ cs) s).reg := by
    intro cs
    rw [chipSteps_append]
    exact chipSteps_congr cs _ _ (by rw [beginCall_draw _ h]; rfl) (by simp)
  unfold memRead
  rw [nextDraw_of_draws h]
  by_cases ho : d.ok
  · rw [if_pos ho, if_pos ho, deliver_eq, chipSteps_eq, key]
    rw [beginCall_draw _ h]
    refine Prod.ext ?_ rfl
    refine congrArg some (List.map_congr_left fun i _ => ?_)
    rw [← beginCall_draw (.read a n) h]
    exact regByte_congr (key _) _
  · rw [if_neg ho, if_neg ho, beginCall_draw _ h]

/-- A write whose draw is listed (R53, R54): the bytes stored, or the draw's bytes left. -/
theorem memWrite_draw {s : State} {d : CallDraw} {ds : List CallDraw} (a : Addr) (bs : List Byte)
    (h : s.draws = d :: ds) :
    memWrite a bs s = (d.ok, { s with
      reg := (setRegs a (if d.ok then bs else d.left.take bs.length) (atStart s d)).reg,
      draws := ds, made := s.made ++ [.write a bs] }) := by
  have key : ∀ cs, setRegs a cs (beginCall (.write a bs) s) = { s with
      reg := (setRegs a cs (atStart s d)).reg, draws := ds, made := s.made ++ [.write a bs] } := by
    intro cs
    rw [setRegs_eq, setRegs_congr cs a _ (atStart s d) (by rw [beginCall_draw _ h]), beginCall_draw _ h]
  unfold memWrite
  rw [nextDraw_of_draws h, key, key]
  by_cases ho : d.ok <;> simp [ho]

/-! ### The calm environment -/

theorem CallDraw.calm_before {d : CallDraw} (h : d.calm = true) : d.before = [] := by
  simp only [CallDraw.calm, Bool.and_eq_true, List.isEmpty_iff] at h; exact h.1

theorem CallDraw.calm_between {d : CallDraw} (h : d.calm = true) : ∀ l ∈ d.between, l = [] := by
  simp only [CallDraw.calm, Bool.and_eq_true, List.all_eq_true, List.isEmpty_iff] at h; exact h.2

/-- In a calm call the chip stands still. -/
theorem atStart_calm (s : State) {d : CallDraw} (h : d.calm = true) : atStart s d = s := by
  rw [atStart, CallDraw.calm_before h]; rfl

theorem atByte_calm (s : State) {d : CallDraw} (i : Nat) (h : d.calm = true) : atByte s d i = s := by
  have hf : ((gapsOf s d).take i).flatten = [] := by
    rw [List.flatten_eq_nil_iff]
    intro l hl
    have hl := List.mem_of_mem_take hl
    unfold gapsOf at hl
    split at hl
    · simp at hl
    · exact CallDraw.calm_between h l hl
  rw [atByte, hf, CallDraw.calm_before h]; rfl

theorem byteOf_calm (s : State) {d : CallDraw} (a : Addr) (i : Nat) (h : d.calm = true) :
    byteOf s d a i = regByte s (a + BitVec.ofNat 8 i) := by
  rw [byteOf, atByte_calm s i h]

/-! ### Going on after a transport call -/

/-- Everything a read followed by `k` can do. -/
theorem readThen_cases (a : Addr) (n : Nat) (k : List Byte → State → State) (s : State) :
    (∃ m, readThen a n k s =
        raise .transportFailure { s with reg := m, draws := s.draws.tail, made := s.made ++ [.read a n] }) ∨
      (∃ m b, readThen a n k s =
        k b { s with reg := m, draws := s.draws.tail, made := s.made ++ [.read a n] } ∧ b.length = n) := by
  rcases memRead_cases a n s with ⟨m, hm, _⟩ | ⟨m, b, hm, hb, _⟩
  · exact .inl ⟨m, by simp [readThen, hm]⟩
  · exact .inr ⟨m, b, by simp [readThen, hm], hb⟩

/-- Everything a write followed by `k` can do. -/
theorem writeThen_cases (a : Addr) (bs : List Byte) (k : State → State) (s : State) :
    (∃ m, writeThen a bs k s =
        raise .transportFailure { s with reg := m, draws := s.draws.tail, made := s.made ++ [.write a bs] }) ∨
      (∃ m, writeThen a bs k s = k { s with reg := m, draws := s.draws.tail, made := s.made ++ [.write a bs] }) := by
  rcases memWrite_cases a bs s with ⟨m, hm, _⟩ | ⟨m, hm, _⟩
  · exact .inl ⟨m, by simp [writeThen, hm]⟩
  · exact .inr ⟨m, by simp [writeThen, hm]⟩

/-- A property of the state that raising keeps, and that the transport calls keep, holds after a read and
what follows it if `k` keeps it. -/
theorem readThen_keeps {P : State → Prop} (a : Addr) (n : Nat) (k : List Byte → State → State) (s : State)
    (hr : P (memRead a n s).2 → P (raise .transportFailure (memRead a n s).2)) (hs : P (memRead a n s).2)
    (hk : ∀ b, b.length = n → P (memRead a n s).2 → P (k b (memRead a n s).2)) : P (readThen a n k s) := by
  unfold readThen
  rcases memRead_cases a n s with ⟨m, hm, _⟩ | ⟨m, b, hm, hb, _⟩
  · rw [hm] at hr hs ⊢; exact hr hs
  · rw [hm] at hk hs ⊢; exact hk b hb hs

theorem writeThen_keeps {P : State → Prop} (a : Addr) (bs : List Byte) (k : State → State) (s : State)
    (hr : P (memWrite a bs s).2 → P (raise .transportFailure (memWrite a bs s).2))
    (hs : P (memWrite a bs s).2) (hk : P (memWrite a bs s).2 → P (k (memWrite a bs s).2)) :
    P (writeThen a bs k s) := by
  unfold writeThen
  rcases memWrite_cases a bs s with ⟨m, hm, _⟩ | ⟨m, hm, _⟩
  · rw [hm] at hr hs ⊢; exact hr hs
  · rw [hm] at hk hs ⊢; exact hk hs

/-- Going on after a read whose draw is listed. -/
theorem readThen_draw {s : State} {d : CallDraw} {ds : List CallDraw} (a : Addr) (n : Nat)
    (k : List Byte → State → State) (h : s.draws = d :: ds) :
    readThen a n k s = if d.ok then k ((List.range n).map (byteOf s d a))
          { s with reg := (atByte s d n).reg, draws := ds, made := s.made ++ [.read a n] }
      else raise .transportFailure
        { s with reg := (atStart s d).reg, draws := ds, made := s.made ++ [.read a n] } := by
  unfold readThen
  rw [memRead_draw a n h]
  by_cases ho : d.ok <;> simp [ho]

/-- Going on after a write whose draw is listed. -/
theorem writeThen_draw {s : State} {d : CallDraw} {ds : List CallDraw} (a : Addr) (bs : List Byte)
    (k : State → State) (h : s.draws = d :: ds) :
    writeThen a bs k s = if d.ok then
        k { s with reg := (setRegs a bs (atStart s d)).reg, draws := ds, made := s.made ++ [.write a bs] }
      else raise .transportFailure { s with reg := (setRegs a (d.left.take bs.length) (atStart s d)).reg,
                                            draws := ds, made := s.made ++ [.write a bs] } := by
  unfold writeThen
  rw [memWrite_draw a bs h]
  by_cases ho : d.ok <;> simp [ho]

/-- Everything a read-modify-write can do (R201): its read fails, its write fails, or it goes on. -/
theorem rmwThen_cases (a : Addr) (mask bits : Byte) (k : State → State) (s : State) :
    (∃ m, rmwThen a mask bits k s =
        raise .transportFailure { s with reg := m, draws := s.draws.tail, made := s.made ++ [.read a 1] }) ∨
      (∃ m b, rmwThen a mask bits k s = raise .transportFailure
        { s with reg := m, draws := s.draws.tail.tail, made := s.made ++ [.read a 1] ++ [.write a [b]] }) ∨
      (∃ m b, rmwThen a mask bits k s = k
        { s with reg := m, draws := s.draws.tail.tail, made := s.made ++ [.read a 1] ++ [.write a [b]] }) := by
  unfold rmwThen
  rcases readThen_cases a 1
    (fun b t => writeThen a [(byteAt b 0 &&& ~~~mask) ||| bits] k t) s with ⟨m, hm⟩ | ⟨m, b, hm, _⟩
  · exact .inl ⟨m, hm⟩
  · rcases writeThen_cases a [(byteAt b 0 &&& ~~~mask) ||| bits] k
      { s with reg := m, draws := s.draws.tail, made := s.made ++ [.read a 1] } with ⟨m', hm'⟩ | ⟨m', hm'⟩
    · exact .inr (.inl ⟨m', _, hm.trans hm'⟩)
    · exact .inr (.inr ⟨m', _, hm.trans hm'⟩)

/-- A read-modify-write whose draws are listed: it stores the byte computed from the byte read, whatever
the chip did in between (R62, R201). -/
theorem rmwThen_draw {s : State} {d1 d2 : CallDraw} {ds : List CallDraw} (a : Addr) (mask bits : Byte)
    (k : State → State) (h : s.draws = d1 :: d2 :: ds) (h1 : d1.ok = true) (h2 : d2.ok = true) :
    rmwThen a mask bits k s = k { s with
      reg := (setReg a ((byteOf s d1 a 0 &&& ~~~mask) ||| bits) (atStart (atByte s d1 1) d2)).reg,
      draws := ds,
      made := s.made ++ [.read a 1] ++ [.write a [(byteOf s d1 a 0 &&& ~~~mask) ||| bits]] } := by
  unfold rmwThen
  rw [readThen_draw a 1 _ h, if_pos h1]
  rw [writeThen_draw (d := d2) (ds := ds) a _ k rfl, if_pos h2]
  refine congrArg k ?_
  have hr : (atStart { s with reg := (atByte s d1 1).reg, draws := d2 :: ds, made := s.made ++ [.read a 1] } d2).reg
      = (atStart (atByte s d1 1) d2).reg :=
    chipSteps_congr d2.before _ _ rfl (chipSteps_params _ s).symm
  simp only [setRegs, setReg_reg, hr]
  rfl

end Sys2Proof.Machine
end

