-- ==== Sys2Proof/Laws/PerInstr.lean ====
section
/-! SUPPORT. Per-instruction statements about a command as syntax. The family RoundTrip: the ports the
encoder presents for a well-formed command decode to that command (R82, R83, R85). -/

namespace Sys2Proof.Laws.RoundTrip

open Sys2Proof

/-- The ports that present a well-formed command decode to it. -/
def Statement (i : Instr) : Prop := i.wellFormed = true → decode (encode i) = .ok i

/-- An operand of at most 32 bits comes back from port A (R82). -/
theorem portBits_scalar {w : Nat} (h : w ≤ 32) (v : BitVec w) : portBits (v.setWidth 32) w = v := by
  simp [portBits, BitVec.setWidth_setWidth_of_le, h]

theorem bcddec (b : Byte) : Statement (.bcddec b) := fun _ =>
  congrArg (fun x => Except.ok (Instr.bcddec x)) (portBits_scalar (by decide) b)

theorem bcdenc (v : Byte) : Statement (.bcdenc v) := fun _ =>
  congrArg (fun x => Except.ok (Instr.bcdenc x)) (portBits_scalar (by decide) v)

theorem dt2u (dt : DateTime) : Statement (.dt2u dt) := by
  intro h
  simp only [Instr.wellFormed, Bool.and_eq_true, beq_iff_eq] at h
  cases dt
  simp_all [encode, dateCommand, decode]

theorem u2dt (t : UnixTime) : Statement (.u2dt t) := fun _ =>
  congrArg (fun x => Except.ok (Instr.u2dt x)) (portBits_scalar (by decide) t)

theorem dow (dt : DateTime) : Statement (.dow dt) := by
  intro h
  simp only [Instr.wellFormed, Bool.and_eq_true, beq_iff_eq] at h
  cases dt
  simp_all [encode, dateCommand, decode, zeroDateTime]

theorem leap4 (y : Year) : Statement (.leap4 y) := fun _ =>
  congrArg (fun x => Except.ok (Instr.leap4 x)) (portBits_scalar (by decide) y)

theorem leapg (y : Year) : Statement (.leapg y) := fun _ =>
  congrArg (fun x => Except.ok (Instr.leapg x)) (portBits_scalar (by decide) y)

theorem ldu (t : UnixTime) : Statement (.ldu t) := fun _ =>
  congrArg (fun x => Except.ok (Instr.ldu x)) (portBits_scalar (by decide) t)

theorem setdt (dt : DateTime) : Statement (.setdt dt) := by
  intro h
  simp only [Instr.wellFormed, beq_iff_eq] at h
  cases dt
  simp_all [encode, dateCommand, decode]

theorem getdt : Statement (.getdt) := fun _ => rfl

theorem setu (t : UnixTime) : Statement (.setu t) := fun _ =>
  congrArg (fun x => Except.ok (Instr.setu x)) (portBits_scalar (by decide) t)

theorem getu : Statement (.getu) := fun _ => rfl

theorem setal1 (al : AlarmRecord) : Statement (.setal1 al) := by
  intro h
  simp only [Instr.wellFormed, decide_eq_true_eq] at h
  simp [encode, alarmCommand, decode, h]

theorem getal1 : Statement (.getal1) := fun _ => rfl

theorem setal2 (al : AlarmRecord) : Statement (.setal2 al) := by
  intro h
  simp only [Instr.wellFormed, Bool.and_eq_true, beq_iff_eq, decide_eq_true_eq] at h
  cases al
  simp_all [encode, alarmCommand, decode]

theorem getal2 : Statement (.getal2) := fun _ => rfl

theorem seteosc (v : Bit) : Statement (.seteosc v) := fun _ =>
  congrArg (fun x => Except.ok (Instr.seteosc x)) (portBits_scalar (by decide) v)

theorem setbbsqw (v : Bit) : Statement (.setbbsqw v) := fun _ =>
  congrArg (fun x => Except.ok (Instr.setbbsqw x)) (portBits_scalar (by decide) v)

theorem setrs (rs : BitVec 2) : Statement (.setrs rs) := fun _ =>
  congrArg (fun x => Except.ok (Instr.setrs x)) (portBits_scalar (by decide) rs)

theorem setintcn (v : Bit) : Statement (.setintcn v) := fun _ =>
  congrArg (fun x => Except.ok (Instr.setintcn x)) (portBits_scalar (by decide) v)

theorem seta1ie (v : Bit) : Statement (.seta1ie v) := fun _ =>
  congrArg (fun x => Except.ok (Instr.seta1ie x)) (portBits_scalar (by decide) v)

theorem seta2ie (v : Bit) : Statement (.seta2ie v) := fun _ =>
  congrArg (fun x => Except.ok (Instr.seta2ie x)) (portBits_scalar (by decide) v)

theorem seten32k (v : Bit) : Statement (.seten32k v) := fun _ =>
  congrArg (fun x => Except.ok (Instr.seten32k x)) (portBits_scalar (by decide) v)

theorem clra1f : Statement (.clra1f) := fun _ => rfl

theorem clra2f : Statement (.clra2f) := fun _ => rfl

theorem clrosf : Statement (.clrosf) := fun _ => rfl

theorem geteosc : Statement (.geteosc) := fun _ => rfl

theorem getbbsqw : Statement (.getbbsqw) := fun _ => rfl

theorem getrs : Statement (.getrs) := fun _ => rfl

theorem getintcn : Statement (.getintcn) := fun _ => rfl

theorem geta1ie : Statement (.geta1ie) := fun _ => rfl

theorem geta2ie : Statement (.geta2ie) := fun _ => rfl

theorem geten32k : Statement (.geten32k) := fun _ => rfl

theorem geta1f : Statement (.geta1f) := fun _ => rfl

theorem geta2f : Statement (.geta2f) := fun _ => rfl

theorem getosf : Statement (.getosf) := fun _ => rfl

theorem getbsy : Statement (.getbsy) := fun _ => rfl

end Sys2Proof.Laws.RoundTrip
end

