-- ==== Sys2Proof/Tests/Slice0.lean ====
section
/-! SUPPORT. Tests. The expected values come from the spec: encodings from 30_encoding.md, results from the
rules' worked examples and from 95_test_vectors.md. Then one witness for each statement that has
hypotheses. -/

namespace Sys2Proof.Tests

set_option Elab.async false

open Sys2Proof Sys2Proof.Machine

/-! ### Small states -/

/-- A transport call that succeeds, with no chip step. -/
def okDraw : CallDraw := ⟨true, [], [], []⟩

/-- A transport call that fails and leaves the given bytes, with no chip step. -/
def failDraw (left : List Byte) : CallDraw := ⟨false, [], [], left⟩

/-- A successful read of seven bytes; after its first byte the seconds go to 00 and the minutes to 01. -/
def carryDraw : CallDraw := ⟨true, [], [[⟨0x00, 0x00⟩, ⟨0x01, 0x01⟩]], []⟩

/-- A successful call before which the chip raises BSY and A1F. -/
def movingDraw : CallDraw := ⟨true, [⟨0x0F, 0x05⟩], [], []⟩

/-- A failing call with the same chip step before it. -/
def movingFail : CallDraw := ⟨false, [⟨0x0F, 0x05⟩], [], [0x07]⟩

/-- The state after reset with some draws fixed. -/
def withDraws (ds : List CallDraw) : State := { State.reset with draws := ds }

/-- Five calls that will succeed, and some registers known. -/
def withRegs (a : Addr) (bs : List Byte) : State :=
  setRegs a bs (withDraws [okDraw, okDraw, okDraw, okDraw, okDraw])

/-- The state a command leaves. -/
def after (i : Instr) (s : State) : State :=
  match exec i s with
  | .next t => t
  | .fault _ => State.reset
  | .refused _ => State.reset

/-- STATUS, FLAGS and n registers from an address on, after a command. -/
def seen (i : Instr) (s : State) (a : Addr) (n : Nat) : Option Byte × Option Byte × List Byte :=
  ((after i s).status, (after i s).flags, regBlock (after i s) a n)

/-- 2024-02-29 12:00:00, a Thursday. -/
def leapNoon : DateTime := ⟨0, 0, 12, 4, 29, 2, 2024, 0⟩

/-- The alarm record of the fourth program of 95_test_vectors.md. -/
def thursdayAlarm : AlarmRecord := ⟨0, 30, 10, 5, 1, 4, 1⟩

/-- The record of alarm 2's row with mode 3 of 95_test_vectors.md, section 2.4. -/
def secondAlarm : AlarmRecord := ⟨0, 5, 7, 3, 1, 3, 1⟩

/-- 12:00:59 with a carry to come during the next read. -/
def beforeCarry : State := setRegs 0x00 [0x59, 0x00, 0x12, 0x04, 0x29, 0x02, 0x24] (withDraws [carryDraw])

/-- 29 of some month's BCD byte, 12:00:00, and the month a read of it gives. -/
def clockAt (m : Byte) : State := withRegs 0x00 [0x00, 0x00, 0x12, 0x04, 0x29, m, 0x24]

def monthRead (s : State) : Nat :=
  (clockReading (byteOf s okDraw 0x00 0) (byteOf s okDraw 0x00 1) (byteOf s okDraw 0x00 2) (byteOf s okDraw 0x00 3)
    (byteOf s okDraw 0x00 4) (byteOf s okDraw 0x00 5) (byteOf s okDraw 0x00 6)).month.toNat

/-- A state with P_READ_ATOMIC true. -/
def atomic (s : State) : State := { s with params := { s.params with readAtomic := true } }

/-- A state with one event on the agenda. -/
def facing (e : Event) : State := { State.reset with agenda := [e] }

/-- A written state: 0x0F holds 0x8B, 0x0E holds 0x1D, FLAGS and STATUS are 0. -/
def written : State :=
  complete 0x00 { withRegs 0x0E [0x1D, 0x8B] with resU := some 7, resDT := some { leapNoon with oscEn := 1 } }

/-- A state with one event on the agenda and all six result registers written. -/
def fullyWritten (e : Event) : State :=
  { facing e with resU := some 7, resB := some 1, resDT := some leapNoon, resAL := some thursdayAlarm,
                  flags := some 2, status := some 0 }

/-! ### Ill-formed terms, one for each check -/

theorem test_illformed_dt2u_dow : Instr.wellFormed (.dt2u { zeroDateTime with dow := 1 }) = false := by decide

theorem test_illformed_dt2u_osc_en : Instr.wellFormed (.dt2u { zeroDateTime with oscEn := 1 }) = false := by decide

theorem test_illformed_dow_sec : Instr.wellFormed (.dow { zeroDateTime with sec := 1 }) = false := by decide

theorem test_illformed_dow_min : Instr.wellFormed (.dow { zeroDateTime with min := 1 }) = false := by decide

theorem test_illformed_dow_hour : Instr.wellFormed (.dow { zeroDateTime with hour := 1 }) = false := by decide

theorem test_illformed_dow_dow : Instr.wellFormed (.dow { zeroDateTime with dow := 1 }) = false := by decide

theorem test_illformed_dow_osc_en : Instr.wellFormed (.dow { zeroDateTime with oscEn := 1 }) = false := by decide

theorem test_illformed_setdt_osc_en : Instr.wellFormed (.setdt { zeroDateTime with oscEn := 1 }) = false := by decide

theorem test_illformed_setal1_mode : Instr.wellFormed (.setal1 { zeroAlarm with mode := 5 }) = false := by decide

theorem test_illformed_setal2_mode : Instr.wellFormed (.setal2 { zeroAlarm with mode := 4 }) = false := by decide

theorem test_illformed_setal2_sec : Instr.wellFormed (.setal2 { zeroAlarm with sec := 1 }) = false := by decide

theorem test_wellformed_highest_modes :
    Instr.wellFormed (.setal1 { zeroAlarm with mode := 4 }) = true ∧
      Instr.wellFormed (.setal2 { zeroAlarm with mode := 3 }) = true := by decide

/-! ### Decoding: one word for each constructor, from the opcode map (R83), the operand table (R82) and
the packed order (R80): OP in bits 7:0, A in 39:8, DT from 40 on, AL from 105 on -/

theorem test_decode_bcddec : decodeTableWord 142 0x5901 = some (.bcddec 0x59) := by decide +kernel

theorem test_decode_bcdenc : decodeTableWord 142 0x2D02 = some (.bcdenc 45) := by decide +kernel

theorem test_decode_dt2u : decodeTableWord 142 0x07E8021D000C00000000000010 = some (.dt2u ⟨0, 0, 12, 0, 29, 2, 2024, 0⟩) := by decide +kernel

theorem test_decode_u2dt : decodeTableWord 142 0x65E071C011 = some (.u2dt 1709208000) := by decide +kernel

theorem test_decode_dow : decodeTableWord 142 0x07E8021D000000000000000012 = some (.dow ⟨0, 0, 0, 0, 29, 2, 2024, 0⟩) := by decide +kernel

theorem test_decode_leap4 : decodeTableWord 142 0x076C13 = some (.leap4 1900) := by decide +kernel

theorem test_decode_leapg : decodeTableWord 142 0x083414 = some (.leapg 2100) := by decide +kernel

theorem test_decode_ldu : decodeTableWord 142 0xFFFFFFFF15 = some (.ldu 4294967295) := by decide +kernel

theorem test_decode_setdt : decodeTableWord 142 0x07E8021D040C00000000000020 = some (.setdt ⟨0, 0, 12, 4, 29, 2, 2024, 0⟩) := by decide +kernel

theorem test_decode_getdt : decodeTableWord 142 0x21 = some (.getdt) := by decide +kernel

theorem test_decode_setu : decodeTableWord 142 0xF48656FF22 = some (.setu 4102444799) := by decide +kernel

theorem test_decode_getu : decodeTableWord 142 0x23 = some (.getu) := by decide +kernel

theorem test_decode_setal1 : decodeTableWord 142 (0x19050A1E00 * 2 ^ 105 + 0x28) = some (.setal1 ⟨0, 30, 10, 5, 1, 4, 1⟩) := by decide +kernel

theorem test_decode_getal1 : decodeTableWord 142 0x29 = some (.getal1) := by decide +kernel

theorem test_decode_setal2 : decodeTableWord 142 (0x1703070500 * 2 ^ 105 + 0x2A) = some (.setal2 ⟨0, 5, 7, 3, 1, 3, 1⟩) := by decide +kernel

theorem test_decode_getal2 : decodeTableWord 142 0x2B = some (.getal2) := by decide +kernel

theorem test_decode_seteosc : decodeTableWord 142 0x0130 = some (.seteosc 1) := by decide +kernel

theorem test_decode_setbbsqw : decodeTableWord 142 0x0131 = some (.setbbsqw 1) := by decide +kernel

theorem test_decode_setrs : decodeTableWord 142 0x0232 = some (.setrs 2) := by decide +kernel

theorem test_decode_setintcn : decodeTableWord 142 0x0133 = some (.setintcn 1) := by decide +kernel

theorem test_decode_seta1ie : decodeTableWord 142 0x0134 = some (.seta1ie 1) := by decide +kernel

theorem test_decode_seta2ie : decodeTableWord 142 0x0135 = some (.seta2ie 1) := by decide +kernel

theorem test_decode_seten32k : decodeTableWord 142 0x0136 = some (.seten32k 1) := by decide +kernel

theorem test_decode_clra1f : decodeTableWord 142 0x37 = some (.clra1f) := by decide +kernel

theorem test_decode_clra2f : decodeTableWord 142 0x38 = some (.clra2f) := by decide +kernel

theorem test_decode_clrosf : decodeTableWord 142 0x39 = some (.clrosf) := by decide +kernel

theorem test_decode_geteosc : decodeTableWord 142 0x40 = some (.geteosc) := by decide +kernel

theorem test_decode_getbbsqw : decodeTableWord 142 0x41 = some (.getbbsqw) := by decide +kernel

theorem test_decode_getrs : decodeTableWord 142 0x42 = some (.getrs) := by decide +kernel

theorem test_decode_getintcn : decodeTableWord 142 0x43 = some (.getintcn) := by decide +kernel

theorem test_decode_geta1ie : decodeTableWord 142 0x44 = some (.geta1ie) := by decide +kernel

theorem test_decode_geta2ie : decodeTableWord 142 0x45 = some (.geta2ie) := by decide +kernel

theorem test_decode_geten32k : decodeTableWord 142 0x46 = some (.geten32k) := by decide +kernel

theorem test_decode_geta1f : decodeTableWord 142 0x47 = some (.geta1f) := by decide +kernel

theorem test_decode_geta2f : decodeTableWord 142 0x48 = some (.geta2f) := by decide +kernel

theorem test_decode_getosf : decodeTableWord 142 0x49 = some (.getosf) := by decide +kernel

theorem test_decode_getbsy : decodeTableWord 142 0x4A = some (.getbsy) := by decide +kernel

/-- Only the bits R82 lists are read: A[0] of 2 is 0, A[7:0] of 0x1FF is 0xFF, A[15:0] of 67560 is 2024. -/
theorem test_decode_ignores_high_bits : decodeTableWord 142 0x0234 = some (.seta1ie 0) ∧
    decodeTableWord 142 0x01FF02 = some (.bcdenc 0xFF) ∧ decodeTableWord 142 0x0107E814 = some (.leapg 2024) := by
  decide +kernel

/-- R84's reserved values, and a reserved alarm mode on each setter (R85). -/
theorem test_decode_reserved : decodeTableWord 142 0x00 = none ∧ decodeTableWord 142 0x03 = none ∧
    decodeTableWord 142 0x16 = none ∧ decodeTableWord 142 0x24 = none ∧ decodeTableWord 142 0x2C = none ∧
    decodeTableWord 142 0x3A = none ∧ decodeTableWord 142 0x4B = none ∧ decodeTableWord 142 0xFF = none ∧
    decodeTableWord 142 (0x0A00000000 * 2 ^ 105 + 0x28) = none ∧
    decodeTableWord 142 (0x0800000000 * 2 ^ 105 + 0x2A) = none := by decide +kernel

/-! ### The assembler's lines: the programs of 95_test_vectors.md, section 4 -/

theorem test_line_immediate : assembleLine "LDU 0xFFFFFFFF ; sentinel" = some (scalarCommand 0x15 (0xFFFFFFFF : BitVec 32)) ∧
    assembleLine "U2DT 1709208000" = some (scalarCommand 0x11 (0x65E071C0 : BitVec 32)) := by decide +kernel

theorem test_line_calendar_form : assembleLine "DT2U 1999-12-31 23:59:59" =
    some (dateCommand 0x10 ⟨59, 59, 23, 0, 31, 12, 1999, 0⟩) := by decide +kernel

/-- `SETDT` of the record with year 2024, month 1, date 32, dow 1, in program 5. -/
theorem test_line_date_record : (operandOf .dt [[openBrace] ++ "year=2024,".toList, "month=1,".toList,
    "date=32,".toList, "hour=0,".toList, "min=0,".toList, "sec=0,".toList, "dow=1".toList ++ [closeBrace]]) =
    some (.dt ⟨0, 0, 0, 1, 32, 1, 2024, 0⟩) := by decide +kernel

/-- `SETAL1` of a record with mode 6 alone, in program 5: the omitted fields are 0, and the line assembles. -/
theorem test_line_alarm_record : (operandOf .al [[openBrace] ++ "mode=6".toList ++ [closeBrace]]) =
    some (.al ⟨0, 0, 0, 0, 0, 6, 0⟩) := by decide +kernel

/-- R134's example leaves the time out; only DOW's line may (log 22). -/
theorem test_line_date_alone : assembleLine "DOW 2000-01-01" = some (dateCommand 0x12 ⟨0, 0, 0, 0, 1, 1, 2000, 0⟩) ∧
    assembleLine "DT2U 2000-01-01" = none := by decide +kernel

theorem test_line_refused : assembleLine "BCDDEC 256" = none ∧ assembleLine "SETA1IE 2" = none ∧
    assembleLine "GETDT 1" = none ∧ assembleLine "NOP" = none := by decide +kernel

/-! ### One command: values of 95_test_vectors.md, section 2 -/

theorem test_bcddec_non_bcd : (after (.bcddec 0x3A) State.reset).resB = some (40) ∧
    (after (.bcddec 0x3A) State.reset).flags = some (0x01) := by decide +kernel

theorem test_bcddec_largest : (after (.bcddec 0xFF) State.reset).resB = some (165) := by decide +kernel

theorem test_bcdenc_range : (after (.bcdenc 123) State.reset).resB = some (0xC3) ∧
    (after (.bcdenc 123) State.reset).flags = some (0x02) := by decide +kernel

theorem test_bcdenc_wraps : (after (.bcdenc 255) State.reset).resB = some (0x95) := by decide +kernel

theorem test_dt2u_leap_day : (after (.dt2u ⟨0, 0, 12, 0, 29, 2, 2024, 0⟩) State.reset).resU = some (1709208000) := by decide +kernel

theorem test_dt2u_rejects : (after (.dt2u ⟨59, 59, 23, 0, 31, 12, 1999, 0⟩) { State.reset with resU := some 0xFFFFFFFF }).resU = some (0xFFFFFFFF) := by decide +kernel

theorem test_u2dt_leap_day : (after (.u2dt 1709208000) State.reset).resDT = some ({ leapNoon with oscEn := 1 }) := by decide +kernel

theorem test_u2dt_largest : (after (.u2dt 4294967295) State.reset).resDT = some (⟨15, 28, 6, 7, 7, 2, 2106, 1⟩) := by decide +kernel

theorem test_dow_year_zero : (after (.dow ⟨0, 0, 0, 0, 1, 1, 0, 0⟩) State.reset).resB = some (6) := by decide +kernel

theorem test_dow_month_13 : (after (.dow ⟨0, 0, 0, 0, 1, 13, 2024, 0⟩) { State.reset with resB := some 0xEE }).resB = some (0xEE) := by decide +kernel

theorem test_leap4_1900 : (after (.leap4 1900) State.reset).resB = some (1) := by decide +kernel

theorem test_leapg_centuries : (after (.leapg 1900) State.reset).resB = some (0) ∧ (after (.leapg 2000) State.reset).resB = some (1) := by decide +kernel

theorem test_ldu : (after (.ldu 0x12345678) State.reset).resU = some (0x12345678) := by decide +kernel

theorem test_setdt_leap_day : seen (.setdt leapNoon) (withRegs 0x00 [0xAA, 0xAA, 0xAA, 0xAA, 0xAA, 0xAA, 0xAA]) 0x00 7 =
    (some 0x00, some 0x00, [0x00, 0x00, 0x12, 0x04, 0x29, 0x02, 0x24]) := by decide +kernel

theorem test_setdt_date_32 : seen (.setdt ⟨0, 0, 0, 1, 32, 1, 2024, 0⟩) (withRegs 0x00 [0xAA, 0xAA, 0xAA, 0xAA, 0xAA, 0xAA, 0xAA]) 0x00 7 =
    (some 0x02, some 0x00, [0xAA, 0xAA, 0xAA, 0xAA, 0xAA, 0xAA, 0xAA]) ∧
    (after (.setdt ⟨0, 0, 0, 1, 32, 1, 2024, 0⟩) (withRegs 0x00 [0xAA, 0xAA, 0xAA, 0xAA, 0xAA, 0xAA, 0xAA])).made = [] := by decide +kernel

theorem test_getdt_masks : (after (.getdt) (withRegs 0x00 [0xB0, 0x95, 0x52, 0x03, 0x15, 0x86, 0x24])).resDT = some (⟨30, 15, 12, 3, 15, 6, 2024, 1⟩) ∧
    (after (.getdt) (withRegs 0x00 [0xB0, 0x95, 0x52, 0x03, 0x15, 0x86, 0x24])).flags = some (0x04) := by decide +kernel

theorem test_getdt_maxima : (after (.getdt) (withRegs 0x00 [0x5A, 0x60, 0x3F, 0x07, 0x3F, 0x1F, 0xFF])).resDT = some (⟨60, 60, 45, 7, 45, 25, 2165, 1⟩) := by decide +kernel

theorem test_setu_rollover : seen (.setu 1677628799) (withRegs 0x00 [0xAA, 0xAA, 0xAA, 0xAA, 0xAA, 0xAA, 0xAA]) 0x00 7 =
    (some 0x00, some 0x00, [0x59, 0x59, 0x23, 0x02, 0x28, 0x02, 0x23]) := by decide +kernel

theorem test_setu_above_the_window : (after (.setu 4102444800) (withRegs 0x00 [0xAA, 0xAA, 0xAA, 0xAA, 0xAA, 0xAA, 0xAA])).status = some 0x02 := by decide +kernel

theorem test_getu_odd_hour : (after (.getu) (withRegs 0x00 [0x00, 0x00, 0x3F, 0x01, 0x45, 0x01, 0x24])).resU = some (1704574800) ∧
    (after (.getu) (withRegs 0x00 [0x00, 0x00, 0x3F, 0x01, 0x45, 0x01, 0x24])).flags = some (0x01) := by decide +kernel

theorem test_getu_month_13 : (after .getu (withRegs 0x00 [0x00, 0x00, 0x00, 0x01, 0x01, 0x13, 0x24])).resU = none := by decide +kernel

theorem test_setal1_range : seen (.setal1 ⟨80, 59, 45, 10, 1, 4, 1⟩) (setReg 0x0E 0x1C (withRegs 0x07 [0xEE, 0xEE, 0xEE, 0xEE])) 0x07 4 =
    (some 0x00, some 0x02, [0x00, 0x59, 0x05, 0x40]) ∧
    regByte (after (.setal1 ⟨80, 59, 45, 10, 1, 4, 1⟩) (setReg 0x0E 0x1C (withRegs 0x07 [0xEE, 0xEE, 0xEE, 0xEE]))) 0x0E = 0x1D := by decide +kernel

theorem test_setal1_second_call_fails : seen (.setal1 thursdayAlarm) (setReg 0x0E 0x1C (withDraws [okDraw, failDraw []])) 0x07 4 =
    (some 0x01, some 0x00, [0x00, 0x30, 0x10, 0x45]) := by decide +kernel

theorem test_getal1_day_field : (after (.getal1) (setReg 0x0E 0x05 (withRegs 0x07 [0x00, 0x00, 0x00, 0x7F]))).resAL = some (⟨0, 0, 0, 15, 1, 4, 1⟩) ∧
    (after (.getal1) (setReg 0x0E 0x05 (withRegs 0x07 [0x00, 0x00, 0x00, 0x7F]))).flags = some (0x01) := by decide +kernel

theorem test_getal1_no_pattern : (after (.getal1) (setReg 0x0E 0x04 (withRegs 0x07 [0x80, 0x00, 0x00, 0x00]))).resAL = some (⟨0, 0, 0, 0, 0, 7, 0⟩) ∧
    (after (.getal1) (setReg 0x0E 0x04 (withRegs 0x07 [0x80, 0x00, 0x00, 0x00]))).flags = some (0x08) := by decide +kernel

theorem test_setal2_hour_and_minute : seen (.setal2 ⟨0, 5, 7, 0, 0, 2, 1⟩) (setReg 0x0E 0x1E (withRegs 0x0B [0xEE, 0xEE, 0xEE])) 0x0B 4 =
    (some 0x00, some 0x00, [0x05, 0x07, 0x80, 0x1E]) := by decide +kernel

theorem test_setal2_clears_its_enable : seen (.setal2 ⟨0, 5, 7, 15, 0, 1, 0⟩) (setReg 0x0E 0x1E (withRegs 0x0B [0xEE, 0xEE, 0xEE])) 0x0B 4 =
    (some 0x00, some 0x00, [0x05, 0x87, 0x95, 0x1C]) := by decide +kernel

theorem test_getal2_high_bits : (after (.getal2) (withRegs 0x0B [0xD9, 0xA3, 0xB1, 0x1E])).resAL = some (⟨0, 59, 23, 31, 0, 0, 1⟩) := by decide +kernel

theorem test_getal2_no_pattern : (after (.getal2) (withRegs 0x0B [0x05, 0x87, 0x7F, 0x1E])).flags = some (0x09) := by decide +kernel

theorem test_seteosc : seen (.seteosc 1) (withRegs 0x0E [0x1C]) 0x0E 1 = (some 0x00, some 0x00, [0x9C]) := by decide +kernel

theorem test_setbbsqw : seen (.setbbsqw 1) (withRegs 0x0E [0x1C]) 0x0E 1 = (some 0x00, some 0x00, [0x5C]) := by decide +kernel

theorem test_setrs : seen (.setrs 2) (withRegs 0x0E [0x1D]) 0x0E 1 = (some 0x00, some 0x00, [0x15]) := by decide +kernel

theorem test_setintcn : seen (.setintcn 0) (withRegs 0x0E [0x1D]) 0x0E 1 = (some 0x00, some 0x00, [0x19]) := by decide +kernel

theorem test_seta1ie : seen (.seta1ie 1) (withRegs 0x0E [0x18]) 0x0E 1 = (some 0x00, some 0x00, [0x1D]) := by decide +kernel

theorem test_seta2ie : seen (.seta2ie 1) (withRegs 0x0E [0x19]) 0x0E 1 = (some 0x00, some 0x00, [0x1F]) := by decide +kernel

theorem test_seten32k : seen (.seten32k 0) (withRegs 0x0F [0x88]) 0x0F 1 = (some 0x00, some 0x00, [0x80]) := by decide +kernel

theorem test_clra1f : seen (.clra1f) (withRegs 0x0F [0x8B]) 0x0F 1 = (some 0x00, some 0x00, [0x8A]) := by decide +kernel

theorem test_clra2f : seen (.clra2f) (withRegs 0x0F [0x8B]) 0x0F 1 = (some 0x00, some 0x00, [0x89]) := by decide +kernel

theorem test_clrosf : seen (.clrosf) (withRegs 0x0F [0x88]) 0x0F 1 = (some 0x00, some 0x00, [0x08]) := by decide +kernel

theorem test_geteosc : (after (.geteosc) (withRegs 0x0E [0x9C])).resB = some (1) := by decide +kernel

theorem test_getbbsqw : (after (.getbbsqw) (withRegs 0x0E [0x5C])).resB = some (1) := by decide +kernel

theorem test_getrs : (after (.getrs) (withRegs 0x0E [0x15])).resB = some (2) := by decide +kernel

theorem test_getintcn : (after (.getintcn) (withRegs 0x0E [0x19])).resB = some (0) := by decide +kernel

theorem test_geta1ie : (after (.geta1ie) (withRegs 0x0E [0x1D])).resB = some (1) := by decide +kernel

theorem test_geta2ie : (after (.geta2ie) (withRegs 0x0E [0x1D])).resB = some (0) := by decide +kernel

theorem test_geten32k : (after (.geten32k) (withRegs 0x0F [0x88])).resB = some (1) := by decide +kernel

theorem test_geta1f : (after (.geta1f) (withRegs 0x0F [0x8B])).resB = some (1) := by decide +kernel

theorem test_geta2f : (after (.geta2f) (withRegs 0x0F [0x89])).resB = some (0) := by decide +kernel

theorem test_getosf : (after (.getosf) (withRegs 0x0F [0x88])).resB = some (1) := by decide +kernel

theorem test_getbsy : (after (.getbsy) (withRegs 0x0F [0x0C])).resB = some (1) := by decide +kernel

/-- R222's last row of section 2.6: a failed read leaves RES_B. -/
theorem test_geta1f_read_fails : (after .geta1f { withDraws [failDraw []] with resB := some 0x33 }).resB = some 0x33 ∧
    (after .geta1f { withDraws [failDraw []] with resB := some 0x33 }).status = some 0x01 := by decide +kernel

/-- The example of 70_reset_and_hazards.md section 2: the seconds before the carry, the minutes after it; with P_READ_ATOMIC
true (R61) both are from one instant. -/
theorem test_read_across_a_carry : (after .getdt beforeCarry).resDT.map (fun d => (d.min, d.sec)) = some (1, 59) ∧
    (after .getdt (atomic beforeCarry)).resDT.map (fun d => (d.min, d.sec)) = some (0, 59) := by decide +kernel

/-- R57: the block, then the read and the write of 0x0E. -/
theorem test_transfer_order : (after (.setal1 thursdayAlarm) (setReg 0x0E 0x1C (withDraws [okDraw, okDraw, okDraw]))).made =
    [.write 0x07 [0x00, 0x30, 0x10, 0x45], .read 0x0E 1, .write 0x0E [0x1D]] := by decide +kernel

/-! ### The step and the host -/

/-- The host's word for a row runs as the first command after reset. -/
theorem test_step_runs_the_fetched_word : step (State.reset.withFetchWord 8 0x21) = exec .getdt State.reset := rfl

/-- A host read of a written register gives what was written. -/
theorem test_read_written : hostRead .resAL (fullyWritten (.read .resAL)) = .alarm thursdayAlarm ∧
    step (fullyWritten (.read .resAL)) = .next { fullyWritten (.read .resAL) with agenda := [] } := ⟨rfl, rfl⟩

/-- A host read of an unwritten register is R28's fault, recorded; the run goes on. -/
theorem test_read_unwritten : step (facing (.read .resB)) =
    .next { facing (.read .resB) with agenda := [], faultyReads := [.resB] } := rfl

/-- A chip step raises A1F and cannot clear OSF (R60). -/
theorem test_chip_step_sets_only : regByte (chipStep ⟨0x0F, 0x01⟩ (withRegs 0x0F [0x88])) 0x0F = 0x89 := by
  decide +kernel

/-- Nothing is listed after reset, so no register's byte is known (R40). -/
theorem test_reset_registers_unlisted : State.reset.reg = [] := rfl

/-! ### Witnesses: for each statement with hypotheses, inputs that meet them together, at the bounds of its
clauses. Each theorem names the statement it serves. -/

theorem witness_EncodedWordDecodes :
    Instr.wellFormed (.setal1 thursdayAlarm) = true ∧ Instr.wellFormed (.setal2 secondAlarm) = true ∧
      Instr.wellFormed (.dt2u ⟨0, 0, 12, 0, 29, 2, 2024, 0⟩) = true := by decide +kernel

theorem witness_EachOpcodeSelectsItsCommand :
    thursdayAlarm.mode.toNat ≤ 4 ∧ secondAlarm.mode.toNat ≤ 3 ∧
      decode ⟨0x4A, 0, zeroDateTime, zeroAlarm⟩ = .ok .getbsy := ⟨by decide, by decide, rfl⟩

theorem witness_ReservedOpcodeRaisesIllegalCommand :
    (plainCommand 0x4B).op ∉ assignedOpcodes ∧ (plainCommand 0x00).op ∉ assignedOpcodes ∧
      (facing (.issue (plainCommand 0x4B))).agenda = .issue (plainCommand 0x4B) :: [] := ⟨by decide, by decide, rfl⟩

theorem witness_ReservedAlarmModeRaisesIllegalCommand :
    4 < ({ thursdayAlarm with mode := 5 } : AlarmRecord).mode.toNat ∧
      3 < ({ secondAlarm with mode := 4 } : AlarmRecord).mode.toNat ∧
      (facing (.issue ⟨0x28, 0, zeroDateTime, { thursdayAlarm with mode := 5 }⟩)).agenda =
        .issue ⟨0x28, 0, zeroDateTime, { thursdayAlarm with mode := 5 }⟩ :: [] ∧
      (plainCommand 0x4A).op ∈ assignedOpcodes ∧ (plainCommand 0x4A).op ≠ 0x28 ∧ (plainCommand 0x4A).op ≠ 0x2A := ⟨by decide, by decide, rfl, by decide, by decide, by decide⟩

theorem witness_DecodingIsTotal :
    decode (plainCommand 0x21) = .ok .getdt ∧ (∀ i, decode (plainCommand 0xFF) ≠ .ok i) ∧
      (facing (.issue (plainCommand 0xFF))).agenda = .issue (plainCommand 0xFF) :: [] := ⟨rfl, fun i h => (by simp [decode, plainCommand] at h), rfl⟩

theorem witness_UnreadPortBitsDoNotMatter :
    (⟨0x34, 0, zeroDateTime, zeroAlarm⟩ : Command).op = (⟨0x34, 0xFFFFFFFE, leapNoon, thursdayAlarm⟩ : Command).op ∧
      agreeOnOperands ⟨0x34, 0, zeroDateTime, zeroAlarm⟩ ⟨0x34, 0xFFFFFFFE, leapNoon, thursdayAlarm⟩ ∧
      decode ⟨0x34, 0xFFFFFFFE, leapNoon, thursdayAlarm⟩ = .ok (.seta1ie 0) := ⟨rfl, by simp [agreeOnOperands], rfl⟩

theorem witness_AssemblerRefusesUnknownAndReserved :
    ("SETRS", (0x32 : Byte), 2) ∈ ([("SETRS", 0x32, 2)] : List (String × Byte × Nat)) ∧
      ("SETDT", (0x20 : Byte)) ∈ ([("SETDT", 0x20)] : List (String × Byte)) ∧
      ("SETAL2", (0x2A : Byte)) ∈ ([("SETAL1", 0x28), ("SETAL2", 0x2A)] : List (String × Byte)) ∧
      ("GETBSY", (0x4A : Byte)) ∈ ([("GETOSF", 0x49), ("GETBSY", 0x4A)] : List (String × Byte)) ∧
      assemble "SETRS" (.imm 3) = some (scalarCommand 0x32 (3 : BitVec 2)) ∧
      assembleLine "SETRS 3" = some (scalarCommand 0x32 (3 : BitVec 2)) := by decide +kernel

theorem witness_AssemblerReadsLinesOfText :
    lineWords (withoutComment "SETRS 3 ; rate".toList) = "SETRS".toList :: ["3".toList] ∧
      numberOf "3".toList = some 3 ∧ assemble "SETRS" (.imm 3) = some (scalarCommand 0x32 (3 : BitVec 2)) ∧
      dateOperandOf ["2024-02-29".toList, "12:00:00".toList, "dow=4".toList] = some leapNoon ∧
      assemble "SETDT" (.dt leapNoon) = some (dateCommand 0x20 leapNoon) ∧
      recordOf [[openBrace] ++ "mode=6".toList ++ [closeBrace]] = some [("mode", 6)] ∧
      alarmRecordOf [("mode", 6)] = some { zeroAlarm with mode := 6 } ∧
      assemble "SETAL1" (.al { zeroAlarm with mode := 6 }) = some (alarmCommand 0x28 { zeroAlarm with mode := 6 }) ∧
      lineWords (withoutComment "GETDT".toList) = "GETDT".toList :: [] ∧ assemble "GETDT" .none = some (plainCommand 0x21) := by decide +kernel

theorem witness_PseudoInstructionsExpandToSetintcn :
    assemble "GETDT" .none = some (plainCommand 0x21) ∧ "GETDT" ≠ "ALARMMODE" ∧ "GETDT" ≠ "SQWMODE" := by decide +kernel

theorem witness_StepRunsTheDecodedCommand :
    (facing (.issue (plainCommand 0x21))).agenda = .issue (plainCommand 0x21) :: [] ∧
      decode (plainCommand 0x21) = .ok .getdt ∧ decodeTableWord 142 0x21 = some .getdt := ⟨rfl, rfl, by decide +kernel⟩

theorem witness_HostReadGivesTheRegistersValue :
    (facing (.read .resAL)).agenda = .read .resAL :: [] ∧ (facing (.read .resAL)).resU = none ∧
      (facing (.read .resAL)).resB = none ∧ (facing (.read .resAL)).resDT = none ∧ (facing (.read .resAL)).resAL = none ∧
      (facing (.read .resAL)).flags = none ∧ (facing (.read .resAL)).status = none ∧
      isWritten .resAL (facing (.read .resAL)) = false := ⟨rfl, rfl, rfl, rfl, rfl, rfl, rfl, rfl⟩

theorem witness_HostReadGivesTheRegistersValue_written :
    (fullyWritten (.read .resAL)).agenda = .read .resAL :: [] ∧ (fullyWritten (.read .resAL)).resU = some 7 ∧
      (fullyWritten (.read .resAL)).resB = some 1 ∧ (fullyWritten (.read .resAL)).resDT = some leapNoon ∧
      (fullyWritten (.read .resAL)).resAL = some thursdayAlarm ∧ (fullyWritten (.read .resAL)).flags = some 2 ∧
      (fullyWritten (.read .resAL)).status = some 0 ∧
      isWritten .resAL (fullyWritten (.read .resAL)) = true := ⟨rfl, rfl, rfl, rfl, rfl, rfl, rfl, rfl⟩

theorem witness_NoCommandReadsAResultRegister :
    ({ State.reset with resB := some 1 } : State).reg = State.reset.reg ∧
      ({ State.reset with resB := some 1 } : State).draws = State.reset.draws ∧
      ({ State.reset with resB := some 1 } : State).made = State.reset.made ∧
      ({ State.reset with resB := some 1 } : State).agenda = State.reset.agenda ∧
      ({ State.reset with resB := some 1 } : State).params = State.reset.params := ⟨rfl, rfl, rfl, rfl, rfl⟩

theorem witness_ResetLeavesEveryResultUnwritten :
    (facing .reset).agenda = .reset :: [] ∧ State.reset.agenda = [] := ⟨rfl, rfl⟩

theorem witness_EveryStepKeepsTheInvariant :
    Inv { written with agenda := [.issue (plainCommand 0x37)] } ∧
      step { written with agenda := [.issue (plainCommand 0x37)] } = .next (after .clra1f written) := ⟨by decide +kernel, rfl⟩

theorem witness_OnlyListedCommandsWriteAResultRegister :
    exec (.getdt) written = .next (after (.getdt) written) ∧ mayWriteU .getdt = false ∧
      mayWriteB .getdt = false ∧ mayWriteAL .getdt = false ∧ mayWriteDT (.ldu 7) = false := ⟨rfl, rfl, rfl, rfl, rfl⟩

theorem witness_CalmCommandKeepsUnaddressedRegisters :
    calmFor (transportCalls (.setal1 thursdayAlarm)) written = true ∧
      exec (.setal1 thursdayAlarm) written = .next (after (.setal1 thursdayAlarm) written) ∧
      (0x06 : Addr) ∉ storedRegs (.setal1 thursdayAlarm) ∧ (0x0B : Addr) ∉ storedRegs (.setal1 thursdayAlarm) := ⟨by decide +kernel, rfl, by decide, by decide⟩

theorem witness_RegistersChangeOnlyByStoresAndVolatileBits :
    step { written with agenda := [.issue (plainCommand 0x37)] } = .next (after .clra1f written) ∧
      decode (plainCommand 0x37) = .ok .clra1f ∧ (0x0E : Addr) ∉ storedRegs .clra1f := ⟨rfl, rfl, by decide⟩

theorem witness_StickyFlagsFallOnlyWhenCleared :
    (volatileRow written.params 0x0F).any &&& 0x83 = 0 ∧
      exec (.clra1f) written = .next (after (.clra1f) written) ∧ (after .clra1f written).status = some 0x00 ∧
      Instr.clra1f ≠ .clrosf ∧ Instr.clra1f ≠ .clra2f ∧ Instr.clrosf ≠ .clra1f ∧ (regByte written 0x0F).getLsbD 7 = true ∧
      (regByte written 0x0F).getLsbD 1 = true ∧ (regByte written 0x0F).getLsbD 0 = true := ⟨by decide, rfl, by decide +kernel⟩

theorem witness_IntcnIsForcedByTheCouplingAlone :
    calmFor (transportCalls (.setal1 thursdayAlarm)) written = true ∧
      exec (.setal1 thursdayAlarm) written = .next (after (.setal1 thursdayAlarm) written) ∧
      (after (.setal1 thursdayAlarm) written).status = some 0x00 ∧ forcesIntcn (.setal1 thursdayAlarm) = true ∧
      (after (.setintcn 0) written).status = some 0x00 ∧ (after (.seteosc 1) written).status = some 0x00 ∧
      forcesIntcn (.seteosc 1) = false := ⟨by decide +kernel, rfl, by decide +kernel⟩

theorem witness_OnlySetdtAndSetuRaiseValidationFailure :
    exec (.setu 946684799) written = .next (after (.setu 946684799) written) ∧
      (after (.setu 946684799) written).status = some 0x02 ∧ (after (.setu 4102444800) written).status = some 0x02 ∧
      (after (.setu 946684800) written).status = some 0x00 ∧ (after (.setu 4102444799) written).status = some 0x00 := ⟨rfl, by decide +kernel⟩

theorem witness_FirstFailedCallEndsTheCommand :
    decode (alarmCommand 0x28 thursdayAlarm) = .ok (.setal1 thursdayAlarm) ∧ ¬ failsValidation (.setal1 thursdayAlarm) ∧
      (callTable (.setal1 thursdayAlarm)).length ≤ (withDraws [okDraw, failDraw [], okDraw]).draws.length ∧
      failsValidation (.setu 946684799) ∧ decode (scalarCommand 0x22 (946684799 : BitVec 32)) = .ok (.setu 946684799) ∧
      (∀ i, decode (plainCommand 0xFF) ≠ .ok i) ∧ (true, (0x0F : Addr), 1) ∈ callTable .clra1f := ⟨rfl, fun h => h, by decide, by unfold failsValidation; decide, rfl, fun i h => (by simp [decode, plainCommand] at h),
    by decide⟩

theorem witness_WriteStoresOrLeavesArbitraryBytes :
    (0xFE : Addr).toNat + ([0x01, 0x02] : List Byte).length ≤ 256 ∧
      (withDraws [movingFail]).draws = movingFail :: [] ∧ (withDraws [movingDraw]).draws = movingDraw :: [] ∧
      movingDraw.ok = true ∧ ([0x01, 0x02] : List Byte)[1]? = some 0x02 ∧ (0xFD : Addr).toNat < (0xFE : Addr).toNat ∧
      (nextDraw (withDraws [movingFail])).ok = false ∧ ([0x07, 0x08] : List Byte).length = ([0x01, 0x02] : List Byte).length ∧
      ([0x07, 0x08] : List Byte)[0]? = some 0x07 := by decide +kernel

theorem witness_ReadReturnsRegisterBytesOrNothing :
    (withDraws [carryDraw]).draws = carryDraw :: [] ∧ carryDraw.ok = true ∧ (0 : Nat) < 7 ∧
      (withDraws [movingFail]).draws = movingFail :: [] ∧ movingFail.ok = false := by decide +kernel

theorem witness_ReadAtomicDecidesWhenBytesAreTaken :
    beforeCarry.draws = carryDraw :: [] ∧ carryDraw.ok = true ∧ beforeCarry.params.readAtomic = false ∧
      (atomic beforeCarry).draws = carryDraw :: [] ∧ (atomic beforeCarry).params.readAtomic = true := by decide +kernel

theorem witness_ParametersStayAndBusAddressIsUnused :
    step { written with agenda := [.issue (plainCommand 0x37)] } = .next (after .clra1f written) := rfl

theorem witness_ChipStepsStayWithinTheVolatileBits :
    chipReaches State.reset.params 0x0F 0x88 0x8D = true ∧ chipReaches State.reset.params 0x0F 0x88 0x08 = false ∧
      (facing (.chip ⟨0x0F, 0x05⟩)).agenda = .chip ⟨0x0F, 0x05⟩ :: [] ∧ (withDraws [okDraw]).draws = okDraw :: [] := ⟨by decide, by decide, rfl, rfl⟩

theorem witness_ReadModifyWriteRestoresWhatItRead :
    setterRow .clra1f = some (0x0F, 0x01, 0x00) ∧
      (withDraws [okDraw, ⟨true, [⟨0x0F, 0x01⟩], [], []⟩]).draws = okDraw :: ⟨true, [⟨0x0F, 0x01⟩], [], []⟩ :: [] ∧ okDraw.ok = true := ⟨rfl, rfl, rfl⟩

theorem witness_BcdCodecLaws :
    (0x99 : Byte).toNat / 16 ≤ 9 ∧ (0x99 : Byte).toNat % 16 ≤ 9 ∧ ¬ (0x9A : Byte).toNat % 16 ≤ 9 ∧ ¬ (0xA0 : Byte).toNat / 16 ≤ 9 := by decide +kernel

theorem witness_Dt2uSumsOrLeavesResU :
    2000 ≤ (2000 : Year).toNat ∧ 1 ≤ (12 : Byte).toNat ∧ (12 : Byte).toNat ≤ 12 ∧
      ¬ (2000 ≤ (1999 : Year).toNat) ∧ ¬ ((13 : Byte).toNat ≤ 12) ∧ ¬ (1 ≤ (0 : Byte).toNat) := by decide +kernel

theorem witness_RoundTripInsideTheWindow :
    946684800 ≤ (946684800 : UnixTime).toNat ∧ (4102444799 : UnixTime).toNat ≤ 4102444799 ∧
      properDateTime ⟨0, 0, 0, 6, 1, 1, 2000, 0⟩ = true ∧ properDateTime ⟨59, 59, 23, 4, 31, 12, 2099, 0⟩ = true ∧
      properDateTime leapNoon = true := by decide +kernel

theorem witness_DowWritesTheCongruence :
    1 ≤ (1 : Byte).toNat ∧ (12 : Byte).toNat ≤ 12 ∧ ¬ (1 ≤ (0 : Byte).toNat) ∧ ¬ ((13 : Byte).toNat ≤ 12) := by decide +kernel

theorem witness_WeekdayAdvancesByOneEachDay :
    gregorianDate 1 1 1 = true ∧ gregorianDate 2000 2 29 = true ∧ gregorianDate 2100 12 31 = true ∧
      gregorianDate 2100 2 29 = false := by decide +kernel

theorem witness_SetdtValidatesThenWrites :
    legalFields ⟨59, 59, 23, 7, 31, 12, 2099, 0⟩ ∧ legalFields ⟨0, 0, 0, 1, 1, 1, 2000, 1⟩ ∧
      ¬ legalFields ⟨0, 0, 0, 1, 32, 1, 2024, 0⟩ ∧ (withDraws [movingFail]).draws = movingFail :: [] ∧
      movingDraw.ok = true ∧ movingFail.ok = false := by unfold legalFields; decide +kernel

theorem witness_GetdtDecodesTheTimeRegisters :
    (withDraws [movingDraw]).draws = movingDraw :: [] ∧ movingDraw.ok = true ∧
      (withDraws [movingFail]).draws = movingFail :: [] ∧ movingFail.ok = false := by decide +kernel

theorem witness_SetuConvertsValidatesWrites :
    946684800 ≤ (946684800 : UnixTime).toNat ∧ (4102444799 : UnixTime).toNat ≤ 4102444799 ∧
      (946684799 : UnixTime).toNat < 946684800 ∧ 4102444799 < (4102444800 : UnixTime).toNat ∧
      (withDraws [movingDraw]).draws = movingDraw :: [] ∧ movingDraw.ok = true ∧ movingFail.ok = false := by decide +kernel

theorem witness_GetuReadsAndSums :
    (clockAt 0x12).draws = okDraw :: [okDraw, okDraw, okDraw, okDraw] ∧ okDraw.ok = true ∧ monthRead (clockAt 0x01) = 1 ∧
      monthRead (clockAt 0x12) = 12 ∧ monthRead (clockAt 0x13) = 13 ∧ monthRead (clockAt 0x00) = 0 ∧ (failDraw []).ok = false := by decide +kernel

theorem witness_GetdtReturnsWhatSetdtWrote :
    legalFields leapNoon ∧ (withDraws [okDraw, okDraw]).draws = okDraw :: okDraw :: [] ∧ okDraw.calm = true ∧
      okDraw.ok = true := by unfold legalFields; decide +kernel

theorem witness_GetuReturnsWhatSetuWrote :
    946684800 ≤ (946684800 : UnixTime).toNat ∧ (4102444799 : UnixTime).toNat ≤ 4102444799 ∧
      (withDraws [okDraw, okDraw]).draws = okDraw :: okDraw :: [] ∧ okDraw.calm = true ∧ okDraw.ok = true := by decide +kernel

theorem witness_Setal1WritesBlockThenControl :
    thursdayAlarm.mode.toNat ≤ 4 ∧ 4 < (5 : BitVec 3).toNat ∧
      (withDraws [movingDraw, movingDraw, movingFail]).draws = movingDraw :: movingDraw :: movingFail :: [] ∧
      (withDraws [movingDraw, movingDraw, movingDraw]).draws = movingDraw :: movingDraw :: movingDraw :: [] ∧
      movingDraw.ok = true ∧ movingFail.ok = false := by decide +kernel

theorem witness_Getal1DecodesBlockAndEnable :
    (withDraws [movingDraw, movingDraw]).draws = movingDraw :: movingDraw :: [] ∧
      (withDraws [movingDraw, movingFail]).draws = movingDraw :: movingFail :: [] ∧ movingDraw.ok = true ∧
      movingFail.ok = false := by decide +kernel

theorem witness_Alarm1RoundTripWithoutLoss :
    written.draws = okDraw :: okDraw :: okDraw :: okDraw :: okDraw :: [] ∧ calmFor 5 written = true ∧ okDraw.ok = true ∧
      exec (.setal1 thursdayAlarm) written = .next (after (.setal1 thursdayAlarm) written) ∧
      (after (.setal1 thursdayAlarm) written).status = some 0x00 ∧ (after (.setal1 thursdayAlarm) written).flags = some 0x00 := ⟨by decide +kernel, by decide +kernel, rfl, rfl, by decide +kernel⟩

theorem witness_Setal2WritesBlockThenControl :
    secondAlarm.mode.toNat ≤ 3 ∧ 3 < (4 : BitVec 3).toNat ∧
      (withDraws [movingDraw, movingDraw, movingFail]).draws = movingDraw :: movingDraw :: movingFail :: [] ∧
      (withDraws [movingDraw, movingDraw, movingDraw]).draws = movingDraw :: movingDraw :: movingDraw :: [] ∧
      movingDraw.ok = true ∧ movingFail.ok = false := by decide +kernel

theorem witness_Getal2DecodesBlockAndEnable :
    (withDraws [movingDraw, movingDraw]).draws = movingDraw :: movingDraw :: [] ∧
      (withDraws [movingDraw, movingFail]).draws = movingDraw :: movingFail :: [] ∧ movingDraw.ok = true ∧
      movingFail.ok = false := by decide +kernel

theorem witness_Alarm2RoundTripWithoutLoss :
    written.draws = okDraw :: okDraw :: okDraw :: okDraw :: okDraw :: [] ∧ calmFor 5 written = true ∧ okDraw.ok = true ∧
      exec (.setal2 secondAlarm) written = .next (after (.setal2 secondAlarm) written) ∧
      (after (.setal2 secondAlarm) written).status = some 0x00 ∧ (after (.setal2 secondAlarm) written).flags = some 0x00 := ⟨by decide +kernel, by decide +kernel, rfl, rfl, by decide +kernel⟩

theorem witness_ControlSettersReadModifyWrite :
    ((0x32, .setrs 3, 0x1C, 0x1C) : Byte × Instr × Byte × Byte) ∈
        ([(0x32, .setrs ((0xFFFFFFFF : BitVec 32).extractLsb' 0 2), 0x1C,
          ((0xFFFFFFFF : BitVec 32).extractLsb' 0 2).setWidth 8 <<< 3 ||| 0x04)] : List (Byte × Instr × Byte × Byte)) ∧
      (withDraws [movingDraw, movingFail]).draws = movingDraw :: movingFail :: [] ∧
      movingDraw.ok = true ∧ movingFail.ok = false := by decide +kernel

theorem witness_StatusSettersReadModifyWrite :
    ((0x39, .clrosf, 0x80, 0x00) : Byte × Instr × Byte × Byte) ∈
        ([(0x37, .clra1f, 0x01, 0x00), (0x38, .clra2f, 0x02, 0x00), (0x39, .clrosf, 0x80, 0x00)] :
          List (Byte × Instr × Byte × Byte)) ∧
      (withDraws [movingDraw, movingDraw]).draws = movingDraw :: movingDraw :: [] ∧ movingDraw.ok = true ∧
      movingFail.ok = false := by decide +kernel

theorem witness_ControlGettersExtractTheirField :
    ((0x42, .getrs, 4, 3) : Byte × Instr × Nat × Nat) ∈
        ([(0x40, .geteosc, 7, 7), (0x41, .getbbsqw, 6, 6), (0x42, .getrs, 4, 3), (0x43, .getintcn, 2, 2),
          (0x44, .geta1ie, 0, 0), (0x45, .geta2ie, 1, 1)] : List (Byte × Instr × Nat × Nat)) ∧
      (withDraws [movingDraw]).draws = movingDraw :: [] ∧ movingDraw.ok = true ∧ movingFail.ok = false := by decide +kernel

theorem witness_StatusGettersExtractTheirField :
    ((0x4A, .getbsy, 2, 2) : Byte × Instr × Nat × Nat) ∈
        ([(0x46, .geten32k, 3, 3), (0x47, .geta1f, 0, 0), (0x48, .geta2f, 1, 1), (0x49, .getosf, 7, 7),
          (0x4A, .getbsy, 2, 2)] : List (Byte × Instr × Nat × Nat)) ∧
      (withDraws [movingDraw]).draws = movingDraw :: [] ∧ movingDraw.ok = true ∧ movingFail.ok = false := by decide +kernel

theorem witness_SetThenGetPreservesOtherBits :
    setterRow (.setrs 2) = some ((0x0E : Addr), (0x1C : Byte), (2 : BitVec 2).setWidth 8 <<< 3 ||| 0x04) ∧
      (withDraws [okDraw, okDraw, okDraw]).draws = okDraw :: okDraw :: okDraw :: [] ∧
      calmFor 3 (withDraws [okDraw, okDraw, okDraw]) = true ∧ okDraw.ok = true := by decide +kernel

end Sys2Proof.Tests
end

/-! PROOFS. The statements of 10_state.md: every step keeps the invariant (R20 to R27, R241), and a
register changes only by a store of the block or by the chip's own steps (R38, R60). -/

namespace Sys2Proof.Machine

open Sys2Proof

/-! ### A transport call leaves the result registers alone -/

theorem memRead_sameResults (a : Addr) (n : Nat) (s : State) : SameResults s (memRead a n s).2 := by
  rcases memRead_cases a n s with ⟨m, h, _⟩ | ⟨m, b, h, _⟩ <;> rw [h] <;>
    exact ⟨rfl, rfl, rfl, rfl, rfl, rfl, rfl, rfl, rfl, rfl⟩

theorem memWrite_sameResults (a : Addr) (bs : List Byte) (s : State) : SameResults s (memWrite a bs s).2 := by
  rcases memWrite_cases a bs s with ⟨m, h, _⟩ | ⟨m, h, _⟩ <;> rw [h] <;>
    exact ⟨rfl, rfl, rfl, rfl, rfl, rfl, rfl, rfl, rfl, rfl⟩

/-! ### The flags a command writes (R26) -/

/-- Bits 7:4 of a FLAGS value are 0. -/
abbrev HighNibbleZero (fl : Byte) : Prop := fl &&& 0xF0 = 0

theorem HighNibbleZero.zero : HighNibbleZero 0x00 := rfl

theorem HighNibbleZero.or {x y : Byte} (hx : HighNibbleZero x) (hy : HighNibbleZero y) :
    HighNibbleZero (x ||| y) := by
  rw [HighNibbleZero, BitVec.and_or_distrib_right, hx, hy]; rfl

theorem flagNbcd_highNibbleZero (p : Bool) : HighNibbleZero (flagNbcd p) := by cases p <;> rfl

theorem flagRange_highNibbleZero (p : Bool) : HighNibbleZero (flagRange p) := by cases p <;> rfl

theorem flagH12_highNibbleZero (p : Bool) : HighNibbleZero (flagH12 p) := by cases p <;> rfl

theorem flagIllog_highNibbleZero (p : Bool) : HighNibbleZero (flagIllog p) := by cases p <;> rfl

theorem timeFlags_highNibbleZero (b : List Byte) : HighNibbleZero (timeFlags b) :=
  (flagNbcd_highNibbleZero _).or (flagH12_highNibbleZero _)

theorem alarm1Flags_highNibbleZero (a : List Byte) : HighNibbleZero (alarm1Flags a) :=
  ((flagNbcd_highNibbleZero _).or (flagH12_highNibbleZero _)).or (flagIllog_highNibbleZero _)

theorem alarm2Flags_highNibbleZero (a : List Byte) : HighNibbleZero (alarm2Flags a) :=
  ((flagNbcd_highNibbleZero _).or (flagH12_highNibbleZero _)).or (flagIllog_highNibbleZero _)

/-! ### The match mode of a decoded record (R25) -/

/-- A match mode that may stand in a result. -/
abbrev ListedMode (mode : BitVec 3) : Prop := mode.toNat ≤ 4 ∨ mode = 7

theorem modeOf_listed {modes : List (BitVec 3 × List Bit)} (h : ∀ r ∈ modes, ListedMode r.1) (bits : List Bit) :
    ListedMode (modeOf modes bits) := by
  unfold modeOf
  cases hf : modes.find? (fun r => r.2 == bits) with
  | none => exact .inr rfl
  | some r => exact h r (List.mem_of_find?_eq_some hf)

theorem decodeAlarm1_mode_listed (a : List Byte) (c : Byte) : ListedMode (decodeAlarm1 a c).mode :=
  modeOf_listed (modes := alarm1Modes) (by decide) _

theorem decodeAlarm2_mode_listed (a : List Byte) (c : Byte) : ListedMode (decodeAlarm2 a c).mode :=
  modeOf_listed (modes := alarm2Modes) (by decide) _

/-! ### Each operation keeps the invariant -/

/-- The invariant reads REG and four result registers, and nothing else. -/
theorem Inv.congr {s t : State} (h : Inv s) (hreg : Memory.wf t.reg = true) (hdt : t.resDT = s.resDT)
    (hal : t.resAL = s.resAL) (hfl : t.flags = s.flags) (hst : t.status = s.status) : Inv t := by
  obtain ⟨-, h⟩ := h
  refine ⟨hreg, ?_⟩
  simpa only [flagsReservedZero, statusLegal, writtenTogether, errorClearsFlags, oscEnWritten, alarmModeLegal,
    hdt, hal, hfl, hst] using h

theorem Inv.of_sameResults {s t : State} (h : Inv s) (hs : SameResults s t) (hreg : Memory.wf t.reg = true) :
    Inv t := by
  obtain ⟨-, -, hdt, hal, hfl, hst, -⟩ := hs
  exact h.congr hreg hdt hal hfl hst

theorem Inv.raise {s : State} (h : Inv s) (e : CommandError) : Inv (raise e s) := by
  obtain ⟨hreg, -, -, -, -, hosc, hmode⟩ := h
  have hcode : (errorCode e).toNat ≤ 3 := by cases e <;> decide
  exact ⟨hreg, rfl, decide_eq_true hcode, rfl, by simp [errorClearsFlags], hosc, hmode⟩

theorem Inv.complete {s : State} (h : Inv s) {fl : Byte} (hfl : HighNibbleZero fl) : Inv (complete fl s) := by
  obtain ⟨hreg, -, -, -, -, hosc, hmode⟩ := h
  exact ⟨hreg, beq_iff_eq.mpr hfl, rfl, rfl, rfl, hosc, hmode⟩

theorem Inv.setResDT {s : State} (h : Inv s) {dt : DateTime} (hosc : dt.oscEn = 1) :
    Inv { s with resDT := some dt } := by
  obtain ⟨hreg, hfl, hst, hboth, herr, -, hmode⟩ := h
  exact ⟨hreg, hfl, hst, hboth, herr, beq_iff_eq.mpr hosc, hmode⟩

theorem Inv.setResAL {s : State} (h : Inv s) {r : AlarmRecord} (hmode : ListedMode r.mode) :
    Inv { s with resAL := some r } := by
  obtain ⟨hreg, hfl, hst, hboth, herr, hosc, -⟩ := h
  exact ⟨hreg, hfl, hst, hboth, herr, hosc, by simpa [alarmModeLegal, ListedMode] using hmode⟩

theorem Inv.setResU {s : State} (h : Inv s) (u : UnixTime) : Inv { s with resU := some u } := h

theorem Inv.setResB {s : State} (h : Inv s) (b : Byte) : Inv { s with resB := some b } := h

theorem Inv.memRead {s : State} (h : Inv s) (a : Addr) (n : Nat) : Inv (memRead a n s).2 :=
  h.of_sameResults (memRead_sameResults a n s) (memRead_wf a n h.1)

theorem Inv.memWrite {s : State} (h : Inv s) (a : Addr) (bs : List Byte) : Inv (memWrite a bs s).2 :=
  h.of_sameResults (memWrite_sameResults a bs s) (memWrite_wf a bs h.1)

theorem Inv.readThen {s : State} (h : Inv s) (a : Addr) (n : Nat) {k : List Byte → State → State}
    (hk : ∀ b t, Inv t → Inv (k b t)) : Inv (readThen a n k s) :=
  readThen_keeps a n k s (fun ht => ht.raise _) (h.memRead a n) fun b _ => hk b _

theorem Inv.writeThen {s : State} (h : Inv s) (a : Addr) (bs : List Byte) {k : State → State}
    (hk : ∀ t, Inv t → Inv (k t)) : Inv (writeThen a bs k s) :=
  writeThen_keeps a bs k s (fun ht => ht.raise _) (h.memWrite a bs) (hk _)

theorem Inv.rmwThen {s : State} (h : Inv s) (a : Addr) (mask bits : Byte) {k : State → State}
    (hk : ∀ t, Inv t → Inv (k t)) : Inv (rmwThen a mask bits k s) :=
  h.readThen a 1 fun _ _ ht => ht.writeThen a _ hk

theorem Inv.setBits {s : State} (h : Inv s) (a : Addr) (mask bits : Byte) : Inv (setBits a mask bits s) :=
  h.rmwThen a mask bits fun _ ht => ht.complete .zero

theorem Inv.getBits {s : State} (h : Inv s) (a : Addr) (hi lo : Nat) : Inv (getBits a hi lo s) :=
  h.readThen a 1 fun _ _ ht => (ht.setResB _).complete .zero

theorem Inv.writeTime {s : State} (h : Inv s) (dt : DateTime) : Inv (writeTime dt s) := by
  unfold Machine.writeTime
  split
  · exact h.writeThen 0x00 _ fun _ ht => ht.complete .zero
  · exact h.raise _

/-! ### Every command and every step keeps the invariant -/

/-- Every command completes, in a state that satisfies the invariant again. -/
theorem exec_keeps_inv (i : Instr) {s : State} (h : Inv s) : ∃ t, exec i s = .next t ∧ Inv t := by
  cases i with
  | bcddec b => exact ⟨_, rfl, (h.setResB _).complete (flagNbcd_highNibbleZero _)⟩
  | bcdenc v => exact ⟨_, rfl, (h.setResB _).complete (flagRange_highNibbleZero _)⟩
  | dt2u dt =>
    refine ⟨_, rfl, Inv.complete ?_ .zero⟩
    split
    · exact h.setResU _
    · exact h
  | u2dt t => exact ⟨_, rfl, (h.setResDT rfl).complete .zero⟩
  | dow dt =>
    refine ⟨_, rfl, Inv.complete ?_ .zero⟩
    split
    · exact h.setResB _
    · exact h
  | leap4 y => exact ⟨_, rfl, (h.setResB _).complete .zero⟩
  | leapg y => exact ⟨_, rfl, (h.setResB _).complete .zero⟩
  | ldu t => exact ⟨_, rfl, (h.setResU _).complete .zero⟩
  | setdt dt => exact ⟨_, rfl, h.writeTime dt⟩
  | setu u => exact ⟨_, rfl, h.writeTime _⟩
  | getdt =>
    exact ⟨_, rfl, h.readThen _ _ fun _ _ ht => (ht.setResDT rfl).complete (timeFlags_highNibbleZero _)⟩
  | getu =>
    refine ⟨_, rfl, h.readThen _ _ fun _ _ ht => Inv.complete ?_ (timeFlags_highNibbleZero _)⟩
    split
    · exact (ht.setResDT rfl).setResU _
    · exact ht.setResDT rfl
  | setal1 _ | setal2 _ =>
    refine ⟨_, rfl, ?_⟩
    split
    · exact h.raise _
    · exact h.writeThen _ _ fun _ ht => ht.rmwThen _ _ _ fun _ hu => hu.complete (flagRange_highNibbleZero _)
  | getal1 =>
    exact ⟨_, rfl, h.readThen _ _ fun a _ ht => ht.readThen _ _ fun _ _ hu =>
      (hu.setResAL (decodeAlarm1_mode_listed a _)).complete (alarm1Flags_highNibbleZero _)⟩
  | getal2 =>
    exact ⟨_, rfl, h.readThen _ _ fun a _ ht => ht.readThen _ _ fun _ _ hu =>
      (hu.setResAL (decodeAlarm2_mode_listed a _)).complete (alarm2Flags_highNibbleZero _)⟩
  | seteosc _ | setbbsqw _ | setrs _ | setintcn _ | seta1ie _ | seta2ie _ | seten32k _ | clra1f | clra2f
  | clrosf => exact ⟨_, rfl, h.setBits _ _ _⟩
  | geteosc | getbbsqw | getrs | getintcn | geta1ie | geta2ie | geten32k | geta1f | geta2f | getosf
  | getbsy => exact ⟨_, rfl, h.getBits _ _ _⟩

theorem present_keeps_inv (c : Command) {s : State} (h : Inv s) : ∃ t, present c s = .next t ∧ Inv t := by
  unfold present
  split
  · exact exec_keeps_inv _ h
  · exact ⟨_, rfl, h.raise _⟩

theorem perform_keeps_inv (e : Event) {s : State} (h : Inv s) : ∃ t, perform e s = .next t ∧ Inv t := by
  cases e with
  | issue c => exact present_keeps_inv c h
  | read r =>
    refine ⟨_, rfl, h.congr ?_ (noteRead_resDT r s) (noteRead_resAL r s) (noteRead_flags r s) (noteRead_status r s)⟩
    rw [noteRead_reg]; exact h.1
  | reset => exact ⟨_, rfl, h.1, rfl, rfl, rfl, rfl, rfl, rfl⟩
  | chip c => exact ⟨_, rfl, h.congr (chipStep_wf c h.1) rfl rfl rfl rfl⟩

theorem step_keeps_inv {s : State} (h : Inv s) : ∃ t, step s = .next t ∧ Inv t := by
  unfold step
  split
  · exact ⟨s, rfl, h⟩
  · exact perform_keeps_inv _ (s := { s with agenda := _ }) h

/-- Settles O16: each operation a step is made of keeps the invariant. -/
theorem everyStepKeepsTheInvariant : Obligations.EveryStepKeepsTheInvariant := by
  intro s t h hst
  obtain ⟨u, hu, hinv⟩ := step_keeps_inv h
  obtain rfl : u = t := Host.Outcome.next.inj (hu.symm.trans hst)
  exact hinv

/-! ### What the chip's own steps reach (R60) -/

/-- `chipReaches` bit by bit: a bit that is not listed *any* never falls where it is *set-only*, and keeps
its value where it is not listed at all. -/
theorem chipReaches_iff (p : Params) (a : Addr) (old new : Byte) :
    chipReaches p a old new = true ↔ ∀ i < 8, (volatileRow p a).any.getLsbD i = false →
      (old.getLsbD i = true → new.getLsbD i = true) ∧
        ((volatileRow p a).setOnly.getLsbD i = false → new.getLsbD i = old.getLsbD i) := by
  simp only [chipReaches, Bool.and_eq_true, beq_iff_eq, BitVec.eq_of_getLsbD_eq_iff, ← forall_and]
  refine forall_congr' fun i => forall_congr' fun hi => ?_
  simp only [BitVec.getLsbD_and, BitVec.getLsbD_or, BitVec.getLsbD_not, BitVec.ofNat_eq_ofNat,
    BitVec.getLsbD_zero, hi, decide_true, Bool.true_and]
  generalize (volatileRow p a).any.getLsbD i = any, (volatileRow p a).setOnly.getLsbD i = setOnly,
    old.getLsbD i = x, new.getLsbD i = y
  revert any setOnly x y
  decide

theorem chipReaches_refl (p : Params) (a : Addr) (b : Byte) : chipReaches p a b b = true :=
  (chipReaches_iff p a b b).mpr fun _ _ _ => ⟨id, fun _ => rfl⟩

theorem chipReaches_trans {p : Params} {a : Addr} {x y z : Byte} (hxy : chipReaches p a x y = true)
    (hyz : chipReaches p a y z = true) : chipReaches p a x z = true := by
  rw [chipReaches_iff] at *
  intro i hi hany
  obtain ⟨hup, hkeep⟩ := hxy i hi hany
  obtain ⟨hup', hkeep'⟩ := hyz i hi hany
  exact ⟨hup' ∘ hup, fun hset => (hkeep' hset).trans (hkeep hset)⟩

theorem chipReaches_chipByte (p : Params) (a : Addr) (old drive : Byte) :
    chipReaches p a old (chipByte (volatileRow p a) old drive) = true := by
  rw [chipReaches_iff]
  intro i hi hany
  simp only [chipByte, BitVec.getLsbD_and, BitVec.getLsbD_or, BitVec.getLsbD_not, hi, hany]
  exact ⟨fun hold => by simp [hold], fun hset => by simp [hset]⟩

/-! ### Each operation changes a register it does not address within the volatile bits only (R38) -/

/-- From `s` to `t` register `a` changed by the chip's own steps at most, under the same P_VOLATILE. -/
def VolatileOnly (a : Addr) (s t : State) : Prop :=
  t.params = s.params ∧ chipReaches s.params a (regByte s a) (regByte t a) = true

theorem VolatileOnly.refl (a : Addr) (s : State) : VolatileOnly a s s := ⟨rfl, chipReaches_refl _ _ _⟩

theorem VolatileOnly.trans {a : Addr} {s t u : State} (hst : VolatileOnly a s t) (htu : VolatileOnly a t u) :
    VolatileOnly a s u := by
  obtain ⟨hp, hreach⟩ := hst
  obtain ⟨hp', hreach'⟩ := htu
  rw [hp] at hreach'
  exact ⟨hp'.trans hp, chipReaches_trans hreach hreach'⟩

/-- A change of no byte of register `a` and of no parameter. -/
theorem VolatileOnly.congr {a : Addr} {s t u : State} (h : VolatileOnly a s t) (hp : u.params = t.params)
    (hb : regByte u a = regByte t a) : VolatileOnly a s u := by
  obtain ⟨hp', hreach⟩ := h
  exact ⟨hp.trans hp', hb ▸ hreach⟩

theorem VolatileOnly.raise {a : Addr} {s t : State} (h : VolatileOnly a s t) (e : CommandError) :
    VolatileOnly a s (raise e t) := h

theorem VolatileOnly.complete {a : Addr} {s t : State} (h : VolatileOnly a s t) (fl : Byte) :
    VolatileOnly a s (complete fl t) := h

theorem VolatileOnly.chipStep {a : Addr} {s t : State} (h : VolatileOnly a s t) (c : ChipStep) :
    VolatileOnly a s (chipStep c t) := by
  refine h.trans ⟨rfl, ?_⟩
  by_cases hc : a = c.addr
  · subst hc
    rw [Machine.chipStep, regByte_setReg_same]
    exact chipReaches_chipByte _ _ _ _
  · rw [Machine.chipStep, regByte_setReg_other _ _ hc]
    exact chipReaches_refl _ _ _

theorem VolatileOnly.chipSteps {a : Addr} {s : State} (cs : List ChipStep) : ∀ {t : State},
    VolatileOnly a s t → VolatileOnly a s (chipSteps cs t) := by
  induction cs with
  | nil => exact fun h => h
  | cons c cs ih => exact fun h => ih (h.chipStep c)

theorem VolatileOnly.beginCall {a : Addr} {s t : State} (h : VolatileOnly a s t) (c : TransportCall) :
    VolatileOnly a s (beginCall c t) :=
  VolatileOnly.chipSteps (t := { t with draws := t.draws.tail, made := t.made ++ [c] }) _ h

theorem VolatileOnly.memRead {a : Addr} {s t : State} (h : VolatileOnly a s t) (a0 : Addr) (n : Nat) :
    VolatileOnly a s (memRead a0 n t).2 := by
  unfold Machine.memRead
  split
  · rw [deliver_eq]
    exact (h.beginCall _).chipSteps _
  · exact h.beginCall _

/-- The registers a transfer of `n` bytes from `a0` addresses (R56). -/
def addressed (a0 : Addr) (n : Nat) : List Addr := (List.range n).map (fun i => a0 + BitVec.ofNat 8 i)

theorem VolatileOnly.setRegs {a a0 : Addr} {s t : State} (h : VolatileOnly a s t) {n : Nat}
    (ha : a ∉ addressed a0 n) {bs : List Byte} (hn : bs.length ≤ n) : VolatileOnly a s (setRegs a0 bs t) := by
  refine h.congr (setRegs_params a0 bs t) (regByte_setRegs_other bs a0 a t fun i hi e => ha ?_)
  exact List.mem_map.mpr ⟨i, List.mem_range.mpr (hi.trans_le hn), e.symm⟩

/-- A write, whether it succeeds or fails, leaves the registers it does not address to the chip (R53, R54). -/
theorem VolatileOnly.memWrite {a a0 : Addr} {s t : State} (h : VolatileOnly a s t) {bs : List Byte}
    (ha : a ∉ addressed a0 bs.length) : VolatileOnly a s (memWrite a0 bs t).2 := by
  unfold Machine.memWrite
  split
  · exact (h.beginCall _).setRegs ha le_rfl
  · exact (h.beginCall _).setRegs ha (List.length_take_le _ _)

theorem VolatileOnly.readThen {a : Addr} {s t : State} (h : VolatileOnly a s t) (a0 : Addr) (n : Nat)
    {k : List Byte → State → State} (hk : ∀ b u, VolatileOnly a s u → VolatileOnly a s (k b u)) :
    VolatileOnly a s (readThen a0 n k t) :=
  readThen_keeps a0 n k t (fun hu => hu.raise _) (h.memRead a0 n) fun b _ => hk b _

theorem VolatileOnly.writeThen {a a0 : Addr} {s t : State} (h : VolatileOnly a s t) {bs : List Byte}
    (ha : a ∉ addressed a0 bs.length) {k : State → State}
    (hk : ∀ u, VolatileOnly a s u → VolatileOnly a s (k u)) : VolatileOnly a s (writeThen a0 bs k t) :=
  writeThen_keeps a0 bs k t (fun hu => hu.raise _) (h.memWrite ha) (hk _)

theorem VolatileOnly.rmwThen {a a0 : Addr} {s t : State} (h : VolatileOnly a s t)
    (ha : a ∉ addressed a0 1) (mask bits : Byte) {k : State → State}
    (hk : ∀ u, VolatileOnly a s u → VolatileOnly a s (k u)) : VolatileOnly a s (rmwThen a0 mask bits k t) :=
  h.readThen a0 1 fun _ _ hu => hu.writeThen ha hk

theorem VolatileOnly.setBits {a a0 : Addr} {s t : State} (h : VolatileOnly a s t) (ha : a ∉ addressed a0 1)
    (mask bits : Byte) : VolatileOnly a s (setBits a0 mask bits t) :=
  h.rmwThen ha mask bits fun _ hu => hu.complete _

/-- The two calls of an alarm setter: the block, then the control register (R185, R187). -/
theorem VolatileOnly.setAlarm {a a0 a1 : Addr} {s t : State} (h : VolatileOnly a s t) {bs : List Byte}
    (ha : a ∉ addressed a0 bs.length ++ addressed a1 1) (mask bits fl : Byte) :
    VolatileOnly a s (Machine.writeThen a0 bs (Machine.rmwThen a1 mask bits (Machine.complete fl)) t) := by
  obtain ⟨hblock, hctl⟩ := not_or.mp (mt List.mem_append.mpr ha)
  exact h.writeThen hblock fun _ hu => hu.rmwThen hctl mask bits fun _ hv => hv.complete _

theorem VolatileOnly.getBits {a : Addr} {s t : State} (h : VolatileOnly a s t) (a0 : Addr) (hi lo : Nat) :
    VolatileOnly a s (getBits a0 hi lo t) :=
  h.readThen a0 1 fun _ _ hu => hu

theorem VolatileOnly.writeTime {a : Addr} {s t : State} (h : VolatileOnly a s t) (ha : a ∉ addressed 0x00 7)
    (dt : DateTime) : VolatileOnly a s (writeTime dt t) := by
  unfold Machine.writeTime
  split
  · exact h.writeThen ha fun _ hu => hu.complete _
  · exact h.raise _

/-! ### Every command and every step -/

/-- Every command leaves a register its MemWrite calls do not address to the chip (R38, R57). -/
theorem exec_volatileOnly (i : Instr) (s : State) {a : Addr} (ha : a ∉ storedRegs i) :
    ∃ t, exec i s = .next t ∧ VolatileOnly a s t := by
  have h := VolatileOnly.refl a s
  cases i with
  | bcddec _ | bcdenc _ | u2dt _ | leap4 _ | leapg _ | ldu _ => exact ⟨_, rfl, h⟩
  | dt2u _ | dow _ =>
    refine ⟨_, rfl, VolatileOnly.complete ?_ _⟩
    split <;> exact h
  | setdt dt => exact ⟨_, rfl, h.writeTime ha dt⟩
  | setu u => exact ⟨_, rfl, h.writeTime ha _⟩
  | getdt => exact ⟨_, rfl, h.readThen _ _ fun _ _ ht => ht⟩
  | getu =>
    refine ⟨_, rfl, h.readThen _ _ fun _ _ ht => VolatileOnly.complete ?_ _⟩
    split <;> exact ht
  | setal1 _ | setal2 _ =>
    refine ⟨_, rfl, ?_⟩
    split
    · exact h.raise _
    · refine h.setAlarm ?_ _ _ _
      exact ha
  | getal1 | getal2 => exact ⟨_, rfl, h.readThen _ _ fun _ _ ht => ht.readThen _ _ fun _ _ hu => hu⟩
  | seteosc _ | setbbsqw _ | setrs _ | setintcn _ | seta1ie _ | seta2ie _ | seten32k _ | clra1f | clra2f
  | clrosf =>
    refine ⟨_, rfl, h.setBits ?_ _ _⟩
    exact ha
  | geteosc | getbbsqw | getrs | getintcn | geta1ie | geta2ie | geten32k | geta1f | geta2f | getosf
  | getbsy => exact ⟨_, rfl, h.getBits _ _ _⟩

theorem present_volatileOnly (c : Command) (s : State) {a : Addr}
    (ha : ∀ i, decode c = .ok i → a ∉ storedRegs i) : ∃ t, present c s = .next t ∧ VolatileOnly a s t := by
  unfold present
  split
  case h_1 i hi => exact exec_volatileOnly i s (ha i hi)
  case h_2 => exact ⟨_, rfl, (VolatileOnly.refl a s).raise _⟩

theorem perform_volatileOnly (e : Event) (s : State) {a : Addr}
    (ha : ∀ c i, e = .issue c → decode c = .ok i → a ∉ storedRegs i) :
    ∃ t, perform e s = .next t ∧ VolatileOnly a s t := by
  have h := VolatileOnly.refl a s
  cases e with
  | issue c => exact present_volatileOnly c s fun i => ha c i rfl
  | read r => exact ⟨_, rfl, h.congr (noteRead_params r s) (regByte_congr (noteRead_reg r s) a)⟩
  | reset => exact ⟨_, rfl, h⟩
  | chip c => exact ⟨_, rfl, h.chipStep c⟩

theorem step_volatileOnly (s : State) {a : Addr}
    (ha : ∀ c i rest, s.agenda = .issue c :: rest → decode c = .ok i → a ∉ storedRegs i) :
    ∃ t, step s = .next t ∧ VolatileOnly a s t := by
  unfold step
  split
  case h_1 => exact ⟨s, rfl, VolatileOnly.refl a s⟩
  case h_2 e rest hag =>
    exact perform_volatileOnly e { s with agenda := rest } fun c i he => ha c i rest (he ▸ hag)

/-- Settles O19: each operation a step is made of leaves a register it does not address to the chip. -/
theorem registersChangeOnlyByStoresAndVolatileBits : Obligations.RegistersChangeOnlyByStoresAndVolatileBits := by
  intro s t a hst ha
  obtain ⟨u, hu, -, hreach⟩ := step_volatileOnly s ha
  obtain rfl : u = t := Host.Outcome.next.inj (hu.symm.trans hst)
  exact hreach

end Sys2Proof.Machine

/-! PROOFS. The statements of 20_memory.md: what a write stores (R53, R54), what the chip's own steps reach (R60),
and the transport calls of every command, up to the first that fails (R57, R244, R245). -/

namespace Sys2Proof.Machine

open Sys2Proof

/-! ### A store (R53, R54) -/

/-- A store puts byte i at register a + i: with at most 256 bytes no later one falls on it. -/
theorem regByte_setRegs_at (bs : List Byte) : ∀ (a : Addr) (s : State) {i : Nat} {b : Byte},
    bs.length ≤ 256 → bs[i]? = some b → regByte (setRegs a bs s) (a + BitVec.ofNat 8 i) = b := by
  induction bs with
  | nil => simp
  | cons c bs ih =>
    intro a s i b hlen hb
    rw [List.length_cons] at hlen
    cases i with
    | zero =>
      obtain rfl : c = b := by simpa using hb
      have hlater : ∀ i < bs.length, a ≠ a + 1 + BitVec.ofNat 8 i := fun i hi => by bv_omega
      rw [setRegs, BitVec.ofNat_eq_ofNat, BitVec.add_zero]
      exact (regByte_setRegs_other bs (a + 1) a _ hlater).trans (regByte_setReg_same a c s)
    | succ i =>
      rw [setRegs, ← addr_succ]
      exact ih (a + 1) _ (by omega) (by simpa using hb)

/-- A store leaves the registers below and above its range alone. -/
theorem regByte_setRegs_outside {a a' : Addr} {bs : List Byte} {n : Nat} (s : State) (hspace : a.toNat + n ≤ 256)
    (hn : bs.length ≤ n) (ha : a'.toNat < a.toNat ∨ a.toNat + n ≤ a'.toNat) :
    regByte (setRegs a bs s) a' = regByte s a' := by
  refine regByte_setRegs_other bs a a' s fun i hi => ?_
  bv_omega

/-- What a write whose draw is listed makes of a register. -/
theorem regByte_memWrite {s : State} {d : CallDraw} {ds : List CallDraw} (a a' : Addr) (bs : List Byte)
    (h : s.draws = d :: ds) : regByte (memWrite a bs s).2 a' =
      regByte (setRegs a (if d.ok then bs else d.left.take bs.length) (atStart s d)) a' := by
  rw [memWrite_draw a bs h]
  exact regByte_congr rfl a'

/-- A failed write ends the command with TransportFailure (R244). -/
theorem writeThen_failed (a : Addr) (bs : List Byte) (k : State → State) {s : State}
    (h : (nextDraw s).ok = false) : writeThen a bs k s = raise .transportFailure (memWrite a bs s).2 := by
  rcases memWrite_cases a bs s with ⟨m, hm, _⟩ | ⟨m, _, hok⟩
  · rw [writeThen, hm]
  · simp [h] at hok

/-- Settles O25: a write is a store of the bytes, or of the draw's bytes, after the chip's steps. -/
theorem writeStoresOrLeavesArbitraryBytes : Obligations.WriteStoresOrLeavesArbitraryBytes := by
  refine ⟨fun a bs s d ds hspace hd => ⟨?_, fun hok i b hb => ?_, fun a' ha => ?_⟩,
    fun a bs cs before hspace hlen => ?_, fun a bs k s hfail => writeThen_failed a bs k hfail⟩
  · rw [memWrite_draw a bs hd]
  · rw [regByte_memWrite _ _ _ hd, if_pos hok]
    exact regByte_setRegs_at bs a _ (by omega) hb
  · rw [regByte_memWrite _ _ _ hd]
    refine regByte_setRegs_outside _ hspace ?_ ha
    split
    · exact le_rfl
    · exact List.length_take_le _ _
  · refine ⟨⟨false, before, [], cs⟩, rfl, rfl, fun s ds hd i b hb => ?_⟩
    rw [regByte_memWrite _ _ _ hd, if_neg Bool.false_ne_true, List.take_of_length_le hlen.le]
    exact regByte_setRegs_at cs a _ (by omega) hb

/-! ### The chip's steps (R60) -/

/-- Driving an allowed byte at a register makes the register hold exactly that byte. -/
theorem chipByte_of_chipReaches {p : Params} {a : Addr} {old b : Byte} (h : chipReaches p a old b = true) :
    chipByte (volatileRow p a) old b = b := by
  rw [chipReaches_iff] at h
  refine BitVec.eq_of_getLsbD_eq fun i hi => ?_
  simp only [chipByte, BitVec.getLsbD_and, BitVec.getLsbD_or, BitVec.getLsbD_not, hi, decide_true, Bool.true_and]
  cases hany : (volatileRow p a).any.getLsbD i with
  | true => simp
  | false =>
    obtain ⟨hup, hkeep⟩ := h i hi hany
    cases hset : (volatileRow p a).setOnly.getLsbD i with
    | true => simpa using hup
    | false => simp [hkeep hset]

/-- The default P_VOLATILE is R60's table: checked at each of the 256 addresses. -/
theorem volatileRow_default (a : Addr) :
    (volatileRow defaultParams a).any = tableAny a ∧ (volatileRow defaultParams a).setOnly = tableSetOnly a := by
  revert a
  decide

/-- Settles O28: bit by bit, a driven byte reaches what the volatile row allows. -/
theorem chipStepsStayWithinTheVolatileBits : Obligations.ChipStepsStayWithinTheVolatileBits := by
  refine ⟨fun cs s a => ((VolatileOnly.refl a s).chipSteps cs).2, fun s a b h => ⟨⟨a, b⟩, ?_, fun a' ha => ?_⟩,
    fun s c rest h => ?_, fun s d ds c h => ?_, volatileRow_default⟩
  · rw [chipStep, regByte_setReg_same]
    exact chipByte_of_chipReaches h
  · exact regByte_setReg_other _ _ ha
  · rw [step, h]; rfl
  · rw [beginCall_draw c h]; rfl

/-! ### The year walk and the month walk count Gregorian days (R131) -/

theorem daysToYear_succ {y : Nat} (hy : 1970 ≤ y) : daysToYear (y + 1) = daysToYear y + yearLength y := by
  have hlen : y + 1 - 1970 = (y - 1970) + 1 := by omega
  have hlast : 1970 + (y - 1970) = y := by omega
  simp [daysToYear, hlen, List.range_succ, hlast]

theorem daysToYear_mono {y z : Nat} (hyz : y ≤ z) : daysToYear y ≤ daysToYear z :=
  (((List.range_sublist.mpr (Nat.sub_le_sub_right hyz 1970)).map _).sum_le_sum) fun _ _ => Nat.zero_le _

theorem daysToMonth_succ {m : Nat} (y : Nat) (hm : 1 ≤ m) :
    daysToMonth (m + 1) y = daysToMonth m y + monthLength m y := by
  obtain ⟨k, rfl⟩ : ∃ k, m = k + 1 := ⟨m - 1, by omega⟩
  simp [daysToMonth, List.range_succ]

/-- The twelve months make up the year. -/
theorem daysToMonth_thirteen (y : Nat) : daysToMonth 13 y = yearLength y := by
  cases h : leapg y <;> simp [daysToMonth, yearLength, monthLength, monthDays, List.range_succ, h]

/-- The year walk stops in the year that holds the day, at the day's place in it. -/
theorem yearWalk_spec (fuel : Nat) : ∀ {days year : Nat}, 1970 ≤ year →
    days + daysToYear year < daysToYear (year + fuel + 1) →
    ∃ d y, yearWalk fuel days year = (d, y) ∧ year ≤ y ∧ y ≤ year + fuel ∧
      d + daysToYear y = days + daysToYear year ∧ d < yearLength y := by
  induction fuel with
  | zero =>
    intro days year hyear hdays
    rw [Nat.add_zero, daysToYear_succ hyear] at hdays
    exact ⟨days, year, rfl, le_rfl, le_rfl, rfl, by omega⟩
  | succ fuel ih =>
    intro days year hyear hdays
    unfold yearWalk
    split
    case isTrue hle =>
      have hsucc := daysToYear_succ hyear
      have hfuel : year + 1 + fuel = year + (fuel + 1) := by omega
      obtain ⟨d, y, heq, hlo, hhi, hsum, hlt⟩ := @ih (days - yearLength year) (year + 1) (by omega)
        (by rw [hfuel]; omega)
      exact ⟨d, y, heq, by omega, by omega, by omega, hlt⟩
    case isFalse hlt => exact ⟨days, year, rfl, le_rfl, Nat.le_add_right _ _, rfl, by omega⟩

/-- The month walk stops in the month that holds the day, at the day's place in it. -/
theorem monthWalk_spec (fuel : Nat) (year : Nat) : ∀ {days month : Nat}, 1 ≤ month → 1 ≤ days →
    days + daysToMonth month year ≤ daysToMonth (month + fuel + 1) year →
    ∃ d m, monthWalk fuel days month year = (d, m) ∧ month ≤ m ∧ m ≤ month + fuel ∧
      d + daysToMonth m year = days + daysToMonth month year ∧ 1 ≤ d ∧ d ≤ monthLength m year := by
  induction fuel with
  | zero =>
    intro days month hmonth hd hdays
    rw [Nat.add_zero, daysToMonth_succ year hmonth] at hdays
    exact ⟨days, month, rfl, le_rfl, le_rfl, rfl, hd, by omega⟩
  | succ fuel ih =>
    intro days month hmonth hd hdays
    unfold monthWalk
    split
    case isTrue hlt =>
      have hsucc := daysToMonth_succ year hmonth
      have hfuel : month + 1 + fuel = month + (fuel + 1) := by omega
      obtain ⟨d, m, heq, hlo, hhi, hsum, hpos, hle⟩ := @ih (days - monthLength month year) (month + 1) (by omega)
        (by omega) (by rw [hfuel]; omega)
      exact ⟨d, m, heq, by omega, by omega, by omega, hpos, hle⟩
    case isFalse hle => exact ⟨days, month, rfl, le_rfl, Nat.le_add_right _ _, rfl, hd, by omega⟩

theorem monthLength_le {m : Nat} (y : Nat) (hm : m ≤ 12) : monthLength m y ≤ 31 := by
  have hdays : ∀ k ≤ 12, monthDays k ≤ 31 := by decide
  unfold monthLength
  split
  · decide
  · exact hdays m hm

theorem dayOfWeek_range (y m d : Nat) : 1 ≤ dayOfWeek y m d ∧ dayOfWeek y m d ≤ 7 := by
  unfold dayOfWeek
  generalize (y : Int) - (if m < 3 then 1 else 0) = Y, (dowTable m : Int) = mt
  dsimp only
  split <;> omega

/-- A day of year y falls in or after year z exactly when it is not before z's first day. -/
theorem le_year_iff_daysToYear_le {y n : Nat} (hlo : daysToYear y ≤ n) (hhi : n < daysToYear (y + 1)) (z : Nat) :
    z ≤ y ↔ daysToYear z ≤ n := by
  refine ⟨fun h => (daysToYear_mono h).trans hlo, fun h => ?_⟩
  by_contra hlt
  have hmono : daysToYear (y + 1) ≤ daysToYear z := daysToYear_mono (Nat.lt_of_not_le hlt)
  omega

/-- `to_datetime` gives the Gregorian date of the day and the time of day, whatever the time (R131). -/
theorem toDateTime_eq (t : UnixTime) : ∃ y m d : Nat,
    toDateTime t = ⟨BitVec.ofNat 8 (t.toNat % 86400 % 60), BitVec.ofNat 8 (t.toNat % 86400 % 3600 / 60),
      BitVec.ofNat 8 (t.toNat % 86400 / 3600), BitVec.ofNat 8 (dayOfWeek y m d), BitVec.ofNat 8 d,
      BitVec.ofNat 8 m, BitVec.ofNat 16 y, 1⟩ ∧
    (1970 ≤ y ∧ y ≤ 2106) ∧ (1 ≤ m ∧ m ≤ 12) ∧ (1 ≤ d ∧ d ≤ monthLength m y) ∧
    daysToYear y + daysToMonth m y + d = t.toNat / 86400 + 1 ∧ t.toNat / 86400 < daysToYear (y + 1) := by
  have hbound : daysToYear 2107 = 50038 := by decide +kernel
  have hday : t.toNat / 86400 + daysToYear 1970 < daysToYear (1970 + yearWalkBound + 1) := by
    rw [show 1970 + yearWalkBound + 1 = 2107 from rfl, hbound, show daysToYear 1970 = 0 from rfl]
    omega
  obtain ⟨r, y, hyear, hlo, hhi, hsum, hlt⟩ := yearWalk_spec yearWalkBound le_rfl hday
  have hrest : r + 1 + daysToMonth 1 y ≤ daysToMonth (1 + monthWalkBound + 1) y := by
    rw [show 1 + monthWalkBound + 1 = 13 from rfl, daysToMonth_thirteen, show daysToMonth 1 y = 0 from rfl]
    omega
  obtain ⟨d, m, hmonth, hm, hm', hsum', hd, hd'⟩ := monthWalk_spec monthWalkBound y le_rfl (Nat.succ_pos r) hrest
  rw [show daysToYear 1970 = 0 from rfl] at hsum
  rw [show daysToMonth 1 y = 0 from rfl] at hsum'
  have hsucc := daysToYear_succ hlo
  exact ⟨y, m, d, by simp only [toDateTime, hyear, hmonth], ⟨hlo, hhi⟩, ⟨hm, hm'⟩, ⟨hd, hd'⟩, by omega, by omega⟩

/-! ### Validation (R151, R243) -/

theorem validDateTime_iff (dt : DateTime) : validDateTime dt = true ↔ legalFields dt := by
  simp only [validDateTime, within, legalFields, Bool.and_eq_true, decide_eq_true_eq]
  omega

/-- SETU's date-time is legal exactly inside the window 2000-01-01 to 2099-12-31 (R156). -/
theorem legalFields_toDateTime_iff (t : UnixTime) :
    legalFields (toDateTime t) ↔ 946684800 ≤ t.toNat ∧ t.toNat ≤ 4102444799 := by
  obtain ⟨y, m, d, heq, hy, hm, hd, hday, hlast⟩ := toDateTime_eq t
  have hstart : 2000 ≤ y ↔ 10957 ≤ t.toNat / 86400 := by
    rw [le_year_iff_daysToYear_le (by omega) hlast, show daysToYear 2000 = 10957 by decide +kernel]
  have hend : 2100 ≤ y ↔ 47482 ≤ t.toNat / 86400 := by
    rw [le_year_iff_daysToYear_le (by omega) hlast, show daysToYear 2100 = 47482 by decide +kernel]
  have hlen := monthLength_le y hm.2
  have hdow := dayOfWeek_range y m d
  simp only [heq, legalFields, BitVec.toNat_ofNat]
  omega

/-- SETU fails validation exactly where the date-time of its operand is illegal (R156, R243). -/
theorem failsValidation_setu_iff (u : UnixTime) : failsValidation (.setu u) ↔ ¬ legalFields (toDateTime u) := by
  rw [legalFields_toDateTime_iff, failsValidation]
  omega

/-! ### A decoded command is in canonical form (R82, R85) -/

/-- The decoder answers commands in canonical form only; the two `if`s are the alarm setters' modes. -/
theorem decode_wellFormed {c : Command} {i : Instr} (h : decode c = .ok i) : i.wellFormed = true := by
  unfold decode at h
  split at h
  case h_13 | h_15 =>
    split at h
    case isTrue hmode => cases h; simp [Instr.wellFormed, hmode]
    case isFalse => cases h
  all_goals cases h <;> rfl

theorem patternOf_alarm1Modes {mode : BitVec 3} (h : mode.toNat ≤ 4) :
    ∃ bits, patternOf alarm1Modes mode = some bits := by
  have hall : ∀ m : BitVec 3, m.toNat ≤ 4 → (patternOf alarm1Modes m).isSome := by decide
  exact Option.isSome_iff_exists.mp (hall mode h)

theorem patternOf_alarm2Modes {mode : BitVec 3} (h : mode.toNat ≤ 3) :
    ∃ bits, patternOf alarm2Modes mode = some bits := by
  have hall : ∀ m : BitVec 3, m.toNat ≤ 3 → (patternOf alarm2Modes m).isSome := by decide
  exact Option.isSome_iff_exists.mp (hall mode h)

/-! ### The calls of a command (R57, R244) -/

/-- From `s` to `t` a command makes calls of these shapes in order, with its draws, and ends at the first that
fails with TransportFailure, or after all of them with STATUS 0. -/
inductive MakesCalls : List CallShape → State → State → Prop
  | done {s t : State} : t.status = some 0x00 → t.made = s.made → t.draws = s.draws → MakesCalls [] s t
  | failed {s t : State} (c : TransportCall) (rest : List CallShape) : (nextDraw s).ok = false →
      t.status = some 0x01 → t.made = s.made ++ [c] → t.draws = s.draws.tail → MakesCalls (c.shape :: rest) s t
  | call {s u t : State} (c : TransportCall) {rest : List CallShape} : (nextDraw s).ok = true →
      u.made = s.made ++ [c] → u.draws = s.draws.tail → MakesCalls rest u t → MakesCalls (c.shape :: rest) s t

/-- What `MakesCalls` says, with the calls made and the draws used written out. -/
theorem MakesCalls.exists_calls {shapes : List CallShape} {s t : State} (h : MakesCalls shapes s t) :
    ∃ (cs : List TransportCall) (k : Nat), t.made = s.made ++ cs ∧ cs.map TransportCall.shape = shapes.take k ∧
      t.draws = s.draws.drop k ∧
      ((t.status = some 0x00 ∧ k = shapes.length) ∨ (t.status = some 0x01 ∧ 0 < k ∧ k ≤ shapes.length)) ∧
      (shapes.length ≤ s.draws.length →
        if (s.draws.take shapes.length).all (·.ok) then t.status = some 0x00
        else t.status = some 0x01 ∧ k = (s.draws.take shapes.length).findIdx (fun d => !d.ok) + 1) := by
  induction h with
  | done hst hmade hdraws =>
    exact ⟨[], 0, by simp [hmade], rfl, hdraws, .inl ⟨hst, rfl⟩, fun _ => by simpa using hst⟩
  | @failed s t c rest hok hst hmade hdraws =>
    refine ⟨[c], 1, hmade, rfl, by simp [hdraws], .inr ⟨hst, by simp⟩, fun hlen => ?_⟩
    obtain ⟨d, ds, hd⟩ := List.exists_cons_of_length_pos (Nat.zero_lt_of_lt hlen)
    rw [nextDraw_of_draws hd] at hok
    simp [hd, hok, hst, List.findIdx_cons]
  | @call s u t c rest hok hmade hdraws _ ih =>
    obtain ⟨cs, k, hmade', hshape, hdraws', hend, hlisted⟩ := ih
    refine ⟨c :: cs, k + 1, by simp [hmade', hmade], by simp [hshape], by simp [hdraws', hdraws], ?_, fun hlen => ?_⟩
    · rcases hend with ⟨hst, hk⟩ | ⟨hst, _, hk⟩
      · exact .inl ⟨hst, by simp [hk]⟩
      · exact .inr ⟨hst, by simp, by simpa using hk⟩
    · obtain ⟨d, ds, hd⟩ := List.exists_cons_of_length_pos (Nat.zero_lt_of_lt hlen)
      rw [nextDraw_of_draws hd] at hok
      rw [hdraws, hd] at hlisted
      simpa [hd, hok, List.findIdx_cons] using hlisted (by simpa [hd] using hlen)

theorem MakesCalls.complete (fl : Byte) (s : State) : MakesCalls [] s (complete fl s) := .done rfl rfl rfl

theorem MakesCalls.readThen (a : Addr) (n : Nat) {rest : List CallShape} {k : List Byte → State → State} (s : State)
    (hk : ∀ b u, MakesCalls rest u (k b u)) : MakesCalls ((false, a, n) :: rest) s (readThen a n k s) := by
  unfold Machine.readThen
  rcases memRead_cases a n s with ⟨m, hm, hok⟩ | ⟨m, b, hm, _, hok⟩ <;> rw [hm]
  · exact .failed (.read a n) rest hok rfl rfl rfl
  · exact .call (.read a n) hok rfl rfl (hk b _)

theorem MakesCalls.writeThen (a : Addr) (bs : List Byte) {rest : List CallShape} {k : State → State} (s : State)
    (hk : ∀ u, MakesCalls rest u (k u)) : MakesCalls ((true, a, bs.length) :: rest) s (writeThen a bs k s) := by
  unfold Machine.writeThen
  rcases memWrite_cases a bs s with ⟨m, hm, hok⟩ | ⟨m, hm, hok⟩ <;> rw [hm]
  · exact .failed (.write a bs) rest hok rfl rfl rfl
  · exact .call (.write a bs) hok rfl rfl (hk _)

theorem MakesCalls.rmwThen (a : Addr) (mask bits : Byte) {rest : List CallShape} {k : State → State} (s : State)
    (hk : ∀ u, MakesCalls rest u (k u)) :
    MakesCalls ((false, a, 1) :: (true, a, 1) :: rest) s (rmwThen a mask bits k s) :=
  .readThen a 1 s fun _ u => .writeThen a [_] u hk

theorem MakesCalls.setBits (a : Addr) (mask bits : Byte) (s : State) :
    MakesCalls [(false, a, 1), (true, a, 1)] s (setBits a mask bits s) :=
  .rmwThen a mask bits s (.complete _)

/-- An alarm setter writes its block, then changes the control register (R185, R187). -/
theorem MakesCalls.setAlarm (a0 a1 : Addr) (bs : List Byte) (mask bits fl : Byte) (s : State) :
    MakesCalls [(true, a0, bs.length), (false, a1, 1), (true, a1, 1)] s
      (Machine.writeThen a0 bs (Machine.rmwThen a1 mask bits (Machine.complete fl)) s) :=
  .writeThen a0 bs s fun u => .rmwThen a1 mask bits u (.complete fl)

theorem MakesCalls.getBits (a : Addr) (hi lo : Nat) (s : State) :
    MakesCalls [(false, a, 1)] s (getBits a hi lo s) :=
  .readThen a 1 s fun _ _ => .done rfl rfl rfl

theorem MakesCalls.writeTime {dt : DateTime} (h : legalFields dt) (s : State) :
    MakesCalls [(true, 0x00, 7)] s (writeTime dt s) := by
  rw [Machine.writeTime, if_pos ((validDateTime_iff dt).mpr h)]
  exact .writeThen 0x00 (timeBytes dt) s (.complete _)

theorem writeTime_illegal {dt : DateTime} (h : ¬ legalFields dt) (s : State) :
    writeTime dt s = raise .validationFailure s := if_neg (mt (validDateTime_iff dt).mp h)

/-! ### Every command -/

/-- A command that fails validation raises ValidationFailure and makes no call (R243). -/
theorem exec_failsValidation {i : Instr} (s : State) (h : failsValidation i) :
    exec i s = .next (raise .validationFailure s) := by
  cases i
  case setdt dt => exact congrArg _ (writeTime_illegal h s)
  case setu u => exact congrArg _ (writeTime_illegal ((failsValidation_setu_iff u).mp h) s)
  all_goals exact h.elim

/-- Every other command makes the calls of the transfer table (R57). -/
theorem exec_makesCalls {i : Instr} (s : State) (hwf : i.wellFormed = true) (hvalid : ¬ failsValidation i) :
    ∃ t, exec i s = .next t ∧ MakesCalls (callTable i) s t := by
  cases i with
  | bcddec _ | bcdenc _ | u2dt _ | leap4 _ | leapg _ | ldu _ => exact ⟨_, rfl, .done rfl rfl rfl⟩
  | dt2u _ | dow _ =>
    refine ⟨_, rfl, ?_⟩
    split <;> exact .done rfl rfl rfl
  | setdt dt => exact ⟨_, rfl, .writeTime (not_not.mp hvalid) s⟩
  | setu u => exact ⟨_, rfl, .writeTime (not_not.mp (mt (failsValidation_setu_iff u).mpr hvalid)) s⟩
  | getdt => exact ⟨_, rfl, .readThen _ _ s fun _ _ => .done rfl rfl rfl⟩
  | getu =>
    refine ⟨_, rfl, .readThen _ _ s fun _ _ => ?_⟩
    split <;> exact .done rfl rfl rfl
  | setal1 al =>
    obtain ⟨bits, hbits⟩ := patternOf_alarm1Modes (of_decide_eq_true hwf)
    refine ⟨_, rfl, ?_⟩
    rw [hbits]
    exact .setAlarm 0x07 0x0E (alarm1Bytes bits al) _ _ _ s
  | setal2 al =>
    obtain ⟨bits, hbits⟩ := patternOf_alarm2Modes (of_decide_eq_true (Bool.and_eq_true_iff.mp hwf).2)
    refine ⟨_, rfl, ?_⟩
    rw [hbits]
    exact .setAlarm 0x0B 0x0E (alarm2Bytes bits al) _ _ _ s
  | getal1 | getal2 => exact ⟨_, rfl, .readThen _ _ s fun _ u => .readThen _ _ u fun _ _ => .done rfl rfl rfl⟩
  | seteosc _ | setbbsqw _ | setrs _ | setintcn _ | seta1ie _ | seta2ie _ | seten32k _ | clra1f | clra2f
  | clrosf => exact ⟨_, rfl, .setBits _ _ _ s⟩
  | geteosc | getbbsqw | getrs | getintcn | geta1ie | geta2ie | geten32k | geta1f | geta2f | getosf
  | getbsy => exact ⟨_, rfl, .getBits _ _ _ s⟩

/-- Every transfer of the table lies within 0x00 to 0x0F (R57). -/
theorem callTable_within (i : Instr) : ∀ c ∈ callTable i, c.2.1.toNat + c.2.2 ≤ 0x10 := by
  have hall : (callTable i).all (fun c => decide (c.2.1.toNat + c.2.2 ≤ 0x10)) = true := by cases i <;> rfl
  simpa only [List.all_eq_true, decide_eq_true_eq] using hall

theorem present_of_decode {c : Command} {i : Instr} (h : decode c = .ok i) (s : State) :
    present c s = exec i s := by
  rw [present, h]

theorem present_of_not_decode {c : Command} (h : ∀ i, decode c ≠ .ok i) (s : State) :
    present c s = .next (raise .illegalCommand s) := by
  unfold present
  split
  case h_1 i hi => exact absurd hi (h i)
  case h_2 => rfl

/-- Settles O24: each command is a sequence of reads and writes whose shapes are its row of the transfer table. -/
theorem firstFailedCallEndsTheCommand : Obligations.FirstFailedCallEndsTheCommand := by
  refine ⟨fun c s => ⟨fun h => present_of_not_decode h s, fun i hi => ⟨fun hfail => ?_, fun hvalid => ?_⟩⟩,
    fun i w a n h => callTable_within i _ h⟩
  · exact (present_of_decode hi s).trans (exec_failsValidation s hfail)
  · obtain ⟨t, ht, hcalls⟩ := exec_makesCalls s (decode_wellFormed hi) hvalid
    obtain ⟨cs, k, hmakes⟩ := hcalls.exists_calls
    exact ⟨t, cs, k, (present_of_decode hi s).trans ht, hmakes⟩

end Sys2Proof.Machine

/-! PROOFS. The statements of 30_encoding.md: which tuples decode (R83 to R85, R87), to which command (R82), what a
tuple that does not decode does (R84, R85), and the pseudo-instructions (R89). -/

namespace Sys2Proof.Machine

open Sys2Proof

/-! ### Which tuples decode (R83, R84, R85, R87) -/

theorem decode_setal1 {c : Command} (hop : c.op = 0x28) (hmode : c.al.mode.toNat ≤ 4) :
    decode c = .ok (.setal1 c.al) := by
  simp [decode, hop, hmode]

theorem decode_setal2 {c : Command} (hop : c.op = 0x2A) (hmode : c.al.mode.toNat ≤ 3) :
    decode c = .ok (.setal2 { c.al with sec := 0 }) := by
  simp [decode, hop, hmode]

/-- Every assigned OP but those of the two alarm setters is an arm of the decoder with no further check. -/
theorem exists_decode_of_assigned {c : Command} (hop : c.op ∈ assignedOpcodes) (h1 : c.op ≠ 0x28) (h2 : c.op ≠ 0x2A) :
    ∃ i, decode c = .ok i := by
  unfold decode
  split
  case h_13 heq => exact absurd heq h1
  case h_15 heq => exact absurd heq h2
  case h_38 => simp_all [assignedOpcodes]
  all_goals exact ⟨_, rfl⟩

/-- What the decoder has checked when it answers a command: OP, then the mode of an alarm setter. -/
theorem checks_of_decode {c : Command} {i : Instr} (h : decode c = .ok i) :
    c.op ∈ assignedOpcodes ∧ (c.op = 0x28 → c.al.mode.toNat ≤ 4) ∧ (c.op = 0x2A → c.al.mode.toNat ≤ 3) := by
  unfold decode at h
  split at h
  case h_13 heq | h_15 heq =>
    split at h
    case isTrue hmode => simp [heq, assignedOpcodes, hmode]
    case isFalse => cases h
  case h_38 => cases h
  all_goals simp_all [assignedOpcodes]

theorem exists_decode_iff (c : Command) : (∃ i, decode c = .ok i) ↔
    c.op ∈ assignedOpcodes ∧ (c.op = 0x28 → c.al.mode.toNat ≤ 4) ∧ (c.op = 0x2A → c.al.mode.toNat ≤ 3) := by
  refine ⟨fun ⟨i, hi⟩ => checks_of_decode hi, fun ⟨hop, hmode1, hmode2⟩ => ?_⟩
  by_cases h1 : c.op = 0x28
  · exact ⟨_, decode_setal1 h1 (hmode1 h1)⟩
  · by_cases h2 : c.op = 0x2A
    · exact ⟨_, decode_setal2 h2 (hmode2 h2)⟩
    · exact exists_decode_of_assigned hop h1 h2

/-! ### A tuple that does not decode (R84, R85, R242) -/

theorem step_issue {s : State} {c : Command} {rest : List Event} (h : s.agenda = .issue c :: rest) :
    step s = present c { s with agenda := rest } := by
  rw [step, h]
  rfl

/-- The whole effect of a step on a tuple that spells no command. -/
theorem step_of_not_decode {s : State} {c : Command} {rest : List Event} (h : s.agenda = .issue c :: rest)
    (hdec : ∀ i, decode c ≠ .ok i) :
    step s = .next { s with agenda := rest, status := some 0x03, flags := some 0x00 } :=
  (step_issue h).trans (present_of_not_decode hdec _)

/-- Settles O5: the decoder's checks are exactly OP and the alarm setters' modes. -/
theorem decodingIsTotal : Obligations.DecodingIsTotal :=
  ⟨exists_decode_iff, fun _ _ _ hag hdec => step_of_not_decode hag hdec⟩

/-- The list of R83's OP values is the complement of R84's ranges. -/
theorem mem_assignedOpcodes_iff (op : Byte) :
    op ∈ assignedOpcodes ↔ ¬ (op.toNat = 0x00 ∨ (0x03 ≤ op.toNat ∧ op.toNat ≤ 0x0F) ∨
      (0x16 ≤ op.toNat ∧ op.toNat ≤ 0x1F) ∨ (0x24 ≤ op.toNat ∧ op.toNat ≤ 0x27) ∨
      (0x2C ≤ op.toNat ∧ op.toNat ≤ 0x2F) ∨ (0x3A ≤ op.toNat ∧ op.toNat ≤ 0x3F) ∨ 0x4B ≤ op.toNat) := by
  simp only [assignedOpcodes, List.cons_append, List.nil_append, List.mem_cons, List.not_mem_nil, or_false,
    ← BitVec.toNat_inj, BitVec.reduceToNat]
  omega

/-- Settles O3: a reserved OP does not decode. -/
theorem reservedOpcodeRaisesIllegalCommand : Obligations.ReservedOpcodeRaisesIllegalCommand :=
  ⟨mem_assignedOpcodes_iff, fun _ _ _ hop hag =>
    step_of_not_decode hag fun _ hi => hop (checks_of_decode hi).1⟩

/-! ### Reserved alarm modes (R85) -/

theorem patternOf_alarm1Modes_eq_none {mode : BitVec 3} (h : 4 < mode.toNat) : patternOf alarm1Modes mode = none := by
  have hall : ∀ m : BitVec 3, 4 < m.toNat → patternOf alarm1Modes m = none := by decide
  exact hall mode h

theorem patternOf_alarm2Modes_eq_none {mode : BitVec 3} (h : 3 < mode.toNat) : patternOf alarm2Modes mode = none := by
  have hall : ∀ m : BitVec 3, 3 < m.toNat → patternOf alarm2Modes m = none := by decide
  exact hall mode h

theorem exec_setal1_reservedMode {al : AlarmRecord} (h : 4 < al.mode.toNat) (s : State) :
    exec (.setal1 al) s = .next (raise .illegalCommand s) := by
  rw [exec, execSetal1, patternOf_alarm1Modes_eq_none h]

theorem exec_setal2_reservedMode {al : AlarmRecord} (h : 3 < al.mode.toNat) (s : State) :
    exec (.setal2 al) s = .next (raise .illegalCommand s) := by
  rw [exec, execSetal2, patternOf_alarm2Modes_eq_none h]

/-- Settles O4: a reserved mode fails the decoder's check, and it has no mode bits for the meaning to write. -/
theorem reservedAlarmModeRaisesIllegalCommand : Obligations.ReservedAlarmModeRaisesIllegalCommand := by
  refine ⟨fun a dt al s rest => ⟨fun hmode hag => ?_, fun hmode hag => ?_⟩,
    fun al s => ⟨fun h => exec_setal1_reservedMode h s, fun h => exec_setal2_reservedMode h s⟩,
    fun c => exists_decode_of_assigned⟩
  · refine step_of_not_decode hag fun i hi => ?_
    obtain ⟨-, hlegal, -⟩ := checks_of_decode hi
    exact hmode.not_ge (hlegal rfl)
  · refine step_of_not_decode hag fun i hi => ?_
    obtain ⟨-, -, hlegal⟩ := checks_of_decode hi
    exact hmode.not_ge (hlegal rfl)

/-! ### The operand each OP selects (R82, R83) -/

theorem portBits_eq_extractLsb' (a : BitVec 32) (w : Nat) : portBits a w = a.extractLsb' 0 w := by
  ext i
  simp [portBits]

/-- Settles O2: each conjunct is the decoder's own arm, whose port bits are the low bits of A. -/
theorem eachOpcodeSelectsItsCommand : Obligations.EachOpcodeSelectsItsCommand := by
  refine ⟨fun a dt al => ?_, fun c i h => (checks_of_decode h).1⟩
  simp only [← portBits_eq_extractLsb']
  exact ⟨rfl, rfl, rfl, rfl, rfl, rfl, rfl, rfl, rfl, rfl, rfl, rfl, rfl, rfl, rfl, rfl,
    rfl, rfl, rfl, rfl, rfl, rfl, rfl, rfl, rfl, rfl, rfl, rfl, rfl, rfl, rfl, rfl,
    ⟨_, rfl, rfl, rfl, rfl, rfl, rfl, rfl⟩, ⟨_, rfl, rfl, rfl, rfl⟩, ⟨_, rfl, rfl, rfl, rfl, rfl, rfl, rfl, rfl⟩,
    fun hmode => decode_setal1 (c := ⟨0x28, a, dt, al⟩) rfl hmode,
    fun hmode => ⟨_, decode_setal2 rfl hmode, rfl, rfl, rfl, rfl, rfl, rfl⟩⟩

/-! ### The pseudo-instructions (R89) -/

theorem mnemonic_mem_of_asmCore {m : String} {o : AsmOperand} {c : Command} (h : asmCore m o = some c) :
    m ∈ asmTable.map (·.mnemonic) := by
  unfold asmCore at h
  split at h
  case h_1 r hr =>
    obtain rfl : r.mnemonic = m := by simpa using List.find?_some hr
    exact List.mem_map_of_mem (List.mem_of_find?_eq_some hr)
  case h_2 => cases h

theorem assemble_of_not_pseudo {m : String} (o : AsmOperand) (hAlarm : m ≠ "ALARMMODE") (hSqw : m ≠ "SQWMODE") :
    assemble m o = asmCore m o := by
  simp [assemble, hAlarm, hSqw]

theorem assemble_alarmmode : assemble "ALARMMODE" .none = some (scalarCommand 0x33 (1 : Bit)) := by decide +kernel

theorem assemble_sqwmode : assemble "SQWMODE" .none = some (scalarCommand 0x33 (0 : Bit)) := by decide +kernel

theorem assemble_setintcn (v : Bit) : assemble "SETINTCN" (.imm v.toNat) = some (scalarCommand 0x33 v) := by
  revert v; decide +kernel

/-- Settles O10: both lines present SETINTCN, and any other line is looked up in the table. -/
theorem pseudoInstructionsExpandToSetintcn : Obligations.PseudoInstructionsExpandToSetintcn := by
  refine ⟨assemble_alarmmode.trans (assemble_setintcn 1).symm, assemble_sqwmode.trans (assemble_setintcn 0).symm,
    ?_, ?_, fun m o c h hAlarm hSqw => ?_⟩
  · rw [assemble_alarmmode]; rfl
  · rw [assemble_sqwmode]; rfl
  · exact mnemonic_mem_of_asmCore ((assemble_of_not_pseudo o hAlarm hSqw).symm.trans h)

end Sys2Proof.Machine

/-! PROOFS. The statements of 40_bcd_codec.md: the two functions of the codec as their formulas (R101 to R103), and
the commands that expose them (R104, R105). -/

namespace Sys2Proof.Machine

open Sys2Proof

/-! ### The nibbles of a byte (R100) -/

theorem toNat_highNibble (b : Byte) : (b.extractLsb 7 4).toNat = b.toNat / 16 := by
  have hb : b.toNat < 256 := b.isLt
  rw [BitVec.extractLsb_toNat, Nat.shiftRight_eq_div_pow]
  omega

theorem toNat_lowNibble (b : Byte) : (b.extractLsb 3 0).toNat = b.toNat % 16 := by
  rw [BitVec.extractLsb_toNat, Nat.shiftRight_zero]

/-! ### The codec's functions are the rules' formulas (R101 to R103) -/

theorem bcdDec_eq_bcdValue (b : Byte) : bcdDec b = BitVec.ofNat 8 (bcdValue b) := by
  rw [bcdDec, toNat_highNibble, toNat_lowNibble, bcdValue]

theorem nbcd_eq_notBcd (b : Byte) : nbcd b = notBcd b := by
  rw [nbcd, toNat_highNibble, toNat_lowNibble, notBcd]

/-- The OR is the sum (R102): the units digit is below 16, and the shifted tens count has a zero low nibble. -/
theorem bcdEnc_eq_bcdOf (v : Byte) : bcdEnc v = bcdOf v.toNat := by
  have hdigit : v.toNat % 10 < 2 ^ 4 := by omega
  rw [bcdEnc, bcdOf, ← Nat.shiftLeft_add_eq_or_of_lt hdigit, Nat.shiftLeft_eq]

/-! ### The flags the codec writes (R26) -/

theorem notBcd_eq_true_iff (b : Byte) : notBcd b = true ↔ 9 < b.toNat / 16 ∨ 9 < b.toNat % 16 := by
  simp [notBcd]

theorem overNinetyNine_eq_true_iff (v : Byte) : overNinetyNine v = true ↔ 99 < v.toNat := by
  simp [overNinetyNine]

theorem flagNbcd_eq_ite (p : Bool) : flagNbcd p = if p then 0x01 else 0x00 := rfl

theorem flagRange_eq_ite (p : Bool) : flagRange p = if p then 0x02 else 0x00 := by cases p <;> rfl

/-! ### The two commands (R104, R105) -/

theorem exec_bcddec (b : Byte) (s : State) :
    exec (.bcddec b) s = .next (complete (flagNbcd (nbcd b)) { s with resB := some (bcdDec b) }) := rfl

theorem exec_bcdenc (v : Byte) (s : State) :
    exec (.bcdenc v) s = .next (complete (flagRange (overNinetyNine v)) { s with resB := some (bcdEnc v) }) := rfl

/-- Settles O32: the extracted nibbles are the quotient and the remainder by 16. -/
theorem bcddecDecodesByTheFormula : Obligations.BcddecDecodesByTheFormula := by
  refine ⟨fun a dt al => ?_, fun b s => ?_⟩
  · rw [← portBits_eq_extractLsb']; rfl
  · simp only [exec_bcddec, bcdDec_eq_bcdValue, nbcd_eq_notBcd, flagNbcd_eq_ite, notBcd_eq_true_iff]
    rfl

/-- Settles O33: the OR of the two digits is their sum. -/
theorem bcdencEncodesByTheFormula : Obligations.BcdencEncodesByTheFormula := by
  refine ⟨fun a dt al => ?_, fun v s => ?_⟩
  · rw [← portBits_eq_extractLsb']; rfl
  · simp only [exec_bcdenc, bcdEnc_eq_bcdOf, flagRange_eq_ite, overNinetyNine_eq_true_iff]
    rfl

end Sys2Proof.Machine

/-! PROOFS. The statements of 41_calendar.md: the leap tests, LDU and the weekday by their formulas (R127, R134 to
R137), the sum of DT2U (R129, R130, R132), and the round trip inside 2000-2099 (R138). -/

namespace Sys2Proof.Machine

open Sys2Proof

/-! ### The leap tests and LDU (R122, R123, R135 to R137) -/

theorem leap4_eq_true_iff (y : Nat) : leap4 y = true ↔ y % 4 = 0 := by
  simp [leap4]

theorem leapg_eq_true_iff (y : Nat) : leapg y = true ↔ y % 400 = 0 ∨ (y % 4 = 0 ∧ y % 100 ≠ 0) := by
  simp [leapg]

theorem exec_leap4 (y : Year) (s : State) :
    exec (.leap4 y) s = .next (complete 0x00 { s with resB := some (boolByte (leap4 y.toNat)) }) := rfl

theorem exec_leapg (y : Year) (s : State) :
    exec (.leapg y) s = .next (complete 0x00 { s with resB := some (boolByte (leapg y.toNat)) }) := rfl

/-- Settles O35: the two tests are the rules' conditions. -/
theorem leapTestsFollowTheirRules : Obligations.LeapTestsFollowTheirRules := by
  refine ⟨fun a dt al => ?_, fun y s => ?_⟩
  · simp only [← portBits_eq_extractLsb']
    exact ⟨rfl, rfl⟩
  · simp only [exec_leap4, exec_leapg, boolByte, leap4_eq_true_iff, leapg_eq_true_iff]
    exact ⟨rfl, rfl⟩

/-- Settles O36: all 32 bits of A are the operand. -/
theorem lduLoadsTheUnixResult : Obligations.LduLoadsTheUnixResult := by
  refine ⟨fun a dt al => ?_, fun u s => rfl⟩
  have hport : portBits a 32 = a := BitVec.setWidth_eq a
  exact congrArg (fun u => Except.ok (Instr.ldu u)) hport

/-! ### The weekday (R127, R134) -/

theorem monthInTable_eq_true_iff (m : Byte) : monthInTable m = true ↔ 1 ≤ m.toNat ∧ m.toNat ≤ 12 := by
  simp [monthInTable]

/-- The weekday with floor division and floor remainder, as R127 writes them. -/
theorem dayOfWeek_eq_floor (y m d : Nat) {Y r : Int} (hY : Y = (y : Int) - (if m < 3 then 1 else 0))
    (hr : r = (Y + Y.fdiv 4 - Y.fdiv 100 + Y.fdiv 400 + (dowTable m : Int) + (d : Int)).fmod 7) :
    dayOfWeek y m d = if r = 0 then 7 else r.toNat := by
  simp only [Int.fdiv_eq_ediv_of_nonneg _ (show (0 : Int) ≤ 4 by decide),
    Int.fdiv_eq_ediv_of_nonneg _ (show (0 : Int) ≤ 100 by decide),
    Int.fdiv_eq_ediv_of_nonneg _ (show (0 : Int) ≤ 400 by decide),
    Int.fmod_eq_emod_of_nonneg _ (show (0 : Int) ≤ 7 by decide)] at hr
  rw [hr, hY, dayOfWeek]

theorem exec_dow_inTable {dt : DateTime} (h : 1 ≤ dt.month.toNat ∧ dt.month.toNat ≤ 12) (s : State) :
    exec (.dow dt) s = .next (complete 0x00
      { s with resB := some (BitVec.ofNat 8 (dayOfWeek dt.year.toNat dt.month.toNat dt.date.toNat)) }) := by
  rw [exec, execDow, if_pos ((monthInTable_eq_true_iff _).mpr h)]

theorem exec_dow_outsideTable {dt : DateTime} (h : ¬ (1 ≤ dt.month.toNat ∧ dt.month.toNat ≤ 12)) (s : State) :
    exec (.dow dt) s = .next (complete 0x00 s) := by
  rw [exec, execDow, if_neg (mt (monthInTable_eq_true_iff _).mp h)]

/-- Settles O40: floor division by a positive divisor is the integers' own. -/
theorem dowWritesTheCongruence : Obligations.DowWritesTheCongruence := by
  refine ⟨fun a dt al => ⟨_, rfl, rfl, rfl, rfl⟩, fun dt s Y r hY hr => ⟨fun hm => ?_, exec_dow_outsideTable (s := s)⟩⟩
  rw [exec_dow_inTable hm, dayOfWeek_eq_floor dt.year.toNat dt.month.toNat dt.date.toNat hY hr]
  rfl

/-! ### The sum of DT2U (R121, R129, R130, R132) -/

/-- `CUM` is the running sum of `MDAYS` (R121). -/
theorem daysBeforeMonth_eq_sum {m : Nat} (hm : m ≤ 12) :
    daysBeforeMonth m = ((List.range (m - 1)).map (fun k => monthDays (k + 1))).sum := by
  have hall : ∀ k ≤ 12, daysBeforeMonth k = ((List.range (k - 1)).map (fun j => monthDays (j + 1))).sum := by decide
  exact hall m hm

theorem toUnix_eq_unixSum {dt : DateTime} (hm : dt.month.toNat ≤ 12) : toUnix dt = unixSum dt := by
  simp only [toUnix, unixDays, unixSum, epoch2000, daysBeforeMonth_eq_sum hm, leap4_eq_true_iff]

theorem acceptsUnix_eq_true_iff (dt : DateTime) :
    acceptsUnix dt = true ↔ 2000 ≤ dt.year.toNat ∧ 1 ≤ dt.month.toNat ∧ dt.month.toNat ≤ 12 := by
  simp only [acceptsUnix, Bool.and_eq_true, decide_eq_true_eq, monthInTable_eq_true_iff]

theorem exec_dt2u_accepted {dt : DateTime} (h : 2000 ≤ dt.year.toNat ∧ 1 ≤ dt.month.toNat ∧ dt.month.toNat ≤ 12)
    (s : State) : exec (.dt2u dt) s = .next (complete 0x00 { s with resU := some (toUnix dt) }) := by
  rw [exec, execDt2u, if_pos ((acceptsUnix_eq_true_iff dt).mpr h)]

theorem exec_dt2u_rejected {dt : DateTime}
    (h : ¬ (2000 ≤ dt.year.toNat ∧ 1 ≤ dt.month.toNat ∧ dt.month.toNat ≤ 12)) (s : State) :
    exec (.dt2u dt) s = .next (complete 0x00 s) := by
  rw [exec, execDt2u, if_neg (mt (acceptsUnix_eq_true_iff dt).mp h)]

/-- Settles O37: the cumulative table adds up the month lengths. -/
theorem dt2uSumsOrLeavesResU : Obligations.Dt2uSumsOrLeavesResU := by
  refine ⟨fun a dt al => ⟨_, rfl, rfl, rfl, rfl, rfl, rfl, rfl⟩,
    fun dt s => ⟨fun ⟨hy, hm, hm'⟩ => ?_, exec_dt2u_rejected (s := s)⟩⟩
  rw [exec_dt2u_accepted ⟨hy, hm, hm'⟩, toUnix_eq_unixSum hm']
  rfl

/-! ### Inside 2000-2099 the sum is the Gregorian second count (R122, R123, R130) -/

/-- The two leap tests agree from 1901 to 2099. -/
theorem leapg_eq_leap4 {y : Nat} (hlo : 1901 ≤ y) (hhi : y ≤ 2099) : leapg y = leap4 y := by
  rw [Bool.eq_iff_iff, leapg_eq_true_iff, leap4_eq_true_iff]
  omega

theorem daysToYear_eq {y : Nat} (hlo : 2000 ≤ y) (hhi : y ≤ 2100) :
    daysToYear y = 10957 + 365 * (y - 2000) + (y - 2000 + 3) / 4 := by
  induction y, hlo using Nat.le_induction with
  | base => decide +kernel
  | succ y hy ih =>
    have hleap : leapg y = true ↔ y % 4 = 0 := by rw [leapg_eq_leap4 (by omega) (by omega), leap4_eq_true_iff]
    rw [daysToYear_succ (by omega), ih (by omega), yearLength]
    simp only [hleap]
    split <;> omega

theorem daysToMonth_eq {m : Nat} (y : Nat) (hlo : 1 ≤ m) (hhi : m ≤ 12) :
    daysToMonth m y = daysBeforeMonth m + (if m > 2 ∧ leapg y then 1 else 0) := by
  have hcum : ∀ k < 12, 1 ≤ k → daysBeforeMonth (k + 1) = daysBeforeMonth k + monthDays k := by decide
  induction m, hlo using Nat.le_induction with
  | base => rfl
  | succ m hm ih =>
    rw [daysToMonth_succ y hm, ih (by omega), hcum m hhi hm, monthLength]
    cases leapg y with
    | false => simp
    | true =>
      have hfeb : m = 2 → monthDays m = 28 := by rintro rfl; rfl
      simp only [and_true]
      split_ifs <;> omega

theorem toUnix_eq_gregorianSeconds {dt : DateTime} (hy : 2000 ≤ dt.year.toNat ∧ dt.year.toNat ≤ 2099)
    (hm : 1 ≤ dt.month.toNat ∧ dt.month.toNat ≤ 12) (hd : 1 ≤ dt.date.toNat) :
    toUnix dt = BitVec.ofNat 32 (gregorianSeconds dt) := by
  have hdays : unixDays dt =
      ((daysToYear dt.year.toNat + daysToMonth dt.month.toNat dt.year.toNat + (dt.date.toNat - 1) : Nat) : Int)
        - 10957 := by
    rw [daysToYear_eq hy.1 (by omega), daysToMonth_eq _ hm.1 hm.2, leapg_eq_leap4 (by omega) hy.2, unixDays]
    split <;> omega
  rw [toUnix, hdays, epoch2000, ← BitVec.ofInt_natCast, gregorianSeconds]
  congr 1
  omega

/-! ### A Gregorian date-time and its second count determine each other -/

theorem properDateTime_iff (dt : DateTime) : properDateTime dt = true ↔
    1 ≤ dt.year.toNat ∧ (1 ≤ dt.month.toNat ∧ dt.month.toNat ≤ 12) ∧
    (1 ≤ dt.date.toNat ∧ dt.date.toNat ≤ monthLength dt.month.toNat dt.year.toNat) ∧
    dt.hour.toNat ≤ 23 ∧ dt.min.toNat ≤ 59 ∧ dt.sec.toNat ≤ 59 := by
  simp only [properDateTime, gregorianDate, Bool.and_eq_true, decide_eq_true_eq]
  tauto

theorem daysToMonth_mono {m n : Nat} (y : Nat) (hmn : m ≤ n) : daysToMonth m y ≤ daysToMonth n y :=
  (((List.range_sublist.mpr (Nat.sub_le_sub_right hmn 1)).map _).sum_le_sum) fun _ _ => Nat.zero_le _

/-- A monotone count has one place for each day: the last value not after it, and the offset from there. -/
theorem place_eq_of_monotone {f : Nat → Nat} (hf : Monotone f) {a b r q : Nat} (ha : f a + r < f (a + 1))
    (hb : f b + q < f (b + 1)) (h : f a + r = f b + q) : a = b ∧ r = q := by
  have hab : a < b + 1 := hf.reflect_lt (by omega)
  have hba : b < a + 1 := hf.reflect_lt (by omega)
  obtain rfl : a = b := by omega
  exact ⟨rfl, Nat.add_left_cancel h⟩

theorem dayOfMonth_lt_next {m d : Nat} (y : Nat) (hm : 1 ≤ m) (hd : 1 ≤ d ∧ d ≤ monthLength m y) :
    daysToMonth m y + (d - 1) < daysToMonth (m + 1) y := by
  rw [daysToMonth_succ y hm]
  omega

theorem dayOfYear_lt_next {y m d : Nat} (hy : 1970 ≤ y) (hm : 1 ≤ m ∧ m ≤ 12) (hd : 1 ≤ d ∧ d ≤ monthLength m y) :
    daysToYear y + (daysToMonth m y + (d - 1)) < daysToYear (y + 1) := by
  have hnext : daysToMonth m y + (d - 1) < daysToMonth 13 y :=
    (dayOfMonth_lt_next y hm.1 hd).trans_le (daysToMonth_mono y (by omega))
  rw [daysToMonth_thirteen] at hnext
  rw [daysToYear_succ hy]
  omega

/-- Two dates with the same day count have the same year, month and date. -/
theorem date_eq_of_dayCount_eq {y m d y' m' d' : Nat} (hy : 1970 ≤ y) (hy' : 1970 ≤ y')
    (hm : 1 ≤ m ∧ m ≤ 12) (hm' : 1 ≤ m' ∧ m' ≤ 12) (hd : 1 ≤ d ∧ d ≤ monthLength m y)
    (hd' : 1 ≤ d' ∧ d' ≤ monthLength m' y')
    (h : daysToYear y + (daysToMonth m y + (d - 1)) = daysToYear y' + (daysToMonth m' y' + (d' - 1))) :
    y = y' ∧ m = m' ∧ d = d' := by
  obtain ⟨rfl, hday⟩ := place_eq_of_monotone (fun _ _ => daysToYear_mono) (dayOfYear_lt_next hy hm hd)
    (dayOfYear_lt_next hy' hm' hd') h
  obtain ⟨rfl, hdate⟩ := place_eq_of_monotone (fun _ _ => daysToMonth_mono y) (dayOfMonth_lt_next y hm.1 hd)
    (dayOfMonth_lt_next y hm'.1 hd') hday
  exact ⟨rfl, rfl, by omega⟩

/-- Two proper date-times with the same second count differ in `dow` and `osc_en` at most. -/
theorem dateTime_eq_of_gregorianSeconds_eq {dt dt' : DateTime} (hp : properDateTime dt = true)
    (hp' : properDateTime dt' = true) (hy : 1970 ≤ dt.year.toNat) (hy' : 1970 ≤ dt'.year.toNat)
    (h : gregorianSeconds dt' = gregorianSeconds dt) : dt' = { dt with dow := dt'.dow, oscEn := dt'.oscEn } := by
  obtain ⟨-, hm, hd, hhour, hmin, hsec⟩ := (properDateTime_iff dt).mp hp
  obtain ⟨-, hm', hd', hhour', hmin', hsec'⟩ := (properDateTime_iff dt').mp hp'
  unfold gregorianSeconds at h
  obtain ⟨hyear, hmonth, hdate⟩ := date_eq_of_dayCount_eq hy' hy hm' hm hd' hd (by omega)
  rw [hyear, hmonth, hdate] at h
  have htime : dt'.hour.toNat = dt.hour.toNat ∧ dt'.min.toNat = dt.min.toNat ∧ dt'.sec.toNat = dt.sec.toNat := by omega
  cases dt
  cases dt'
  simp_all [BitVec.toNat_inj]

/-! ### The round trip (R138) -/

/-- `to_datetime` gives a proper date-time of 1970 or later, with the second count it was given (R131). -/
theorem toDateTime_gregorian (t : UnixTime) : properDateTime (toDateTime t) = true ∧
    1970 ≤ (toDateTime t).year.toNat ∧ gregorianSeconds (toDateTime t) = t.toNat := by
  obtain ⟨y, m, d, heq, hy, hm, hd, hday, -⟩ := toDateTime_eq t
  have hlen := monthLength_le y hm.2
  have hyear : (BitVec.ofNat 16 y).toNat = y := Nat.mod_eq_of_lt (by omega)
  have hmonth : (BitVec.ofNat 8 m).toNat = m := Nat.mod_eq_of_lt (by omega)
  have hdate : (BitVec.ofNat 8 d).toNat = d := Nat.mod_eq_of_lt (by omega)
  rw [properDateTime_iff, heq, gregorianSeconds, hyear, hmonth, hdate]
  simp only [BitVec.toNat_ofNat]
  omega

/-- `to_unix` undoes `to_datetime` inside the window. -/
theorem toUnix_toDateTime {t : UnixTime} (h : legalFields (toDateTime t)) : toUnix (toDateTime t) = t := by
  obtain ⟨-, -, -, -, -, hd, -, hm, hm', hy, hy'⟩ := h
  obtain ⟨-, -, hsec⟩ := toDateTime_gregorian t
  rw [toUnix_eq_gregorianSeconds ⟨hy, hy'⟩ ⟨hm, hm'⟩ hd, hsec, BitVec.ofNat_toNat, BitVec.setWidth_eq]

theorem gregorianSeconds_lt {dt : DateTime} (hp : properDateTime dt = true) (hlo : 1970 ≤ dt.year.toNat)
    (hhi : dt.year.toNat ≤ 2099) : gregorianSeconds dt < 2 ^ 32 := by
  obtain ⟨-, hm, hd, hhour, hmin, hsec⟩ := (properDateTime_iff dt).mp hp
  have hday : daysToYear dt.year.toNat + (daysToMonth dt.month.toNat dt.year.toNat + (dt.date.toNat - 1)) < 47482 :=
    calc _ < daysToYear (dt.year.toNat + 1) := dayOfYear_lt_next hlo hm hd
      _ ≤ daysToYear 2100 := daysToYear_mono (by omega)
      _ = 47482 := by rw [daysToYear_eq (by decide) le_rfl]
  unfold gregorianSeconds
  omega

/-- `to_datetime` undoes `to_unix` on the proper date-times of the window, but for `dow` and `osc_en`. -/
theorem toDateTime_toUnix {dt : DateTime} (hp : properDateTime dt = true) (hlo : 2000 ≤ dt.year.toNat)
    (hhi : dt.year.toNat ≤ 2099) : toDateTime (toUnix dt) =
      { dt with dow := (toDateTime (toUnix dt)).dow, oscEn := (toDateTime (toUnix dt)).oscEn } := by
  obtain ⟨-, hm, hd, -⟩ := (properDateTime_iff dt).mp hp
  obtain ⟨hp', hlo', hsec⟩ := toDateTime_gregorian (toUnix dt)
  refine dateTime_eq_of_gregorianSeconds_eq hp hp' (by omega) hlo' (hsec.trans ?_)
  rw [toUnix_eq_gregorianSeconds ⟨hlo, hhi⟩ hm hd.1,
    BitVec.toNat_ofNat, Nat.mod_eq_of_lt (gregorianSeconds_lt hp (by omega) hhi)]

theorem exec_u2dt (t : UnixTime) (s : State) :
    exec (.u2dt t) s = .next (complete 0x00 { s with resDT := some (toDateTime t) }) := rfl

/-- Settles O39: both conversions count Gregorian seconds, and the count determines the date-time. -/
theorem roundTripInsideTheWindow : Obligations.RoundTripInsideTheWindow := by
  refine ⟨fun t hlo hhi => ?_, fun dt hp hlo hhi => ?_⟩
  · have hlegal := (legalFields_toDateTime_iff t).mpr ⟨hlo, hhi⟩
    have hback := toUnix_toDateTime hlegal
    obtain ⟨-, -, -, -, -, -, -, hm, hm', hy, hy'⟩ := hlegal
    refine ⟨toDateTime t, exec_u2dt t, hy, hy', hm, hm', fun s => ?_⟩
    rw [exec_dt2u_accepted ⟨hy, hm, hm'⟩, hback]
    rfl
  · obtain ⟨-, hm, -⟩ := (properDateTime_iff dt).mp hp
    exact ⟨toUnix dt, toDateTime (toUnix dt), exec_dt2u_accepted ⟨hlo, hm⟩, exec_u2dt _, toDateTime_toUnix hp hlo hhi⟩

end Sys2Proof.Machine

/-! PROOFS. The statements of 42_datetime_io.md: the bytes SETDT and SETU write (R151, R152, R154, R156), and what
GETDT decodes (R150, R153, R155). -/

namespace Sys2Proof.Machine

open Sys2Proof

/-! ### Writing the time registers (R151, R152, R243, R244) -/

/-- The year offset of a legal date-time fits its byte, so the bytes are the BCD of the fields (R152). -/
theorem timeBytes_eq_clockBytes {dt : DateTime} (h : legalFields dt) : timeBytes dt = clockBytes dt := by
  obtain ⟨-, -, -, -, -, -, -, -, -, -, hyear⟩ := h
  have hoffset : (BitVec.ofNat 8 (dt.year.toNat - 2000)).toNat = dt.year.toNat - 2000 :=
    Nat.mod_eq_of_lt (by omega)
  simp only [timeBytes, clockBytes, bcdEnc_eq_bcdOf, hoffset]

/-- A legal date-time is written in one call, whose draw decides between success and TransportFailure. -/
theorem writeTime_draw {dt : DateTime} (h : legalFields dt) {s : State} {d : CallDraw} {ds : List CallDraw}
    (hs : s.draws = d :: ds) : writeTime dt s = if d.ok then
        ended s [.write 0x00 (clockBytes dt)] ds (setRegs 0x00 (clockBytes dt) (atStart s d)).reg 0x00 0x00
      else ended s [.write 0x00 (clockBytes dt)] ds (setRegs 0x00 (d.left.take 7) (atStart s d)).reg 0x00 0x01 := by
  rw [writeTime, if_pos ((validDateTime_iff dt).mpr h), timeBytes_eq_clockBytes h, writeThen_draw _ _ _ hs]
  rfl

theorem exec_setdt (dt : DateTime) (s : State) : exec (.setdt dt) s = .next (writeTime dt s) := rfl

theorem exec_setu (u : UnixTime) (s : State) : exec (.setu u) s = .next (writeTime (toDateTime u) s) := rfl

/-- Settles O42: a legal date-time is one write of its BCD bytes, and any other fails validation. -/
theorem setdtValidatesThenWrites : Obligations.SetdtValidatesThenWrites := by
  refine ⟨fun a dt al => ⟨_, rfl, rfl, rfl, rfl, rfl, rfl, rfl, rfl⟩,
    fun dt s d ds h hs => ⟨fun hok => ?_, fun hfail => ?_⟩, fun dt s h => exec_failsValidation (i := .setdt dt) s h⟩
  · rw [exec_setdt, writeTime_draw h hs, if_pos hok]
  · rw [exec_setdt, writeTime_draw h hs, if_neg (ne_true_of_eq_false hfail)]

/-- All 32 bits of A are SETU's operand (R82). -/
theorem decode_setu (a : BitVec 32) (dt : DateTime) (al : AlarmRecord) :
    decode ⟨0x22, a, dt, al⟩ = .ok (.setu a) :=
  congrArg (fun u => Except.ok (Instr.setu u)) (BitVec.setWidth_eq a)

/-- Settles O44: SETU is SETDT's write of the date-time U2DT gives, which is legal exactly inside the window. -/
theorem setuConvertsValidatesWrites : Obligations.SetuConvertsValidatesWrites := by
  refine ⟨decode_setu, fun u hlo hhi => ⟨toDateTime u, exec_u2dt u, fun s d ds hs => ?_⟩,
    fun u s h => exec_failsValidation (i := .setu u) s h⟩
  have hlegal := (legalFields_toDateTime_iff u).mpr ⟨hlo, hhi⟩
  refine ⟨fun hok => ?_, fun hfail => ?_⟩
  · rw [exec_setu, writeTime_draw hlegal hs, if_pos hok]
  · rw [exec_setu, writeTime_draw hlegal hs, if_neg (ne_true_of_eq_false hfail)]

/-! ### Decoding the time registers (R150, R153) -/

theorem toNat_bcdDec (b : Byte) : (bcdDec b).toNat = bcdValue b := by
  have hb : b.toNat < 256 := b.isLt
  rw [bcdDec_eq_bcdValue]
  refine Nat.mod_eq_of_lt ?_
  unfold bcdValue
  omega

/-- The year's mask keeps every bit (R150). -/
theorem maskedTime_year (b : List Byte) : maskedTime b 6 = byteAt b 6 := BitVec.and_allOnes

/-- The DateTime decoded is that of R153 for the bytes as delivered, under the masks of R150. -/
theorem decodeTime_eq_clockReading (b : List Byte) : decodeTime b =
    clockReading (byteAt b 0) (byteAt b 1) (byteAt b 2) (byteAt b 3) (byteAt b 4) (byteAt b 5) (byteAt b 6) := by
  rw [decodeTime, toNat_bcdDec, maskedTime_year]
  simp only [bcdDec_eq_bcdValue]
  rfl

/-- The 12/24 select is bit 6 (R32). -/
theorem twelveHour_eq_true_iff (b : Byte) : twelveHour b = true ↔ b.toNat / 64 % 2 = 1 := by
  rw [twelveHour, BitVec.getLsbD, Nat.testBit_eq_decide_div_mod_eq, decide_eq_true_eq]

theorem flagH12_eq_ite (p : Bool) : flagH12 p = if p then 0x04 else 0x00 := by cases p <;> rfl

theorem timeFlags_eq_clockFlags (b : List Byte) : timeFlags b =
    clockFlags (byteAt b 0) (byteAt b 1) (byteAt b 2) (byteAt b 3) (byteAt b 4) (byteAt b 5) (byteAt b 6) := by
  rw [timeFlags, maskedTime_year]
  simp only [flagNbcd_eq_ite, flagH12_eq_ite, nbcd_eq_notBcd, Bool.or_eq_true, or_assoc, twelveHour_eq_true_iff]
  rfl

theorem exec_getdt (s : State) : exec .getdt s =
    .next (readThen 0x00 7 (fun b t => complete (timeFlags b) { t with resDT := some (decodeTime b) }) s) := rfl

/-- Settles O43: one read, whose bytes are decoded by the rule's formulas. -/
theorem getdtDecodesTheTimeRegisters : Obligations.GetdtDecodesTheTimeRegisters := by
  refine ⟨fun a dt al => rfl, fun s d ds hs => ⟨fun hok => ?_, fun hfail => ?_⟩⟩
  · rw [exec_getdt, readThen_draw _ _ _ hs, if_pos hok, decodeTime_eq_clockReading, timeFlags_eq_clockFlags]
    rfl
  · rw [exec_getdt, readThen_draw _ _ _ hs, if_neg (ne_true_of_eq_false hfail)]
    rfl

end Sys2Proof.Machine

/-! PROOFS. The statements of 43_alarms.md: what SETAL1 and SETAL2 write and how they end (R181 to R183, R185, R187),
and what GETAL1 and GETAL2 decode (R184, R186, R188). -/

namespace Sys2Proof.Machine

open Sys2Proof

/-! ### The state between two calls of a command -/

/-- A command has made one more call: the draws `ds` are left, and the register file is `m`. -/
def afterCall (s : State) (c : TransportCall) (ds : List CallDraw) (m : Memory) : State :=
  { s with reg := m, draws := ds, made := s.made ++ [c] }

@[simp] theorem afterCall_reg (s : State) (c : TransportCall) (ds : List CallDraw) (m : Memory) :
    (afterCall s c ds m).reg = m := rfl

@[simp] theorem afterCall_draws (s : State) (c : TransportCall) (ds : List CallDraw) (m : Memory) :
    (afterCall s c ds m).draws = ds := rfl

@[simp] theorem afterCall_params (s : State) (c : TransportCall) (ds : List CallDraw) (m : Memory) :
    (afterCall s c ds m).params = s.params := rfl

/-- The calls of a command that ends after more calls are those and the call before them. -/
@[simp] theorem ended_afterCall (s : State) (c : TransportCall) (calls : List TransportCall) (ds ds' : List CallDraw)
    (m m' : Memory) (fl st : Byte) :
    ended (afterCall s c ds m) calls ds' m' fl st = ended s (c :: calls) ds' m' fl st := by
  simp [ended, afterCall]

@[simp] theorem complete_afterCall (fl : Byte) (s : State) (c : TransportCall) (ds : List CallDraw) (m : Memory) :
    complete fl (afterCall s c ds m) = ended s [c] ds m fl 0x00 := rfl

/-- A read whose draw is listed: the command goes on after it, or ends with TransportFailure (R52, R244). -/
theorem readThen_afterCall {s : State} {d : CallDraw} {ds : List CallDraw} (a : Addr) (n : Nat)
    (k : List Byte → State → State) (h : s.draws = d :: ds) :
    readThen a n k s =
      if d.ok then k ((List.range n).map (byteOf s d a)) (afterCall s (.read a n) ds (atByte s d n).reg)
      else ended s [.read a n] ds (atStart s d).reg 0x00 0x01 :=
  readThen_draw a n k h

/-- A write whose draw is listed: the command goes on after it, or ends with TransportFailure (R53, R244). -/
theorem writeThen_afterCall {s : State} {d : CallDraw} {ds : List CallDraw} (a : Addr) (bs : List Byte)
    (k : State → State) (h : s.draws = d :: ds) :
    writeThen a bs k s =
      if d.ok then k (afterCall s (.write a bs) ds (setRegs a bs (atStart s d)).reg)
      else ended s [.write a bs] ds (setRegs a (d.left.take bs.length) (atStart s d)).reg 0x00 0x01 :=
  writeThen_draw a bs k h

/-! ### What the chip does in a call depends on REG and the parameters alone (R60, R61) -/

@[simp] theorem atStart_params (s : State) (d : CallDraw) : (atStart s d).params = s.params := chipSteps_params _ _

@[simp] theorem atByte_params (s : State) (d : CallDraw) (i : Nat) : (atByte s d i).params = s.params :=
  chipSteps_params _ _

theorem atStart_reg_congr {s t : State} (d : CallDraw) (hreg : s.reg = t.reg) (hparams : s.params = t.params) :
    (atStart s d).reg = (atStart t d).reg := chipSteps_congr _ _ _ hreg hparams

theorem atByte_reg_congr {s t : State} (d : CallDraw) (i : Nat) (hreg : s.reg = t.reg)
    (hparams : s.params = t.params) : (atByte s d i).reg = (atByte t d i).reg := by
  rw [atByte, atByte, gapsOf, gapsOf, hparams]
  exact chipSteps_congr _ _ _ hreg hparams

theorem byteOf_congr {s t : State} (d : CallDraw) (a : Addr) (i : Nat) (hreg : s.reg = t.reg)
    (hparams : s.params = t.params) : byteOf s d a i = byteOf t d a i :=
  regByte_congr (atByte_reg_congr d i hreg hparams) _

/-! ### The read-modify-write of an alarm setter (R185, R187, R201) -/

/-- The three endings of a command whose last two calls are a read-modify-write. The state `s` it begins in holds
the registers of `t`, the chip as the call before left it. -/
theorem rmwThen_complete_draw {s t : State} {d1 d2 : CallDraw} {ds : List CallDraw} {a : Addr} {mask bits new : Byte}
    (fl : Byte) (hs : s.draws = d1 :: d2 :: ds) (hreg : s.reg = t.reg) (hparams : s.params = t.params)
    (hnew : new = (byteOf t d1 a 0 &&& ~~~mask) ||| bits) :
    rmwThen a mask bits (complete fl) s = if d1.ok then
        if d2.ok then ended s [.read a 1, .write a [new]] ds (setReg a new (atStart (atByte t d1 1) d2)).reg fl 0x00
        else ended s [.read a 1, .write a [new]] ds
          (setRegs a (d2.left.take 1) (atStart (atByte t d1 1) d2)).reg 0x00 0x01
      else ended s [.read a 1] (d2 :: ds) (atStart t d1).reg 0x00 0x01 := by
  have hbyte : (byteAt ((List.range 1).map (byteOf s d1 a)) 0 &&& ~~~mask) ||| bits = new := by
    rw [hnew, ← byteOf_congr d1 a 0 hreg hparams]; rfl
  have hwrite (bs : List Byte) := setRegs_congr bs a _ _ (atStart_reg_congr d2
    (s := afterCall s (.read a 1) (d2 :: ds) (atByte s d1 1).reg) (t := atByte t d1 1)
    (atByte_reg_congr d1 1 hreg hparams) (by simp [hparams]))
  rw [rmwThen, readThen_afterCall a 1 _ hs, writeThen_afterCall (d := d2) (ds := ds) _ _ _ rfl, hbyte, hwrite, hwrite,
    complete_afterCall, ended_afterCall, ended_afterCall, atStart_reg_congr d1 hreg hparams]
  rfl

/-- An alarm setter writes its block and then changes control. Its four endings, on the registers as the chip leaves
them before and between the calls. -/
theorem setAlarm_draw {r : Result} {s s1 s2 : State} {a : Addr} {block : List Byte} {mask bits fl new : Byte}
    {d1 d2 d3 : CallDraw} {ds : List CallDraw}
    (hr : r = .next (writeThen a block (rmwThen controlReg mask bits (complete fl)) s))
    (hs : s.draws = d1 :: d2 :: d3 :: ds) (hs1 : s1 = setRegs a block (atStart s d1)) (hs2 : s2 = atByte s1 d2 1)
    (hnew : new = (byteOf s1 d2 0x0E 0 &&& ~~~mask) ||| bits) :
    (d1.ok = true → d2.ok = true → d3.ok = true → r = .next (ended s
      [.write a block, .read 0x0E 1, .write 0x0E [new]] ds (setReg 0x0E new (atStart s2 d3)).reg fl 0x00)) ∧
    (d1.ok = false → r = .next (ended s [.write a block] (d2 :: d3 :: ds)
      (setRegs a (d1.left.take block.length) (atStart s d1)).reg 0x00 0x01)) ∧
    (d1.ok = true → d2.ok = false → r = .next (ended s
      [.write a block, .read 0x0E 1] (d3 :: ds) (atStart s1 d2).reg 0x00 0x01)) ∧
    (d1.ok = true → d2.ok = true → d3.ok = false → r = .next (ended s
      [.write a block, .read 0x0E 1, .write 0x0E [new]] ds
      (setRegs 0x0E (d3.left.take 1) (atStart s2 d3)).reg 0x00 0x01)) := by
  have hcontrol := rmwThen_complete_draw (s := afterCall s (.write a block) (d2 :: d3 :: ds) s1.reg) (t := s1) fl
    rfl rfl (by simp [hs1]) hnew
  rw [writeThen_afterCall a block _ hs, ← hs1, controlReg, hcontrol, ← hs2] at hr
  simp only [ended_afterCall] at hr
  refine ⟨fun h1 h2 h3 => ?_, fun h1 => ?_, fun h1 h2 => ?_, fun h1 h2 h3 => ?_⟩
  · rw [hr, if_pos h1, if_pos h2, if_pos h3]
  · rw [hr, if_neg (ne_true_of_eq_false h1)]
  · rw [hr, if_pos h1, if_neg (ne_true_of_eq_false h2)]
  · rw [hr, if_pos h1, if_pos h2, if_neg (ne_true_of_eq_false h3)]

/-! ### The fields of an alarm block and its match mode (R181 to R183) -/

theorem alarmField_eq (v mask : Byte) : alarmField v mask = bcdOf v.toNat &&& mask := by
  rw [alarmField, bcdEnc_eq_bcdOf]

theorem alarmSpill_eq_loses (v mask : Byte) : alarmSpill v mask = loses v mask := by
  rw [alarmSpill, loses, overNinetyNine, bcdEnc_eq_bcdOf]

theorem dayMask_eq_dayWidth (dydt : Bit) : dayMask dydt = dayWidth dydt := rfl

/-- Where every row of a table of match modes has its mode bits as the columns of R181 and R182 give them, so have
the mode bits of a code the table lists. -/
theorem placed_of_patternOf {modes : List (BitVec 3 × List Bit)} {n : Nat}
    (htable : ∀ r ∈ modes, ∀ k < n, placed (r.2.getD k 0) 7 = modeBit r.1 k) {mode : BitVec 3} {m : List Bit}
    (h : patternOf modes mode = some m) : ∀ k < n, placed (m.getD k 0) 7 = modeBit mode k := by
  obtain ⟨r, hr, rfl⟩ := Option.map_eq_some_iff.mp h
  obtain rfl : r.1 = mode := by simpa using List.find?_some hr
  exact htable r (List.mem_of_find?_eq_some hr)

theorem alarm1Bytes_eq_alarm1Block {al : AlarmRecord} {m : List Bit} (h : patternOf alarm1Modes al.mode = some m) :
    alarm1Bytes m al = alarm1Block al := by
  have hbit := placed_of_patternOf (n := 4) (by decide) h
  rw [alarm1Bytes, alarmByte, alarmByte, alarmByte, alarmDayByte, hbit 0 (by decide), hbit 1 (by decide),
    hbit 2 (by decide), hbit 3 (by decide)]
  simp only [alarmField_eq]
  rfl

theorem alarm2Bytes_eq_alarm2Block {al : AlarmRecord} {m : List Bit} (h : patternOf alarm2Modes al.mode = some m) :
    alarm2Bytes m al = alarm2Block al := by
  have hbit := placed_of_patternOf (n := 3) (by decide) h
  rw [alarm2Bytes, alarmByte, alarmByte, alarmDayByte, hbit 0 (by decide), hbit 1 (by decide), hbit 2 (by decide)]
  simp only [alarmField_eq]
  rfl

theorem flagRange_alarm1Spill (al : AlarmRecord) : flagRange (alarm1Spill al) = alarm1Range al := by
  simp only [alarm1Spill, flagRange_eq_ite, alarmSpill_eq_loses, Bool.or_eq_true, or_assoc]
  rfl

theorem flagRange_alarm2Spill (al : AlarmRecord) : flagRange (alarm2Spill al) = alarm2Range al := by
  simp only [alarm2Spill, flagRange_eq_ite, alarmSpill_eq_loses, Bool.or_eq_true, or_assoc]
  rfl

/-! ### SETAL1 and SETAL2 (R185, R187) -/

theorem exec_setal1 {al : AlarmRecord} (h : al.mode.toNat ≤ 4) (s : State) : exec (.setal1 al) s =
    .next (writeThen 0x07 (alarm1Block al)
      (rmwThen controlReg 0x05 (0x04 ||| placed al.ie 0) (complete (alarm1Range al))) s) := by
  obtain ⟨m, hm⟩ := patternOf_alarm1Modes h
  rw [exec, execSetal1, hm, ← alarm1Bytes_eq_alarm1Block hm, ← flagRange_alarm1Spill]

theorem exec_setal2 {al : AlarmRecord} (h : al.mode.toNat ≤ 3) (s : State) : exec (.setal2 al) s =
    .next (writeThen 0x0B (alarm2Block al)
      (rmwThen controlReg 0x06 (0x04 ||| placed al.ie 1) (complete (alarm2Range al))) s) := by
  obtain ⟨m, hm⟩ := patternOf_alarm2Modes h
  rw [exec, execSetal2, hm, ← alarm2Bytes_eq_alarm2Block hm, ← flagRange_alarm2Spill]

/-- Settles O48: a listed mode is the block write and the read-modify-write of A1IE, any other is refused. -/
theorem setal1WritesBlockThenControl : Obligations.Setal1WritesBlockThenControl := by
  refine ⟨fun a dt al h => decode_setal1 (c := ⟨0x28, a, dt, al⟩) rfl h,
    fun al s h => exec_setal1_reservedMode h s, fun al s s1 s2 new d1 d2 d3 ds hmode hs hs1 hs2 hnew => ?_⟩
  refine setAlarm_draw (exec_setal1 hmode s) hs hs1 hs2 ?_
  rw [hnew, placed, BitVec.shiftLeft_zero, BitVec.or_assoc]

/-- Settles O50: a listed mode is the block write and the read-modify-write of A2IE, any other is refused. -/
theorem setal2WritesBlockThenControl : Obligations.Setal2WritesBlockThenControl := by
  refine ⟨fun a dt al h => ⟨_, decode_setal2 rfl h, rfl, rfl, rfl, rfl, rfl, rfl⟩,
    fun al s h => exec_setal2_reservedMode h s, fun al s s1 s2 new d1 d2 d3 ds hmode hs hs1 hs2 hnew => ?_⟩
  refine setAlarm_draw (exec_setal2 hmode s) hs hs1 hs2 ?_
  rw [hnew, placed, BitVec.or_assoc]
  rfl

/-! ### Decoding an alarm block (R181, R182, R184, R186, R188) -/

theorem flagIllog_eq_ite (p : Bool) : flagIllog p = if p then 0x08 else 0x00 := by cases p <;> rfl

/-- The mode bit of an alarm byte is its top bit (R180). -/
theorem extractLsb'_seven (b : Byte) : b.extractLsb' 7 1 = BitVec.ofBool b.msb := by
  ext i hi
  obtain rfl : i = 0 := by omega
  simp [BitVec.msb_eq_getLsbD_last]

theorem dayDydt_eq_selector (b : Byte) : dayDydt b = selector b := by
  rw [dayDydt, selector, BitVec.extractLsb', Nat.shiftRight_eq_div_pow]

theorem dayField_eq (b : Byte) : dayField b = b &&& dayWidth (selector b) := by
  rw [dayField, dayDydt_eq_selector, dayMask_eq_dayWidth]

/-- The five rows of R181 and the eleven other patterns. -/
theorem modeOf_alarm1Modes (b0 b1 b2 b3 : Byte) :
    modeOf alarm1Modes (modeBits [b0, b1, b2, b3]) = alarm1Code b0 b1 b2 b3 := by
  simp only [modeBits, List.map_cons, List.map_nil, extractLsb'_seven, alarm1Code]
  generalize b0.msb = m0, b1.msb = m1, b2.msb = m2, b3.msb = m3
  revert m0 m1 m2 m3
  decide

/-- The four rows of R182 and the four other patterns. -/
theorem modeOf_alarm2Modes (b0 b1 b2 : Byte) :
    modeOf alarm2Modes (modeBits [b0, b1, b2]) = alarm2Code b0 b1 b2 := by
  simp only [modeBits, List.map_cons, List.map_nil, extractLsb'_seven, alarm2Code]
  generalize b0.msb = m0, b1.msb = m1, b2.msb = m2
  revert m0 m1 m2
  decide

theorem decodeAlarm1_eq_alarm1Reading (b0 b1 b2 b3 c : Byte) :
    decodeAlarm1 [b0, b1, b2, b3] c = alarm1Reading b0 b1 b2 b3 c := by
  rw [decodeAlarm1, modeOf_alarm1Modes, dayField_eq, dayDydt_eq_selector]
  simp only [bcdDec_eq_bcdValue]
  rfl

theorem decodeAlarm2_eq_alarm2Reading (b0 b1 b2 c : Byte) :
    decodeAlarm2 [b0, b1, b2] c = alarm2Reading b0 b1 b2 c := by
  rw [decodeAlarm2, modeOf_alarm2Modes, dayField_eq, dayDydt_eq_selector]
  simp only [bcdDec_eq_bcdValue]
  rfl

theorem alarm1Flags_eq_alarm1ReadFlags (b0 b1 b2 b3 : Byte) :
    alarm1Flags [b0, b1, b2, b3] = alarm1ReadFlags b0 b1 b2 b3 := by
  rw [alarm1Flags, modeOf_alarm1Modes, dayField_eq]
  simp only [Bool.or_assoc]
  rw [Bool.or_comm (nbcd _)]
  simp only [flagNbcd_eq_ite, flagH12_eq_ite, flagIllog_eq_ite, nbcd_eq_notBcd, Bool.or_eq_true, or_assoc,
    twelveHour_eq_true_iff, beq_iff_eq]
  rfl

theorem alarm2Flags_eq_alarm2ReadFlags (b0 b1 b2 : Byte) :
    alarm2Flags [b0, b1, b2] = alarm2ReadFlags b0 b1 b2 := by
  rw [alarm2Flags, modeOf_alarm2Modes, dayField_eq]
  simp only [Bool.or_assoc]
  rw [Bool.or_comm (nbcd _)]
  simp only [flagNbcd_eq_ite, flagH12_eq_ite, flagIllog_eq_ite, nbcd_eq_notBcd, Bool.or_eq_true, or_assoc,
    twelveHour_eq_true_iff, beq_iff_eq]
  rfl

/-! ### GETAL1 and GETAL2 (R186, R188) -/

/-- The two endings of a command whose last call reads one byte for RES_AL. The state `s` it begins in holds the
registers of `t`, the chip as the call before left it. -/
theorem readThen_setResAL_draw {s t : State} {d : CallDraw} {ds : List CallDraw} (a : Addr) (fl : Byte)
    (f : Byte → AlarmRecord) (hs : s.draws = d :: ds) (hreg : s.reg = t.reg) (hparams : s.params = t.params) :
    readThen a 1 (fun c u => complete fl { u with resAL := some (f (byteAt c 0)) }) s = if d.ok then
        { ended s [.read a 1] ds (atByte t d 1).reg fl 0x00 with resAL := some (f (byteOf t d a 0)) }
      else ended s [.read a 1] ds (atStart t d).reg 0x00 0x01 := by
  rw [readThen_afterCall a 1 _ hs, ← atByte_reg_congr d 1 hreg hparams, ← byteOf_congr d a 0 hreg hparams,
    ← atStart_reg_congr d hreg hparams]
  rfl

/-- An alarm getter reads its block and then control. Its three endings, each byte at its instant. -/
theorem getAlarm_draw {r : Result} {s s1 : State} {a : Addr} {n : Nat} {fl : List Byte → Byte}
    {read : List Byte → Byte → AlarmRecord} {d1 d2 : CallDraw} {ds : List CallDraw} {block : List Byte}
    (hr : r = .next (readThen a n (fun b => readThen controlReg 1 (fun c t =>
      complete (fl b) { t with resAL := some (read b (byteAt c 0)) })) s))
    (hs : s.draws = d1 :: d2 :: ds) (hs1 : s1 = atByte s d1 n) (hblock : (List.range n).map (byteOf s d1 a) = block) :
    (d1.ok = true → d2.ok = true → r = .next
      { ended s [.read a n, .read 0x0E 1] ds (atByte s1 d2 1).reg (fl block) 0x00 with
        resAL := some (read block (byteOf s1 d2 0x0E 0)) }) ∧
    (d1.ok = false → r = .next (ended s [.read a n] (d2 :: ds) (atStart s d1).reg 0x00 0x01)) ∧
    (d1.ok = true → d2.ok = false → r = .next
      (ended s [.read a n, .read 0x0E 1] ds (atStart s1 d2).reg 0x00 0x01)) := by
  have hcontrol := readThen_setResAL_draw (s := afterCall s (.read a n) (d2 :: ds) s1.reg) (t := s1) controlReg
    (fl block) (read block) rfl rfl (by simp [hs1])
  rw [readThen_afterCall a n _ hs, ← hs1, hblock, hcontrol, ended_afterCall, ended_afterCall] at hr
  refine ⟨fun h1 h2 => ?_, fun h1 => ?_, fun h1 h2 => ?_⟩
  · rw [hr, if_pos h1, if_pos h2]
    rfl
  · rw [hr, if_neg (ne_true_of_eq_false h1)]
  · rw [hr, if_pos h1, if_neg (ne_true_of_eq_false h2)]
    rfl

theorem exec_getal1 (s : State) : exec .getal1 s =
    .next (readThen 0x07 4 (fun a => readThen controlReg 1 (fun c t =>
      complete (alarm1Flags a) { t with resAL := some (decodeAlarm1 a (byteAt c 0)) })) s) := rfl

theorem exec_getal2 (s : State) : exec .getal2 s =
    .next (readThen 0x0B 3 (fun a => readThen controlReg 1 (fun c t =>
      complete (alarm2Flags a) { t with resAL := some (decodeAlarm2 a (byteAt c 0)) })) s) := rfl

/-- Settles O49: two reads, whose bytes are decoded by the rule's formulas. -/
theorem getal1DecodesBlockAndEnable : Obligations.Getal1DecodesBlockAndEnable := by
  refine ⟨fun a dt al => rfl, fun s s1 d1 d2 ds hs hs1 => ?_⟩
  rw [← alarm1Flags_eq_alarm1ReadFlags, ← decodeAlarm1_eq_alarm1Reading]
  exact getAlarm_draw (exec_getal1 s) hs hs1 rfl

/-- Settles O51: two reads, whose bytes are decoded by the rule's formulas, with sec 0. -/
theorem getal2DecodesBlockAndEnable : Obligations.Getal2DecodesBlockAndEnable := by
  refine ⟨fun a dt al => rfl, fun s s1 d1 d2 ds hs hs1 => ?_⟩
  rw [← alarm2Flags_eq_alarm2ReadFlags, ← decodeAlarm2_eq_alarm2Reading]
  exact getAlarm_draw (exec_getal2 s) hs hs1 rfl

end Sys2Proof.Machine

/-! PROOFS. The statements of 44_control_status.md: the setters' read-modify-writes (R200 to R212), the getters' bit
fields (R213 to R225), and the coupling of INTCN (R202). -/

namespace Sys2Proof.Machine

open Sys2Proof

/-! ### The setters (R200 to R212) -/

/-- Every setter of R226's table is the read-modify-write of its row. -/
theorem exec_of_setterRow {i : Instr} {a : Addr} {mask bits : Byte} (h : setterRow i = some (a, mask, bits))
    (s : State) : exec i s = .next (setBits a mask bits s) := by
  cases i with
  | seteosc _ | setbbsqw _ | setrs _ | setintcn _ | seta2ie _ | seten32k _ | clra1f | clra2f | clrosf =>
    cases h; rfl
  | seta1ie v =>
    cases h
    rw [exec, execSeta1ie, placed, BitVec.shiftLeft_zero]; rfl
  | _ => cases h

/-- The three endings of a setter, on the registers as the chip leaves them before and between the two calls. -/
theorem exec_setter_draw {i : Instr} {a : Addr} {mask bits new : Byte} {s s1 : State} {d1 d2 : CallDraw}
    {ds : List CallDraw} (hrow : setterRow i = some (a, mask, bits)) (hs : s.draws = d1 :: d2 :: ds)
    (hs1 : s1 = atByte s d1 1) (hnew : new = (byteOf s d1 a 0 &&& ~~~mask) ||| bits) :
    (d1.ok = true → d2.ok = true → exec i s = .next (ended s [.read a 1, .write a [new]] ds
      (setReg a new (atStart s1 d2)).reg 0x00 0x00)) ∧
    (d1.ok = false → exec i s = .next (ended s [.read a 1] (d2 :: ds) (atStart s d1).reg 0x00 0x01)) ∧
    (d1.ok = true → d2.ok = false → exec i s = .next (ended s [.read a 1, .write a [new]] ds
      (setRegs a (d2.left.take 1) (atStart s1 d2)).reg 0x00 0x01)) := by
  rw [exec_of_setterRow hrow, setBits, rmwThen_complete_draw 0x00 hs rfl rfl hnew, hs1]
  refine ⟨fun h1 h2 => ?_, fun h1 => ?_, fun h1 h2 => ?_⟩
  · rw [if_pos h1, if_pos h2]
  · rw [if_neg (ne_true_of_eq_false h1)]
  · rw [if_pos h1, if_neg (ne_true_of_eq_false h2)]

/-- Settles O54: each row is an arm of the decoder and a row of R226's table. -/
theorem controlSettersReadModifyWrite : Obligations.ControlSettersReadModifyWrite := by
  intro a op i m v hmem
  have hrow : (∀ dt al, decode ⟨op, a, dt, al⟩ = .ok i) ∧ setterRow i = some (0x0E, m, v) := by
    simp only [← portBits_eq_extractLsb', List.mem_cons, List.not_mem_nil, or_false, Prod.mk.injEq] at hmem
    obtain ⟨rfl, rfl, rfl, rfl⟩ | ⟨rfl, rfl, rfl, rfl⟩ | ⟨rfl, rfl, rfl, rfl⟩ | ⟨rfl, rfl, rfl, rfl⟩ |
      ⟨rfl, rfl, rfl, rfl⟩ | ⟨rfl, rfl, rfl, rfl⟩ := hmem <;> exact ⟨fun _ _ => rfl, rfl⟩
  obtain ⟨hdecode, hrow⟩ := hrow
  exact ⟨hdecode, fun s s1 new d1 d2 ds hs hs1 hnew => exec_setter_draw hrow hs hs1 hnew⟩

/-- Settles O55: each row is an arm of the decoder and a row of R226's table. -/
theorem statusSettersReadModifyWrite : Obligations.StatusSettersReadModifyWrite := by
  intro a op i m v hmem
  have hrow : (∀ dt al, decode ⟨op, a, dt, al⟩ = .ok i) ∧ setterRow i = some (0x0F, m, v) := by
    simp only [← portBits_eq_extractLsb', List.mem_cons, List.not_mem_nil, or_false, Prod.mk.injEq] at hmem
    obtain ⟨rfl, rfl, rfl, rfl⟩ | ⟨rfl, rfl, rfl, rfl⟩ | ⟨rfl, rfl, rfl, rfl⟩ | ⟨rfl, rfl, rfl, rfl⟩ := hmem <;>
      exact ⟨fun _ _ => rfl, rfl⟩
  obtain ⟨hdecode, hrow⟩ := hrow
  exact ⟨hdecode, fun s s1 new d1 d2 ds hs hs1 hnew => exec_setter_draw hrow hs hs1 hnew⟩

/-! ### The getters (R213 to R225) -/

/-- A bit field by division (R9). -/
theorem bitField_eq_div (x : Byte) {hi lo : Nat} (h : lo ≤ hi) :
    bitField x hi lo = BitVec.ofNat 8 (x.toNat / 2 ^ lo % 2 ^ (hi + 1 - lo)) := by
  apply BitVec.eq_of_toNat_eq
  simp [bitField, Nat.shiftRight_eq_div_pow, Nat.sub_add_comm h]

/-- The two endings of a getter: its one read delivers the byte, or fails and leaves RES_B. -/
theorem exec_getter_draw {i : Instr} {a : Addr} {hi lo : Nat} {s : State} {d : CallDraw} {ds : List CallDraw}
    (hexec : ∀ s, exec i s = .next (getBits a hi lo s)) (hlo : lo ≤ hi) (hs : s.draws = d :: ds) :
    (d.ok = true → exec i s = .next { ended s [.read a 1] ds (atByte s d 1).reg 0x00 0x00 with
      resB := some (BitVec.ofNat 8 ((byteOf s d a 0).toNat / 2 ^ lo % 2 ^ (hi + 1 - lo))) }) ∧
    (d.ok = false → exec i s = .next (ended s [.read a 1] ds (atStart s d).reg 0x00 0x01)) := by
  rw [hexec, getBits, readThen_afterCall a 1 _ hs, ← bitField_eq_div _ hlo]
  refine ⟨fun hok => ?_, fun hfail => ?_⟩
  · rw [if_pos hok]; rfl
  · rw [if_neg (ne_true_of_eq_false hfail)]

/-- Settles O56: each row is an arm of the decoder and of the dispatch. -/
theorem controlGettersExtractTheirField : Obligations.ControlGettersExtractTheirField := by
  intro op i hi lo hmem
  have hrow : (∀ a dt al, decode ⟨op, a, dt, al⟩ = .ok i) ∧ (∀ s, exec i s = .next (getBits 0x0E hi lo s)) ∧
      lo ≤ hi := by
    simp only [List.mem_cons, List.not_mem_nil, or_false, Prod.mk.injEq] at hmem
    obtain ⟨rfl, rfl, rfl, rfl⟩ | ⟨rfl, rfl, rfl, rfl⟩ | ⟨rfl, rfl, rfl, rfl⟩ | ⟨rfl, rfl, rfl, rfl⟩ |
      ⟨rfl, rfl, rfl, rfl⟩ | ⟨rfl, rfl, rfl, rfl⟩ := hmem <;> exact ⟨fun _ _ _ => rfl, fun _ => rfl, by decide⟩
  obtain ⟨hdecode, hexec, hlo⟩ := hrow
  exact ⟨hdecode, fun s d ds hs => exec_getter_draw hexec hlo hs⟩

/-- Bits 7:0 of the status register are 0, and the chip raises BSY between the next two calls (R60). -/
def busyAfterOneCall : State :=
  { State.reset with
    reg := [(0x0F, 0x00)]
    draws := [⟨true, [], [], []⟩, ⟨true, [⟨0x0F, 0x04⟩], [], []⟩] }

/-- R225: with the default parameters and no failure, two GETBSY in a row give different values. -/
theorem exec_getbsy_differs : ∃ s1 s2, exec .getbsy busyAfterOneCall = .next s1 ∧ exec .getbsy s1 = .next s2 ∧
    s1.status = some 0x00 ∧ s2.status = some 0x00 ∧ s1.resB = some 0 ∧ s2.resB = some 1 :=
  ⟨_, _, rfl, rfl, rfl, rfl, rfl, rfl⟩

/-- Settles O57: each row is an arm of the decoder and of the dispatch, and BSY is the chip's to change. -/
theorem statusGettersExtractTheirField : Obligations.StatusGettersExtractTheirField := by
  obtain ⟨s1, s2, hfirst, hsecond, -, -, hidle, hbusy⟩ := exec_getbsy_differs
  refine ⟨⟨_, s1, s2, hfirst, hsecond, hidle, hbusy⟩, fun op i hi lo hmem => ?_⟩
  have hrow : (∀ a dt al, decode ⟨op, a, dt, al⟩ = .ok i) ∧ (∀ s, exec i s = .next (getBits 0x0F hi lo s)) ∧
      lo ≤ hi := by
    simp only [List.mem_cons, List.not_mem_nil, or_false, Prod.mk.injEq] at hmem
    obtain ⟨rfl, rfl, rfl, rfl⟩ | ⟨rfl, rfl, rfl, rfl⟩ | ⟨rfl, rfl, rfl, rfl⟩ | ⟨rfl, rfl, rfl, rfl⟩ |
      ⟨rfl, rfl, rfl, rfl⟩ := hmem <;> exact ⟨fun _ _ _ => rfl, fun _ => rfl, by decide⟩
  obtain ⟨hdecode, hexec, hlo⟩ := hrow
  exact ⟨hdecode, fun s d ds hs => exec_getter_draw hexec hlo hs⟩

/-! ### A register under calm calls (R53, R57) -/

/-- When the next `n` calls are calm and the command from `s` ends in `t` with STATUS 0, it has turned the byte of
register `r` into what `f` makes of it. -/
def CalmEffect (r : Addr) (n : Nat) (f : Byte → Byte) (s t : State) : Prop :=
  calmFor n s = true → t.status = some 0x00 → regByte t r = f (regByte s r)

/-- The first of the calm calls, and the calm of those after it. -/
theorem exists_draw_of_calmFor {n : Nat} {s : State} (h : calmFor (n + 1) s = true) :
    ∃ d ds, s.draws = d :: ds ∧ d.calm = true ∧ ∀ u : State, u.draws = ds → calmFor n u = true := by
  simp only [calmFor, Bool.and_eq_true, decide_eq_true_eq] at h ⊢
  obtain ⟨hlen, hall⟩ := h
  obtain ⟨d, ds, hs⟩ := List.exists_cons_of_length_pos (Nat.zero_lt_of_lt hlen)
  simp only [hs, List.take_succ_cons, List.all_cons, Bool.and_eq_true] at hlen hall
  exact ⟨d, ds, hs, hall.1, fun u hu => by rw [hu]; exact ⟨Nat.le_of_succ_le_succ hlen, hall.2⟩⟩

theorem CalmEffect.of_reg_eq {r : Addr} {n : Nat} {s t : State} (h : t.reg = s.reg) : CalmEffect r n id s t :=
  fun _ _ => regByte_congr h r

/-- A command that raises does not end with STATUS 0 (R240). -/
theorem CalmEffect.raise {r : Addr} {n : Nat} {f : Byte → Byte} (e : CommandError) (s t : State) :
    CalmEffect r n f s (raise e t) := by
  intro _ hst
  cases e <;> cases hst

/-- A calm read leaves the register file as it is, so the effect is that of what follows. -/
theorem CalmEffect.readThen {r : Addr} {n : Nat} {f : Byte → Byte} (a : Addr) (c : Nat)
    {k : List Byte → State → State} (s : State) (hk : ∀ b u, CalmEffect r n f u (k b u)) :
    CalmEffect r (n + 1) f s (readThen a c k s) := by
  intro hcalm hst
  obtain ⟨d, ds, hs, hd, hrest⟩ := exists_draw_of_calmFor hcalm
  rw [readThen_afterCall a c k hs, atByte_calm s c hd] at hst ⊢
  split at hst
  case isTrue hok => rw [if_pos hok]; exact hk _ _ (hrest _ rfl) hst
  case isFalse => cases hst

/-- A calm write to other registers leaves the register as it is. -/
theorem CalmEffect.writeThen {r a : Addr} {n c : Nat} {f : Byte → Byte} {bs : List Byte}
    (hc : bs.length = c) (hr : r ∉ addressed a c) {k : State → State} (s : State)
    (hk : ∀ u, CalmEffect r n f u (k u)) :
    CalmEffect r (n + 1) f s (writeThen a bs k s) := by
  intro hcalm hst
  obtain ⟨d, ds, hs, hd, hrest⟩ := exists_draw_of_calmFor hcalm
  have hother : regByte (setRegs a bs s) r = regByte s r := regByte_setRegs_other bs a r s fun i hi e =>
    hr (List.mem_map.mpr ⟨i, List.mem_range.mpr (hc ▸ hi), e.symm⟩)
  rw [writeThen_afterCall a bs k hs, atStart_calm s hd] at hst ⊢
  split at hst
  case isTrue hok => rw [if_pos hok, hk _ (hrest _ rfl) hst, ← hother]; rfl
  case isFalse => cases hst

/-- A calm read-modify-write of another register leaves the register as it is. -/
theorem CalmEffect.rmwThen_other {r a : Addr} (hr : r ∉ addressed a 1) (mask bits fl : Byte) (s : State) :
    CalmEffect r 2 id s (rmwThen a mask bits (complete fl) s) :=
  .readThen a 1 s fun _ u => .writeThen rfl hr u fun _ => .of_reg_eq rfl

/-- A calm read-modify-write puts `(x & ~mask) | bits` where `x` was (R201). -/
theorem CalmEffect.rmwThen (a : Addr) (mask bits fl : Byte) (s : State) :
    CalmEffect a 2 (fun x => (x &&& ~~~mask) ||| bits) s (rmwThen a mask bits (complete fl) s) := by
  intro hcalm hst
  obtain ⟨d1, ds, hs, hd1, hrest⟩ := exists_draw_of_calmFor hcalm
  obtain ⟨d2, ds, rfl, hd2, -⟩ := exists_draw_of_calmFor (hrest { s with draws := ds } rfl)
  rw [rmwThen_complete_draw fl hs rfl rfl rfl, byteOf_calm s a 0 hd1, atByte_calm s 1 hd1, atStart_calm s hd2,
    BitVec.ofNat_eq_ofNat, BitVec.add_zero] at hst ⊢
  split_ifs at hst ⊢ with h1 h2
  · exact regByte_setReg_same a _ s
  all_goals cases hst

/-! ### The control register after a command (R202 to R208) -/

/-- What a command that ends with STATUS 0 makes of the control register's byte when the chip stands still. -/
def controlAfter : Instr → Byte → Byte
  | .seteosc v, x => (x &&& ~~~0x80) ||| placed v 7
  | .setbbsqw v, x => (x &&& ~~~0x40) ||| placed v 6
  | .setrs rs, x => (x &&& ~~~0x1C) ||| (placed rs 3 ||| 0x04)
  | .setintcn v, x => (x &&& ~~~0x04) ||| placed v 2
  | .seta1ie v, x => (x &&& ~~~0x05) ||| (placed v 0 ||| 0x04)
  | .seta2ie v, x => (x &&& ~~~0x06) ||| (placed v 1 ||| 0x04)
  | .setal1 al, x => (x &&& ~~~0x05) ||| (0x04 ||| placed al.ie 0)
  | .setal2 al, x => (x &&& ~~~0x06) ||| (0x04 ||| placed al.ie 1)
  | _, x => x

theorem CalmEffect.writeTime (dt : DateTime) (s : State) : CalmEffect 0x0E 1 id s (writeTime dt s) := by
  unfold Machine.writeTime
  split
  · exact .writeThen (c := 7) rfl (by decide) s fun _ => .of_reg_eq rfl
  · exact .raise _ _ _

/-- Every command's effect on the control register when its calls are calm. -/
theorem exec_control (i : Instr) (s : State) :
    ∃ t, exec i s = .next t ∧ CalmEffect 0x0E (transportCalls i) (controlAfter i) s t := by
  cases i with
  | bcddec _ | bcdenc _ | u2dt _ | leap4 _ | leapg _ | ldu _ => exact ⟨_, rfl, .of_reg_eq rfl⟩
  | dt2u _ | dow _ =>
    refine ⟨_, rfl, .of_reg_eq ?_⟩
    rw [complete_reg]
    split <;> rfl
  | setdt dt => exact ⟨_, rfl, .writeTime dt s⟩
  | setu u => exact ⟨_, rfl, .writeTime _ s⟩
  | getdt => exact ⟨_, rfl, .readThen _ _ s fun _ _ => .of_reg_eq rfl⟩
  | getu =>
    refine ⟨_, rfl, .readThen _ _ s fun _ _ => .of_reg_eq ?_⟩
    rw [complete_reg]
    split <;> rfl
  | setal1 _ =>
    refine ⟨_, rfl, ?_⟩
    split
    · exact .raise _ _ _
    · exact .writeThen (c := 4) rfl (by decide) s fun u => .rmwThen _ _ _ _ u
  | setal2 _ =>
    refine ⟨_, rfl, ?_⟩
    split
    · exact .raise _ _ _
    · exact .writeThen (c := 3) rfl (by decide) s fun u => .rmwThen _ _ _ _ u
  | getal1 | getal2 => exact ⟨_, rfl, .readThen _ _ s fun _ u => .readThen _ _ u fun _ _ => .of_reg_eq rfl⟩
  | seteosc _ | setbbsqw _ | setrs _ | setintcn _ | seta1ie _ | seta2ie _ => exact ⟨_, rfl, .rmwThen _ _ _ _ s⟩
  | seten32k _ | clra1f | clra2f | clrosf => exact ⟨_, rfl, .rmwThen_other (by decide) _ _ _ s⟩
  | geteosc | getbbsqw | getrs | getintcn | geta1ie | geta2ie | geten32k | geta1f | geta2f | getosf
  | getbsy => exact ⟨_, rfl, .readThen _ _ s fun _ _ => .of_reg_eq rfl⟩

/-! ### Bit fields of a merged byte (R9, R201) -/

theorem extractLsb'_placed {w n : Nat} (v : BitVec w) (h : n + w ≤ 8) : (placed v n).extractLsb' n w = v := by
  ext i hi
  have hn : n + i < 8 := by omega
  simp [placed, hn, BitVec.getLsbD_eq_getElem hi]

theorem extractLsb'_placed_of_disjoint {w n k c : Nat} (v : BitVec w) (h : n + w ≤ k ∨ k + c ≤ n) :
    (placed v n).extractLsb' k c = 0 := by
  ext i hi
  simp only [placed, BitVec.getElem_extractLsb', BitVec.getLsbD_shiftLeft, BitVec.getLsbD_setWidth]
  rcases h with habove | hbelow
  · simp [BitVec.getLsbD_of_ge v (k + i - n) (by omega)]
  · simp [show k + i < n by omega]

/-- A field the mask owns holds its new bits. -/
theorem extractLsb'_merge_owned {mask : Byte} {n w : Nat} (x bits : Byte) (h : n + w < 8)
    (hmask : mask.extractLsb' n w = BitVec.allOnes w) :
    ((x &&& ~~~mask) ||| bits).extractLsb' n w = bits.extractLsb' n w := by
  simp [BitVec.extractLsb'_or, BitVec.extractLsb'_and, BitVec.extractLsb'_not_of_lt h, hmask]

/-- A field the mask does not own, and no new bit falls in, is kept. -/
theorem extractLsb'_merge_kept {mask bits : Byte} {n w : Nat} (x : Byte) (h : n + w < 8)
    (hmask : mask.extractLsb' n w = 0) (hbits : bits.extractLsb' n w = 0) :
    ((x &&& ~~~mask) ||| bits).extractLsb' n w = x.extractLsb' n w := by
  simp [BitVec.extractLsb'_or, BitVec.extractLsb'_and, BitVec.extractLsb'_not_of_lt h, hmask, hbits]

/-- A setting written together with INTCN = 1 (R202): its own field and bit 2. -/
theorem extractLsb'_merge_coupled {mask : Byte} {n w : Nat} (x : Byte) (v : BitVec w) (h : n + w < 8)
    (hmask : mask.extractLsb' n w = BitVec.allOnes w) (hintcn : mask.extractLsb' 2 1 = BitVec.allOnes 1)
    (hdisjoint : n + w ≤ 2 ∨ 3 ≤ n) (hfield : (0x04 : Byte).extractLsb' n w = 0) :
    ((x &&& ~~~mask) ||| (placed v n ||| 0x04)).extractLsb' n w = v ∧
      ((x &&& ~~~mask) ||| (placed v n ||| 0x04)).extractLsb' 2 1 = 1 := by
  rw [extractLsb'_merge_owned _ _ h hmask, extractLsb'_merge_owned _ _ (by decide) hintcn, BitVec.extractLsb'_or,
    BitVec.extractLsb'_or, extractLsb'_placed v h.le, hfield, extractLsb'_placed_of_disjoint v hdisjoint]
  exact ⟨BitVec.or_zero, BitVec.zero_or⟩

/-! ### INTCN and the fields coupled with it (R202) -/

/-- The rate select, and INTCN with it (R205). -/
theorem controlAfter_setrs (rs : BitVec 2) (x : Byte) : (controlAfter (.setrs rs) x).extractLsb' 3 2 = rs ∧
    (controlAfter (.setrs rs) x).extractLsb' 2 1 = 1 :=
  extractLsb'_merge_coupled x rs (by decide) (by decide) (by decide) (by decide) (by decide)

/-- A1IE, and INTCN with it (R207). -/
theorem controlAfter_seta1ie (v : Bit) (x : Byte) : (controlAfter (.seta1ie v) x).extractLsb' 0 1 = v ∧
    (controlAfter (.seta1ie v) x).extractLsb' 2 1 = 1 :=
  extractLsb'_merge_coupled x v (by decide) (by decide) (by decide) (by decide) (by decide)

/-- A2IE, and INTCN with it (R208). -/
theorem controlAfter_seta2ie (v : Bit) (x : Byte) : (controlAfter (.seta2ie v) x).extractLsb' 1 1 = v ∧
    (controlAfter (.seta2ie v) x).extractLsb' 2 1 = 1 :=
  extractLsb'_merge_coupled x v (by decide) (by decide) (by decide) (by decide) (by decide)

/-- SETAL1 changes control as SETA1IE with its `ie` does (R185). -/
theorem controlAfter_setal1 (al : AlarmRecord) (x : Byte) :
    controlAfter (.setal1 al) x = controlAfter (.seta1ie al.ie) x := by
  rw [controlAfter, controlAfter, BitVec.or_comm (0x04 : Byte)]

/-- SETAL2 changes control as SETA2IE with its `ie` does (R187). -/
theorem controlAfter_setal2 (al : AlarmRecord) (x : Byte) :
    controlAfter (.setal2 al) x = controlAfter (.seta2ie al.ie) x := by
  rw [controlAfter, controlAfter, BitVec.or_comm (0x04 : Byte)]

theorem controlAfter_forcesIntcn {i : Instr} (h : forcesIntcn i = true) (x : Byte) :
    (controlAfter i x).extractLsb' 2 1 = 1 := by
  cases i with
  | setrs rs => exact (controlAfter_setrs rs x).2
  | seta1ie v => exact (controlAfter_seta1ie v x).2
  | seta2ie v => exact (controlAfter_seta2ie v x).2
  | setal1 al => rw [controlAfter_setal1]; exact (controlAfter_seta1ie al.ie x).2
  | setal2 al => rw [controlAfter_setal2]; exact (controlAfter_seta2ie al.ie x).2
  | _ => cases h

theorem controlAfter_setintcn (v : Bit) (x : Byte) : (controlAfter (.setintcn v) x).extractLsb' 2 1 = v :=
  (extractLsb'_merge_owned x _ (by decide) (by decide)).trans (extractLsb'_placed v (by decide))

theorem controlAfter_keepsIntcn {i : Instr} (h : forcesIntcn i = false) (hset : ∀ v, i ≠ .setintcn v) (x : Byte) :
    (controlAfter i x).extractLsb' 2 1 = x.extractLsb' 2 1 := by
  cases i with
  | setrs _ | seta1ie _ | seta2ie _ | setal1 _ | setal2 _ => cases h
  | setintcn v => exact absurd rfl (hset v)
  | seteosc v | setbbsqw v =>
    exact extractLsb'_merge_kept x (by decide) (by decide) (extractLsb'_placed_of_disjoint v (by decide))
  | _ => rfl

/-- Settles O21: the control register ends as `controlAfter` says, and its fields are read off there. -/
theorem intcnIsForcedByTheCouplingAlone : Obligations.IntcnIsForcedByTheCouplingAlone := by
  intro i s t hcalm hexec hst
  obtain ⟨t', hexec', heffect⟩ := exec_control i s
  obtain rfl : t' = t := Host.Outcome.next.inj (hexec'.symm.trans hexec)
  rw [heffect hcalm hst]
  refine ⟨fun h => controlAfter_forcesIntcn h _, ?_, fun h hset => controlAfter_keepsIntcn h hset _, ?_, ?_, ?_, ?_, ?_⟩
  · rintro v rfl
    exact controlAfter_setintcn v _
  · rintro v rfl
    exact (controlAfter_seta1ie v _).1
  · rintro al rfl
    rw [controlAfter_setal1]
    exact (controlAfter_seta1ie al.ie _).1
  · rintro v rfl
    exact (controlAfter_seta2ie v _).1
  · rintro al rfl
    rw [controlAfter_setal2]
    exact (controlAfter_seta2ie al.ie _).1
  · rintro rs rfl
    exact (controlAfter_setrs rs _).1

end Sys2Proof.Machine

/-! PROOFS. The statements of 60_exceptions.md: which commands raise ValidationFailure (R243). -/

namespace Sys2Proof.Machine

open Sys2Proof

/-- The commands that fail validation, named (R243). -/
theorem failsValidation_iff (i : Instr) : failsValidation i ↔ (∃ dt, i = .setdt dt ∧ ¬ legalFields dt) ∨
    ∃ u : UnixTime, i = .setu u ∧ (u.toNat < 946684800 ∨ 4102444799 < u.toNat) := by
  cases i <;> simp [failsValidation]

/-- The calls of the transfer table end with STATUS 0 or 1 (R244). -/
theorem MakesCalls.status_ne_validationFailure {shapes : List CallShape} {s t : State} (h : MakesCalls shapes s t) :
    t.status ≠ some 0x02 := by
  obtain ⟨_, _, _, _, _, ⟨hst, _⟩ | ⟨hst, _⟩, _⟩ := h.exists_calls <;> rw [hst] <;> decide

/-- Of the commands that pass validation, canonical or not, only an alarm setter of a reserved mode does not make the
calls of the transfer table (R57, R85). -/
theorem exec_makesCalls_or_illegal {i : Instr} (s : State) (hvalid : ¬ failsValidation i) :
    ∃ t, exec i s = .next t ∧ (MakesCalls (callTable i) s t ∨ t = raise .illegalCommand s) := by
  cases i with
  | dt2u _ | dow _ =>
    refine ⟨_, rfl, .inl ?_⟩
    split <;> exact .done rfl rfl rfl
  | setdt dt => exact ⟨_, exec_setdt dt s, .inl (.writeTime (not_not.mp hvalid) s)⟩
  | setal1 al =>
    rcases le_or_gt al.mode.toNat 4 with hmode | hmode
    · exact ⟨_, exec_setal1 hmode s, .inl (.setAlarm 0x07 0x0E (alarm1Block al) _ _ _ s)⟩
    · exact ⟨_, exec_setal1_reservedMode hmode s, .inr rfl⟩
  | setal2 al =>
    rcases le_or_gt al.mode.toNat 3 with hmode | hmode
    · exact ⟨_, exec_setal2 hmode s, .inl (.setAlarm 0x0B 0x0E (alarm2Block al) _ _ _ s)⟩
    · exact ⟨_, exec_setal2_reservedMode hmode s, .inr rfl⟩
  | _ =>
    obtain ⟨t, hexec, hcalls⟩ := exec_makesCalls s rfl hvalid
    exact ⟨t, hexec, .inl hcalls⟩

/-- Settles O23: a command either fails validation before its first call, or makes its calls or is refused. -/
theorem onlySetdtAndSetuRaiseValidationFailure : Obligations.OnlySetdtAndSetuRaiseValidationFailure := by
  intro i s t hexec
  rw [← failsValidation_iff]
  by_cases hfails : failsValidation i
  · obtain rfl : raise .validationFailure s = t :=
      Host.Outcome.next.inj ((exec_failsValidation s hfails).symm.trans hexec)
    exact ⟨iff_of_true rfl hfails, fun _ => ⟨rfl, rfl, rfl⟩⟩
  · obtain ⟨t', hexec', hend⟩ := exec_makesCalls_or_illegal s hfails
    obtain rfl : t' = t := Host.Outcome.next.inj (hexec'.symm.trans hexec)
    have hst : t'.status ≠ some 0x02 := by
      rcases hend with hcalls | rfl
      · exact hcalls.status_ne_validationFailure
      · rw [raise_status]
        decide
    exact ⟨iff_of_false hst hfails, fun h => absurd h hst⟩

end Sys2Proof.Machine

/-! PROOFS. The packed word of a command (R80), and the ports a command does not read (R81, R82). -/

namespace Sys2Proof.Machine

open Sys2Proof

/-! ### The packed form (R80): each field comes back from its place -/

theorem unpackDateTime_packDateTime (d : DateTime) : unpackDateTime (packDateTime d) = d := by
  cases d
  simp only [unpackDateTime, packDateTime, DateTime.mk.injEq]
  refine ⟨?_, ?_, ?_, ?_, ?_, ?_, ?_, ?_⟩
  all_goals repeat rw [BitVec.extractLsb'_append_eq_of_le (by decide)]
  exacts [BitVec.extractLsb'_append_eq_right, BitVec.extractLsb'_append_eq_right, BitVec.extractLsb'_append_eq_right,
    BitVec.extractLsb'_append_eq_right, BitVec.extractLsb'_append_eq_right, BitVec.extractLsb'_append_eq_right,
    BitVec.extractLsb'_append_eq_right, BitVec.extractLsb'_eq_self]

theorem unpackAlarm_packAlarm (r : AlarmRecord) : unpackAlarm (packAlarm r) = r := by
  cases r
  simp only [unpackAlarm, packAlarm, AlarmRecord.mk.injEq]
  refine ⟨?_, ?_, ?_, ?_, ?_, ?_, ?_⟩
  all_goals repeat rw [BitVec.extractLsb'_append_eq_of_le (by decide)]
  exacts [BitVec.extractLsb'_append_eq_right, BitVec.extractLsb'_append_eq_right, BitVec.extractLsb'_append_eq_right,
    BitVec.extractLsb'_append_eq_right, BitVec.extractLsb'_append_eq_right, BitVec.extractLsb'_append_eq_right,
    BitVec.extractLsb'_eq_self]

theorem unpackCommand_packCommand (c : Command) : unpackCommand (packCommand c) = c := by
  have hop : (packCommand c).extractLsb' 0 8 = c.op := BitVec.extractLsb'_append_eq_right
  have ha : (packCommand c).extractLsb' 8 32 = c.a :=
    (BitVec.extractLsb'_append_eq_of_le (by decide)).trans BitVec.extractLsb'_append_eq_right
  have hdt : (packCommand c).extractLsb' 40 65 = packDateTime c.dt := by
    rw [packCommand]
    repeat rw [BitVec.extractLsb'_append_eq_of_le (by decide)]
    exact BitVec.extractLsb'_append_eq_right
  have hal : (packCommand c).extractLsb' 105 37 = packAlarm c.al := by
    rw [packCommand]
    repeat rw [BitVec.extractLsb'_append_eq_of_le (by decide)]
    exact BitVec.extractLsb'_eq_self
  rw [unpackCommand, hop, ha, hdt, hal, unpackDateTime_packDateTime, unpackAlarm_packAlarm]

/-- All 142 bits of a word are the ports it packs. -/
theorem tableCommand_toNat (w : BitVec 142) : tableCommand 142 w.toNat = unpackCommand w := by
  rw [tableCommand, Nat.mod_eq_of_lt w.isLt, BitVec.ofNat_toNat, BitVec.setWidth_eq]

/-- The ports that present a well-formed command decode to it (R82, R83, R85). -/
theorem decode_encode : ∀ i : Instr, Laws.RoundTrip.Statement i
  | .bcddec b => Laws.RoundTrip.bcddec b
  | .bcdenc v => Laws.RoundTrip.bcdenc v
  | .dt2u dt => Laws.RoundTrip.dt2u dt
  | .u2dt t => Laws.RoundTrip.u2dt t
  | .dow dt => Laws.RoundTrip.dow dt
  | .leap4 y => Laws.RoundTrip.leap4 y
  | .leapg y => Laws.RoundTrip.leapg y
  | .ldu t => Laws.RoundTrip.ldu t
  | .setdt dt => Laws.RoundTrip.setdt dt
  | .getdt => Laws.RoundTrip.getdt
  | .setu t => Laws.RoundTrip.setu t
  | .getu => Laws.RoundTrip.getu
  | .setal1 al => Laws.RoundTrip.setal1 al
  | .getal1 => Laws.RoundTrip.getal1
  | .setal2 al => Laws.RoundTrip.setal2 al
  | .getal2 => Laws.RoundTrip.getal2
  | .seteosc v => Laws.RoundTrip.seteosc v
  | .setbbsqw v => Laws.RoundTrip.setbbsqw v
  | .setrs rs => Laws.RoundTrip.setrs rs
  | .setintcn v => Laws.RoundTrip.setintcn v
  | .seta1ie v => Laws.RoundTrip.seta1ie v
  | .seta2ie v => Laws.RoundTrip.seta2ie v
  | .seten32k v => Laws.RoundTrip.seten32k v
  | .clra1f => Laws.RoundTrip.clra1f
  | .clra2f => Laws.RoundTrip.clra2f
  | .clrosf => Laws.RoundTrip.clrosf
  | .geteosc => Laws.RoundTrip.geteosc
  | .getbbsqw => Laws.RoundTrip.getbbsqw
  | .getrs => Laws.RoundTrip.getrs
  | .getintcn => Laws.RoundTrip.getintcn
  | .geta1ie => Laws.RoundTrip.geta1ie
  | .geta2ie => Laws.RoundTrip.geta2ie
  | .geten32k => Laws.RoundTrip.geten32k
  | .geta1f => Laws.RoundTrip.geta1f
  | .geta2f => Laws.RoundTrip.geta2f
  | .getosf => Laws.RoundTrip.getosf
  | .getbsy => Laws.RoundTrip.getbsy

/-- Settles O1: unpacking gives back the encoder's ports, which decode to the command. -/
theorem encodedWordDecodes : Obligations.EncodedWordDecodes := by
  intro i hwf
  rw [decodeTableWord, encodeWord, tableCommand_toNat, unpackCommand_packCommand, decode_encode i hwf]

/-- Settles O7: each word is unpacked and decoded. -/
theorem wordsFromTheEncodingDecode : Obligations.WordsFromTheEncodingDecode :=
  ⟨by decide +kernel, by decide +kernel, by decide +kernel, by decide +kernel, by decide +kernel, by decide +kernel,
    by decide +kernel⟩

/-! ### The ports a command does not read (R81, R82) -/

/-- Tuples that agree on the ports R82 lists for their OP decode alike, to a command or to a refusal. -/
theorem decode_congr {c c' : Command} (hop : c.op = c'.op) (hagree : agreeOnOperands c c') : decode c = decode c' := by
  obtain ⟨op, a, dt, al⟩ := c
  obtain ⟨op', a', dt', al'⟩ := c'
  obtain rfl : op = op' := hop
  unfold agreeOnOperands at hagree
  unfold decode
  simp only [portBits_eq_extractLsb']
  dsimp only at hagree ⊢
  split <;> simp_all

/-- The encoder presents a decoded command under the OP it was decoded from. -/
theorem encode_op_of_decode {c : Command} {i : Instr} (h : decode c = .ok i) : (encode i).op = c.op := by
  unfold decode at h
  split at h
  case h_13 hop | h_15 hop =>
    split at h
    case isTrue => cases h; exact hop.symm
    case isFalse => cases h
  case h_38 => cases h
  all_goals
    cases h
    symm
    assumption

/-- Settles O6: presenting a tuple depends on what it decodes to alone. -/
theorem unreadPortBitsDoNotMatter : Obligations.UnreadPortBitsDoNotMatter := by
  refine ⟨fun c c' s hop hagree => ?_, fun c i h => ?_⟩
  · unfold present
    rw [decode_congr hop hagree]
  · have hwf := decode_wellFormed h
    have hback := decode_encode i hwf
    exact ⟨hwf, hback, encode_op_of_decode h, fun s => (present_of_decode hback s).trans (present_of_decode h s).symm⟩

end Sys2Proof.Machine

/-! PROOFS. The sticky flags of the status register (R60, R201, 60_exceptions.md section 2), the bytes and instants of
a transport call (R52 to R55, R61), and a read-modify-write that the chip falls between (R62). -/

namespace Sys2Proof.Machine

open Sys2Proof

/-! ### A completed read-modify-write, whatever the environment does (R201) -/

/-- The byte of a one-register read is one the chip's own steps could make of the register (R52, R60). -/
theorem chipReaches_of_memRead {a : Addr} {s t : State} {b : List Byte} (h : memRead a 1 s = (some b, t)) :
    chipReaches s.params a (regByte s a) (byteAt b 0) = true := by
  unfold memRead at h
  split at h
  · cases h
    exact ((VolatileOnly.refl a s).beginCall _).2
  · cases h

/-- A one-byte write after which the command completed has stored its byte (R53, R244). -/
theorem regByte_writeThen_complete {a : Addr} {x fl : Byte} {s : State}
    (h : (writeThen a [x] (complete fl) s).status = some 0x00) :
    regByte (writeThen a [x] (complete fl) s) a = x := by
  unfold writeThen memWrite at h ⊢
  split_ifs at h ⊢
  · exact regByte_setReg_same a x _
  · cases h

/-- A setter that completed has stored its merge with a byte that the chip's steps could make of the register. -/
theorem regByte_setBits {a : Addr} {mask bits : Byte} {s : State} (h : (setBits a mask bits s).status = some 0x00) :
    ∃ x, chipReaches s.params a (regByte s a) x = true ∧
      regByte (setBits a mask bits s) a = (x &&& ~~~mask) ||| bits := by
  unfold setBits rmwThen readThen at h ⊢
  rcases hread : memRead a 1 s with ⟨_ | b, t⟩ <;> rw [hread] at h
  · cases h
  · exact ⟨byteAt b 0, chipReaches_of_memRead hread, regByte_writeThen_complete h⟩

/-! ### The sticky flags (R60, R210 to R212) -/

/-- Only the four setters of the status register store to it, by the read-modify-write of their row (R57). -/
theorem setterRow_of_status_stored {i : Instr} (h : 0x0F ∈ storedRegs i) :
    ∃ mask bits, setterRow i = some (0x0F, mask, bits) := by
  have hall : (storedRegs i).contains 0x0F = (setterRow i).any (fun row => row.1 == 0x0F) := by cases i <;> rfl
  rw [← List.contains_iff_mem, hall, Option.any_eq_true] at h
  obtain ⟨⟨a, mask, bits⟩, hrow, ha⟩ := h
  obtain rfl : a = 0x0F := beq_iff_eq.mp ha
  exact ⟨mask, bits, hrow⟩

/-- A setter of the status register owns a sticky bit only where it is that bit's clear. -/
theorem setterRow_not_owned {i : Instr} {mask bits : Byte} (h : setterRow i = some (0x0F, mask, bits)) :
    (i ≠ .clrosf → mask.getLsbD 7 = false) ∧ (i ≠ .clra2f → mask.getLsbD 1 = false) ∧
      (i ≠ .clra1f → mask.getLsbD 0 = false) := by
  cases i with
  | seten32k _ | clra1f | clra2f | clrosf => cases h; simp
  | _ => cases h

/-- A status bit that the chip cannot clear stays set through a command that completes and does not own it. -/
theorem exec_keeps_statusBit {i : Instr} {s t : State} {k : Nat} (hk : k < 8)
    (hany : (volatileRow s.params 0x0F).any.getLsbD k = false)
    (hmask : ∀ mask bits, setterRow i = some (0x0F, mask, bits) → mask.getLsbD k = false)
    (hexec : exec i s = .next t) (hst : t.status = some 0x00) (hset : (regByte s 0x0F).getLsbD k = true) :
    (regByte t 0x0F).getLsbD k = true := by
  have hup {x : Byte} (hx : chipReaches s.params 0x0F (regByte s 0x0F) x = true) : x.getLsbD k = true :=
    ((chipReaches_iff _ _ _ _).mp hx k hk hany).1 hset
  by_cases hstored : 0x0F ∈ storedRegs i
  · obtain ⟨mask, bits, hrow⟩ := setterRow_of_status_stored hstored
    obtain rfl : setBits 0x0F mask bits s = t := Host.Outcome.next.inj ((exec_of_setterRow hrow s).symm.trans hexec)
    obtain ⟨x, hx, hbyte⟩ := regByte_setBits hst
    rw [hbyte, BitVec.getLsbD_or, BitVec.getLsbD_and, BitVec.getLsbD_not, hup hx, hmask mask bits hrow]
    simp [hk]
  · obtain ⟨u, hu, -, hreach⟩ := exec_volatileOnly i s hstored
    obtain rfl : u = t := Host.Outcome.next.inj (hu.symm.trans hexec)
    exact hup hreach

theorem getLsbD_of_and_eq_zero {x m : Byte} {k : Nat} (h : x &&& m = 0) (hm : m.getLsbD k = true) :
    x.getLsbD k = false := by
  simpa [hm] using congrArg (BitVec.getLsbD · k) h

/-- Settles O20: the chip only raises the three flags, and a setter merges into the byte it read. -/
theorem stickyFlagsFallOnlyWhenCleared : Obligations.StickyFlagsFallOnlyWhenCleared := by
  refine ⟨by decide, fun i s t hany hexec hst => ⟨fun hne => ?_, fun hne => ?_, fun hne => ?_⟩⟩
  · exact exec_keeps_statusBit (by decide) (getLsbD_of_and_eq_zero hany (by decide))
      (fun _ _ hrow => (setterRow_not_owned hrow).1 hne) hexec hst
  · exact exec_keeps_statusBit (by decide) (getLsbD_of_and_eq_zero hany (by decide))
      (fun _ _ hrow => (setterRow_not_owned hrow).2.1 hne) hexec hst
  · exact exec_keeps_statusBit (by decide) (getLsbD_of_and_eq_zero hany (by decide))
      (fun _ _ hrow => (setterRow_not_owned hrow).2.2 hne) hexec hst

/-! ### One transport call whose draw is listed (R52 to R55, R61) -/

/-- The bytes a successful read delivers, by index. -/
theorem getElem?_map_byteOf (s : State) (d : CallDraw) (a : Addr) {n i : Nat} (hi : i < n) :
    ((List.range n).map (byteOf s d a))[i]? = some (regByte (atByte s d i) (a + BitVec.ofNat 8 i)) := by
  rw [List.getElem?_map, List.getElem?_range hi]
  rfl

/-- Settles O26: both endings of a read whose draw is listed. -/
theorem readReturnsRegisterBytesOrNothing : Obligations.ReadReturnsRegisterBytesOrNothing := by
  refine ⟨fun a n s d ds hs hok => ⟨_, ?_, ?_, fun i hi => getElem?_map_byteOf s d a hi⟩,
    fun a n s d ds hs hfail => ?_⟩
  · rw [memRead_draw a n hs, if_pos hok]
  · rw [List.length_map, List.length_range]
  · have hread := memRead_draw a n hs
    rw [if_neg (ne_true_of_eq_false hfail)] at hread
    refine ⟨hread, fun k => ?_⟩
    rw [readThen, hread]
    rfl

/-- Where P_READ_ATOMIC is false the gaps are the draw's (R61). -/
theorem atByte_of_not_atomic {s : State} (d : CallDraw) (i : Nat) (h : s.params.readAtomic = false) :
    atByte s d i = chipSteps (d.before ++ (d.between.take i).flatten) s := by
  rw [atByte, gapsOf, h]
  rfl

/-- Where P_READ_ATOMIC is true every byte is from the call's beginning (R61). -/
theorem atByte_of_atomic {s : State} (d : CallDraw) (i : Nat) (h : s.params.readAtomic = true) :
    atByte s d i = chipSteps d.before s := by
  rw [atByte, gapsOf, h]
  simp

/-- Settles O27: the instants of a read's bytes by the parameter, and the one instant of a write. -/
theorem readAtomicDecidesWhenBytesAreTaken : Obligations.ReadAtomicDecidesWhenBytesAreTaken := by
  refine ⟨fun a n s d ds hs hok => ⟨fun hsplit => ?_, fun hatomic => ?_⟩, fun a bs s d ds hs hok => ?_, rfl⟩
  · obtain ⟨b, hb, hlen, hbyte⟩ := readReturnsRegisterBytesOrNothing.1 a n s d ds hs hok
    refine ⟨b, congrArg Prod.fst hb, hlen, fun i hi => ?_⟩
    rw [hbyte i hi, atByte_of_not_atomic d i hsplit]
  · rw [memRead_draw a n hs, if_pos hok]
    refine congrArg some (List.map_congr_left fun i _ => ?_)
    rw [byteOf, atByte_of_atomic d i hatomic]
  · rw [memWrite_draw a bs hs, hok]
    exact ⟨rfl, rfl⟩

/-! ### A setter's read and write (R62, R201) -/

/-- The first byte of a read is taken before any gap. -/
theorem byteOf_zero (s : State) (d : CallDraw) (a : Addr) : byteOf s d a 0 = regByte (atStart s d) a := by
  rw [byteOf, atByte, List.take_zero, List.flatten_nil, List.append_nil, atStart, BitVec.add_zero]

/-- Settles O30: the setter's store falls on the chip as it stands when the write begins. -/
theorem readModifyWriteRestoresWhatItRead : Obligations.ReadModifyWriteRestoresWhatItRead := by
  intro i r m v s d1 d2 ds hrow hs h1 h2
  obtain ⟨hexec, -, -⟩ := exec_setter_draw hrow hs rfl rfl
  refine ⟨_, hexec h1 h2, rfl, rfl, ?_, fun a ha => ?_⟩
  · rw [← byteOf_zero]
    exact regByte_setReg_same r _ _
  · exact regByte_setReg_other _ _ ha

/-! ### A read across a carry (R61, R278) -/

/-- A successful read after whose first byte the clock goes to 12:01:00. -/
def readAcrossCarry : CallDraw := ⟨true, [], [[⟨0x00, 0x00⟩, ⟨0x01, 0x01⟩]], []⟩

/-- The time registers at 2024-02-29 12:00:59, before that read. -/
def beforeCarry : State :=
  { State.reset with
    reg := [(0x00, 0x59), (0x01, 0x00), (0x02, 0x12), (0x03, 0x04), (0x04, 0x29), (0x05, 0x02), (0x06, 0x24)]
    draws := [readAcrossCarry] }

/-- The chip has stepped by the first gap, and never again. -/
theorem atByte_beforeCarry_succ (i : Nat) :
    atByte beforeCarry readAcrossCarry (i + 1) = atByte beforeCarry readAcrossCarry 1 := by
  simp [atByte, gapsOf, beforeCarry, defaultParams, readAcrossCarry]

/-- Settles O31: the seconds are delivered before the carry, and every later byte after it. -/
theorem readMayStraddleACarry : Obligations.ReadMayStraddleACarry := by
  refine ⟨beforeCarry, _, readAcrossCarry, [], rfl, rfl, rfl, rfl, rfl, by decide +kernel, fun i => ?_, rfl, rfl,
    by decide +kernel, by decide +kernel, by decide +kernel⟩
  cases i with
  | zero => decide +kernel
  | succ i => rw [atByte_beforeCarry_succ, if_neg (Nat.succ_ne_zero i)]; decide +kernel

end Sys2Proof.Machine

/-! PROOFS. What a command is, said once: some transport calls, each of which may fail, and then its result registers
and FLAGS and STATUS written. From it: what a command reads and writes (R20, R28, R29), how it ends (R240 to R244), the
parameters (R8), and the registers it leaves alone (R53, R57). Then the host's moves (R41, R270). -/

namespace Sys2Proof.Machine

open Sys2Proof

/-! ### A command as its calls and its ending -/

/-- How a command ends: with an error (R241), or with FLAGS and the result registers it writes (R12). -/
inductive Ending where
  | raised (e : CommandError)
  | completed (fl : Byte) (u : Option UnixTime) (b : Option Byte) (dt : Option DateTime) (al : Option AlarmRecord)

/-- What an ending does to the state. -/
def Ending.apply : Ending → State → State
  | .raised e, s => raise e s
  | .completed fl u b dt al, s => complete fl
      { s with resU := u.or s.resU, resB := b.or s.resB, resDT := dt.or s.resDT, resAL := al.or s.resAL }

/-- The ending writes only result registers that the command may write (R20). -/
def Ending.allowed (i : Instr) : Ending → Bool
  | .raised _ => true
  | .completed _ u b dt al =>
    (mayWriteU i || u.isNone) && (mayWriteB i || b.isNone) && (mayWriteDT i || dt.isNone) && (mayWriteAL i || al.isNone)

@[simp] theorem Ending.apply_reg (e : Ending) (s : State) : (e.apply s).reg = s.reg := by cases e <;> rfl

@[simp] theorem Ending.apply_draws (e : Ending) (s : State) : (e.apply s).draws = s.draws := by cases e <;> rfl

@[simp] theorem Ending.apply_made (e : Ending) (s : State) : (e.apply s).made = s.made := by cases e <;> rfl

@[simp] theorem Ending.apply_agenda (e : Ending) (s : State) : (e.apply s).agenda = s.agenda := by cases e <;> rfl

@[simp] theorem Ending.apply_params (e : Ending) (s : State) : (e.apply s).params = s.params := by cases e <;> rfl

@[simp] theorem Ending.apply_resets (e : Ending) (s : State) : (e.apply s).resets = s.resets := by cases e <;> rfl

@[simp] theorem Ending.apply_faultyReads (e : Ending) (s : State) : (e.apply s).faultyReads = s.faultyReads := by
  cases e <;> rfl

/-- What runs from a state makes transfers of these shapes, in order, up to the first that fails, and then an ending
that command `i` may have. -/
inductive Transfers (i : Instr) : List CallShape → (State → State) → Prop
  | ends {shapes : List CallShape} {f : State → State} (e : Ending) (he : e.allowed i = true)
      (hf : ∀ s, f s = e.apply s) : Transfers i shapes f
  | read (a : Addr) (n : Nat) {rest : List CallShape} {k : List Byte → State → State}
      (hk : ∀ b, Transfers i rest (k b)) : Transfers i ((false, a, n) :: rest) (readThen a n k)
  | write (a : Addr) (bs : List Byte) {rest : List CallShape} {k : State → State} (hk : Transfers i rest k) :
      Transfers i ((true, a, bs.length) :: rest) (writeThen a bs k)

theorem Transfers.complete {i : Instr} (fl : Byte) : Transfers i [] (complete fl) :=
  .ends (.completed fl none none none none) (by simp [Ending.allowed]) fun _ => rfl

theorem Transfers.raise {i : Instr} {shapes : List CallShape} (e : CommandError) : Transfers i shapes (raise e) :=
  .ends (.raised e) rfl fun _ => rfl

theorem Transfers.rmwThen {i : Instr} (a : Addr) (mask bits : Byte) {rest : List CallShape} {k : State → State}
    (hk : Transfers i rest k) : Transfers i ((false, a, 1) :: (true, a, 1) :: rest) (rmwThen a mask bits k) :=
  .read a 1 fun _ => .write a [_] hk

theorem Transfers.writeTime {i : Instr} (dt : DateTime) : Transfers i [(true, 0x00, 7)] (writeTime dt) := by
  by_cases h : validDateTime dt
  · rw [show Machine.writeTime dt = writeThen 0x00 (timeBytes dt) (Machine.complete 0x00) from
      funext fun _ => if_pos h]
    exact .write 0x00 (timeBytes dt) (.complete _)
  · rw [show Machine.writeTime dt = Machine.raise .validationFailure from funext fun _ => if_neg h]
    exact .raise _

/-- Every command makes at most the transfers of R57's table, in order, and ends as R20 allows. -/
theorem exec_transfers (i : Instr) : ∃ f, (∀ s, exec i s = .next (f s)) ∧ Transfers i (callTable i) f := by
  cases i with
  | bcddec _ | bcdenc _ | leap4 _ | leapg _ =>
    exact ⟨_, fun _ => rfl, .ends (.completed _ none (some _) none none) rfl fun _ => rfl⟩
  | ldu _ => exact ⟨_, fun _ => rfl, .ends (.completed _ (some _) none none none) rfl fun _ => rfl⟩
  | u2dt _ => exact ⟨_, fun _ => rfl, .ends (.completed _ none none (some _) none) rfl fun _ => rfl⟩
  | dt2u dt =>
    refine ⟨_, fun _ => rfl, .ends (.completed 0x00 (if acceptsUnix dt then some (toUnix dt) else none) none none none)
      rfl fun s => ?_⟩
    cases acceptsUnix dt <;> rfl
  | dow dt =>
    refine ⟨_, fun _ => rfl, .ends (.completed 0x00 none (if monthInTable dt.month then
      some (BitVec.ofNat 8 (dayOfWeek dt.year.toNat dt.month.toNat dt.date.toNat)) else none) none none) rfl fun s => ?_⟩
    cases monthInTable dt.month <;> rfl
  | setdt dt => exact ⟨_, exec_setdt dt, .writeTime dt⟩
  | setu u => exact ⟨_, exec_setu u, .writeTime (toDateTime u)⟩
  | getdt =>
    exact ⟨_, exec_getdt, .read _ _ fun b => .ends (.completed (timeFlags b) none none (some (decodeTime b)) none) rfl
      fun _ => rfl⟩
  | getu =>
    refine ⟨_, fun _ => rfl, .read _ _ fun b => .ends (.completed (timeFlags b)
      (if acceptsUnix (decodeTime b) then some (toUnix (decodeTime b)) else none) none (some (decodeTime b)) none) rfl
      fun s => ?_⟩
    cases acceptsUnix (decodeTime b) <;> rfl
  | setal1 al =>
    rcases le_or_gt al.mode.toNat 4 with hmode | hmode
    · exact ⟨_, exec_setal1 hmode, .write 0x07 (alarm1Block al) (.rmwThen _ _ _ (.complete _))⟩
    · exact ⟨_, exec_setal1_reservedMode hmode, .raise _⟩
  | setal2 al =>
    rcases le_or_gt al.mode.toNat 3 with hmode | hmode
    · exact ⟨_, exec_setal2 hmode, .write 0x0B (alarm2Block al) (.rmwThen _ _ _ (.complete _))⟩
    · exact ⟨_, exec_setal2_reservedMode hmode, .raise _⟩
  | getal1 | getal2 =>
    exact ⟨_, fun _ => rfl, .read _ _ fun _ => .read _ _ fun _ =>
      .ends (.completed _ none none none (some _)) rfl fun _ => rfl⟩
  | seteosc _ | setbbsqw _ | setrs _ | setintcn _ | seta1ie _ | seta2ie _ | seten32k _ | clra1f | clra2f
  | clrosf => exact ⟨_, fun _ => rfl, .rmwThen _ _ _ (.complete _)⟩
  | geteosc | getbbsqw | getrs | getintcn | geta1ie | geta2ie | geten32k | geta1f | geta2f | getosf
  | getbsy =>
    exact ⟨_, fun _ => rfl, .read _ _ fun _ => .ends (.completed _ none (some _) none none) rfl fun _ => rfl⟩

/-! ### What a command reads -/

/-- Two states that agree on all a command reads: REG, the draws, the number of calls made, P_VOLATILE and
P_READ_ATOMIC. -/
structure SameInputs (s s' : State) : Prop where
  reg : s.reg = s'.reg
  draws : s.draws = s'.draws
  made : s.made = s'.made
  volatile : s.params.volatile = s'.params.volatile
  readAtomic : s.params.readAtomic = s'.params.readAtomic

theorem SameInputs.refl (s : State) : SameInputs s s := ⟨rfl, rfl, rfl, rfl, rfl⟩

theorem SameInputs.afterCall {s s' : State} (h : SameInputs s s') (c : TransportCall) (ds : List CallDraw)
    (m : Memory) : SameInputs (afterCall s c ds m) (afterCall s' c ds m) :=
  ⟨rfl, rfl, congrArg (· ++ [c]) h.made, h.volatile, h.readAtomic⟩

/-- What chip steps make of REG depends on REG and on P_VOLATILE alone. -/
theorem chipSteps_reg_of_volatile_eq (cs : List ChipStep) : ∀ {s s' : State}, s.reg = s'.reg →
    s.params.volatile = s'.params.volatile → (chipSteps cs s).reg = (chipSteps cs s').reg := by
  induction cs with
  | nil => exact fun h _ => h
  | cons c cs ih =>
    intro s s' hreg hvol
    refine ih ?_ hvol
    simp [volatileRow, hvol, hreg, regByte_congr hreg]

theorem nextDraw_eq_of_sameInputs {s s' : State} (h : SameInputs s s') : nextDraw s = nextDraw s' := by
  rw [nextDraw, nextDraw, h.draws, h.made]

/-- After a call begins, and any more chip steps, REG is the same where the inputs were. -/
theorem chipSteps_beginCall_reg {s s' : State} (h : SameInputs s s') (cs : List ChipStep) (c : TransportCall) :
    (chipSteps cs (beginCall c s)).reg = (chipSteps cs (beginCall c s')).reg := by
  refine chipSteps_reg_of_volatile_eq cs ?_ (by simpa using h.volatile)
  rw [beginCall, beginCall, nextDraw_eq_of_sameInputs h]
  exact chipSteps_reg_of_volatile_eq _ h.reg h.volatile

/-- A read delivers the same bytes where the inputs are the same, and leaves the same REG. -/
theorem memRead_of_sameInputs {s s' : State} (h : SameInputs s s') (a : Addr) (n : Nat) :
    memRead a n s' =
      ((memRead a n s).1, afterCall s' (.read a n) s.draws.tail (memRead a n s).2.reg) := by
  have hreg := chipSteps_beginCall_reg h (c := .read a n)
  have hstate (cs : List ChipStep) : chipSteps cs (beginCall (.read a n) s') =
      afterCall s' (.read a n) s.draws.tail (chipSteps cs (beginCall (.read a n) s)).reg := by
    obtain ⟨m, hm⟩ := beginCall_eq (.read a n) s'
    rw [chipSteps_eq, hreg, h.draws, hm]
    rfl
  have hgaps (d : CallDraw) : gapsOf s' d = gapsOf s d := by rw [gapsOf, gapsOf, h.readAtomic]
  unfold memRead
  rw [← nextDraw_eq_of_sameInputs h, hgaps]
  split
  · rw [deliver_eq, deliver_eq, hstate]
    simp only [regByte_congr (hreg _)]
  · exact congrArg (Prod.mk none) (hstate [])

/-- A write leaves the same REG where the inputs are the same. -/
theorem memWrite_of_sameInputs {s s' : State} (h : SameInputs s s') (a : Addr) (bs : List Byte) :
    memWrite a bs s' =
      ((memWrite a bs s).1, afterCall s' (.write a bs) s.draws.tail (memWrite a bs s).2.reg) := by
  have hreg : (beginCall (.write a bs) s).reg = (beginCall (.write a bs) s').reg := chipSteps_beginCall_reg h [] _
  have hstate (cs : List Byte) : setRegs a cs (beginCall (.write a bs) s') =
      afterCall s' (.write a bs) s.draws.tail (setRegs a cs (beginCall (.write a bs) s)).reg := by
    obtain ⟨m, hm⟩ := beginCall_eq (.write a bs) s'
    rw [setRegs_eq, ← setRegs_congr cs a _ _ hreg, h.draws, hm]
    rfl
  unfold memWrite
  rw [← nextDraw_eq_of_sameInputs h]
  split
  · rw [hstate]
  · rw [hstate]

/-- A command's inputs decide its ending, REG, the draws left and the calls made, whatever else the state holds. -/
theorem Transfers.exists_ending {i : Instr} {shapes : List CallShape} {f : State → State} (h : Transfers i shapes f) :
    ∀ s : State, ∃ (e : Ending) (m : Memory) (ds : List CallDraw) (calls : List TransportCall), e.allowed i = true ∧
      ∀ s' : State, SameInputs s s' → f s' = e.apply { s' with reg := m, draws := ds, made := calls } := by
  induction h with
  | ends e he hf =>
    intro s
    refine ⟨e, s.reg, s.draws, s.made, he, fun s' hs => ?_⟩
    rw [hf, hs.reg, hs.draws, hs.made]
  | read a n _ ih =>
    intro s
    cases hread : (memRead a n s).1 with
    | none =>
      refine ⟨.raised .transportFailure, (memRead a n s).2.reg, s.draws.tail, s.made ++ [.read a n], rfl, fun s' hs => ?_⟩
      rw [readThen, memRead_of_sameInputs hs, hread, hs.made]
      rfl
    | some b =>
      obtain ⟨e, m, ds, calls, he, hall⟩ := ih b (afterCall s (.read a n) s.draws.tail (memRead a n s).2.reg)
      refine ⟨e, m, ds, calls, he, fun s' hs => ?_⟩
      rw [readThen, memRead_of_sameInputs hs, hread]
      exact hall _ (hs.afterCall _ _ _)
  | write a bs _ ih =>
    intro s
    cases hwrite : (memWrite a bs s).1 with
    | false =>
      refine ⟨.raised .transportFailure, (memWrite a bs s).2.reg, s.draws.tail, s.made ++ [.write a bs], rfl, fun s' hs => ?_⟩
      rw [writeThen, memWrite_of_sameInputs hs, hwrite, hs.made]
      rfl
    | true =>
      obtain ⟨e, m, ds, calls, he, hall⟩ := ih (afterCall s (.write a bs) s.draws.tail (memWrite a bs s).2.reg)
      refine ⟨e, m, ds, calls, he, fun s' hs => ?_⟩
      rw [writeThen, memWrite_of_sameInputs hs, hwrite]
      exact hall _ (hs.afterCall _ _ _)

theorem exec_ending (i : Instr) (s : State) : ∃ (e : Ending) (m : Memory) (ds : List CallDraw)
    (calls : List TransportCall), e.allowed i = true ∧ ∀ s' : State, SameInputs s s' →
      exec i s' = .next (e.apply { s' with reg := m, draws := ds, made := calls }) := by
  obtain ⟨f, hf, htransfers⟩ := exec_transfers i
  obtain ⟨e, m, ds, calls, he, hall⟩ := htransfers.exists_ending s
  exact ⟨e, m, ds, calls, he, fun s' hs => by rw [hf, hall s' hs]⟩

/-- A register is written with the same value in both states, or left as it was in both. -/
theorem or_same_or_kept {α : Type} (w x y : Option α) :
    (w.or x = w.or y ∧ (w.or x).isSome) ∨ (w.or x = x ∧ w.or y = y) := by
  cases w with
  | none => exact .inr ⟨rfl, rfl⟩
  | some v => exact .inl ⟨rfl, rfl⟩

/-- Settles O13: the result registers are not among a command's inputs. -/
theorem noCommandReadsAResultRegister : Obligations.NoCommandReadsAResultRegister := by
  intro i s s' hreg hdraws hmade hagenda hparams
  obtain ⟨e, m, ds, calls, -, hall⟩ := exec_ending i s
  refine ⟨_, _, hall s (.refl s), hall s' ⟨hreg, hdraws, hmade, by rw [hparams], by rw [hparams]⟩, ?_⟩
  simp only [Ending.apply_reg, Ending.apply_draws, Ending.apply_made, Ending.apply_params, Ending.apply_agenda, hparams,
    hagenda, true_and]
  cases e with
  | raised e => exact ⟨rfl, rfl, .inr ⟨rfl, rfl⟩, .inr ⟨rfl, rfl⟩, .inr ⟨rfl, rfl⟩, .inr ⟨rfl, rfl⟩⟩
  | completed fl u b dt al =>
    exact ⟨rfl, rfl, or_same_or_kept u _ _, or_same_or_kept b _ _, or_same_or_kept dt _ _,
      or_same_or_kept al _ _⟩

/-- Settles O17: an allowed ending leaves the other result registers, and everything that is no result register. -/
theorem onlyListedCommandsWriteAResultRegister : Obligations.OnlyListedCommandsWriteAResultRegister := by
  intro i s t hexec
  obtain ⟨e, m, ds, calls, he, hall⟩ := exec_ending i s
  obtain rfl : _ = t := Host.Outcome.next.inj ((hall s (.refl s)).symm.trans hexec)
  simp only [Ending.apply_agenda, Ending.apply_params, Ending.apply_resets, Ending.apply_faultyReads, and_true]
  cases e with
  | raised e => exact ⟨fun _ => rfl, fun _ => rfl, fun _ => rfl, fun _ => rfl, rfl, rfl⟩
  | completed fl u b dt al =>
    simp only [Ending.allowed, Bool.and_eq_true, Bool.or_eq_true, Option.isNone_iff_eq_none] at he
    obtain ⟨⟨⟨hu, hb⟩, hdt⟩, hal⟩ := he
    refine ⟨fun h => ?_, fun h => ?_, fun h => ?_, fun h => ?_, rfl, rfl⟩
    · obtain rfl : u = none := hu.resolve_left (by simp [h])
      rfl
    · obtain rfl : b = none := hb.resolve_left (by simp [h])
      rfl
    · obtain rfl : dt = none := hdt.resolve_left (by simp [h])
      rfl
    · obtain rfl : al = none := hal.resolve_left (by simp [h])
      rfl

/-! ### How a presented command ends (R240 to R244) -/

/-- The outcome of a command or a refusal that began in `s`: one of the four codes, and where it is an error,
FLAGS 0 and the four results as they were. -/
def EndsFrom (s t : State) : Prop :=
  ∃ k fl, t.status = some k ∧ t.flags = some fl ∧ k.toNat ≤ 3 ∧
    (k ≠ 0 → fl = 0 ∧ t.resU = s.resU ∧ t.resB = s.resB ∧ t.resDT = s.resDT ∧ t.resAL = s.resAL)

theorem EndsFrom.raise (e : CommandError) {s t : State} (h : SameResults s t) : EndsFrom s (raise e t) := by
  obtain ⟨hU, hB, hDT, hAL, -⟩ := h
  exact ⟨errorCode e, 0x00, rfl, rfl, by cases e <;> decide, fun _ => ⟨rfl, hU, hB, hDT, hAL⟩⟩

theorem exec_endsFrom (i : Instr) (s : State) : ∃ t, exec i s = .next t ∧ EndsFrom s t := by
  obtain ⟨e, m, ds, calls, -, hall⟩ := exec_ending i s
  refine ⟨_, hall s (.refl s), ?_⟩
  cases e with
  | raised e => exact .raise e ⟨rfl, rfl, rfl, rfl, rfl, rfl, rfl, rfl, rfl, rfl⟩
  | completed fl u b dt al => exact ⟨0x00, fl, rfl, rfl, by decide, fun h => absurd rfl h⟩

theorem present_endsFrom (c : Command) (s : State) : ∃ t, present c s = .next t ∧ EndsFrom s t := by
  unfold present
  split
  · exact exec_endsFrom _ s
  · exact ⟨_, rfl, .raise .illegalCommand (.refl s)⟩

/-- Settles O22: a tuple is refused, or its command raises, or it completes with STATUS 0. -/
theorem everyCommandEndsInOneOfFourWays : Obligations.EveryCommandEndsInOneOfFourWays := by
  intro c s
  obtain ⟨t, ht, k, fl, hends⟩ := present_endsFrom c s
  exact ⟨t, k, fl, ht, hends⟩

/-! ### The parameters (R8) -/

theorem exec_params (i : Instr) (s : State) : ∃ t, exec i s = .next t ∧ t.params = s.params := by
  obtain ⟨e, m, ds, calls, -, hall⟩ := exec_ending i s
  exact ⟨_, hall s (.refl s), e.apply_params _⟩

theorem present_params (c : Command) (s : State) : ∃ t, present c s = .next t ∧ t.params = s.params := by
  unfold present
  split
  · exact exec_params _ s
  · exact ⟨_, rfl, rfl⟩

theorem perform_params (e : Event) (s : State) : ∃ t, perform e s = .next t ∧ t.params = s.params := by
  cases e with
  | issue c => exact present_params c s
  | read r => exact ⟨_, rfl, noteRead_params r s⟩
  | reset => exact ⟨_, rfl, rfl⟩
  | chip c => exact ⟨_, rfl, rfl⟩

/-- Every step answers a next state, with the same parameters. -/
theorem step_params (s : State) : ∃ t, step s = .next t ∧ t.params = s.params := by
  unfold step
  split
  · exact ⟨s, rfl, rfl⟩
  · exact perform_params _ { s with agenda := _ }

/-- An ending does not look at the bus address. -/
theorem Ending.apply_busAddr (e : Ending) (s : State) (b : BitVec 7) :
    e.apply { s with params := { s.params with busAddr := b } } =
      { e.apply s with params := { (e.apply s).params with busAddr := b } } := by
  cases e <;> rfl

/-- Settles O29: no event writes the parameters, and the bus address is not among a command's inputs. -/
theorem parametersStayAndBusAddressIsUnused : Obligations.ParametersStayAndBusAddressIsUnused := by
  refine ⟨fun s t hstep => ?_, rfl, rfl, fun i s b => ?_⟩
  · obtain ⟨u, hu, hparams⟩ := step_params s
    obtain rfl : u = t := Host.Outcome.next.inj (hu.symm.trans hstep)
    exact hparams
  · obtain ⟨e, m, ds, calls, -, hall⟩ := exec_ending i s
    refine ⟨_, hall s (.refl s), ?_⟩
    refine (hall _ ?_).trans (congrArg _ (e.apply_busAddr { s with reg := m, draws := ds, made := calls } b))
    exact ⟨rfl, rfl, rfl, rfl, rfl⟩

/-! ### The registers a command leaves alone (R53, R57) -/

/-- The registers that the writes among some transfers address. -/
def writtenBy (shapes : List CallShape) : List Addr :=
  shapes.flatMap fun shape => if shape.1 then addressed shape.2.1 shape.2.2 else []

theorem storedRegs_eq_writtenBy (i : Instr) : storedRegs i = writtenBy (callTable i) := by cases i <;> rfl

theorem regByte_setRegs_of_not_addressed {a a0 : Addr} {n : Nat} (ha : a ∉ addressed a0 n) {bs : List Byte}
    (hn : bs.length ≤ n) (s : State) : regByte (setRegs a0 bs s) a = regByte s a :=
  regByte_setRegs_other bs a0 a s fun i hi e =>
    ha (List.mem_map.mpr ⟨i, List.mem_range.mpr (hi.trans_le hn), e.symm⟩)

/-- Calm transfers keep a register that none of their writes addresses, whether or not they succeed. -/
theorem Transfers.keeps_register {i : Instr} {shapes : List CallShape} {f : State → State} (h : Transfers i shapes f)
    {a : Addr} (ha : a ∉ writtenBy shapes) :
    ∀ s : State, calmFor shapes.length s = true → regByte (f s) a = regByte s a := by
  induction h with
  | ends e he hf => exact fun s _ => regByte_congr (by rw [hf, Ending.apply_reg]) a
  | read a0 n _ ih =>
    intro s hcalm
    obtain ⟨d, ds, hs, hd, hrest⟩ := exists_draw_of_calmFor hcalm
    rw [readThen_afterCall a0 n _ hs, atByte_calm s n hd, atStart_calm s hd]
    split
    · exact ih _ (by simpa [writtenBy] using ha) _ (hrest _ rfl)
    · rfl
  | write a0 bs _ ih =>
    intro s hcalm
    obtain ⟨hwrite, hlater⟩ : a ∉ addressed a0 bs.length ∧ a ∉ writtenBy _ := by
      simpa [writtenBy, not_or] using ha
    obtain ⟨d, ds, hs, hd, hrest⟩ := exists_draw_of_calmFor hcalm
    rw [writeThen_afterCall a0 bs _ hs, atStart_calm s hd]
    split
    · exact (ih hlater _ (hrest _ rfl)).trans (regByte_setRegs_of_not_addressed hwrite le_rfl s)
    · exact regByte_setRegs_of_not_addressed hwrite (List.length_take_le _ _) s

/-- Settles O18: the writes of a command's transfers address `storedRegs`, and nothing else stores. -/
theorem calmCommandKeepsUnaddressedRegisters : Obligations.CalmCommandKeepsUnaddressedRegisters := by
  intro i s t a hcalm hexec ha
  obtain ⟨f, hf, htransfers⟩ := exec_transfers i
  obtain rfl : f s = t := Host.Outcome.next.inj ((hf s).symm.trans hexec)
  exact htransfers.keeps_register (storedRegs_eq_writtenBy i ▸ ha) s hcalm

/-! ### The host's moves (R41, R270) -/

theorem decode_of_decodeTableWord {n w : Nat} {i : Instr} (h : decodeTableWord n w = some i) :
    decode (tableCommand n w) = .ok i := by
  unfold decodeTableWord at h
  split at h
  case h_1 j hj => cases h; exact hj
  case h_2 => cases h

/-- Settles O11: the step presents the tuple, and presenting it runs what it decodes to. -/
theorem stepRunsTheDecodedCommand : Obligations.StepRunsTheDecodedCommand := by
  refine ⟨fun s c i rest hagenda hdecode => ?_, fun s n w i hword => ?_⟩
  · exact (step_issue hagenda).trans (present_of_decode hdecode _)
  · exact (step_issue rfl).trans (present_of_decode (decode_of_decodeTableWord hword) s)

theorem step_read {s : State} {r : ResultReg} {rest : List Event} (h : s.agenda = .read r :: rest) :
    step s = .next (noteRead r { s with agenda := rest }) := by
  rw [step, h]
  rfl

/-- Whether a register is written does not depend on the agenda. -/
theorem isWritten_agenda (r : ResultReg) (s : State) (rest : List Event) :
    isWritten r { s with agenda := rest } = isWritten r s := by cases r <;> rfl

/-- Settles O12: each register reads as written, or as the free value of the last reset. -/
theorem hostReadGivesTheRegistersValue : Obligations.HostReadGivesTheRegistersValue := by
  refine ⟨fun s => ?_, fun s rest r hagenda => ⟨fun hwritten => ?_, fun hunwritten => ?_⟩, fun s => ?_⟩
  · refine ⟨fun t h => ?_, fun h => ?_, fun b h => ?_, fun h => ?_, fun dt h => ?_, fun h => ?_, fun al h => ?_,
      fun h => ?_, fun b h => ?_, fun h => ?_, fun b h => ?_, fun h => ?_⟩
    all_goals
      rw [hostRead, isWritten, h]
      exact ⟨rfl, rfl⟩
  · rw [step_read hagenda, noteRead, isWritten_agenda, if_pos hwritten]
  · rw [step_read hagenda, noteRead, isWritten_agenda, if_neg (ne_true_of_eq_false hunwritten)]
  · obtain ⟨t, ht, -⟩ := step_params s
    exact ⟨t, ht⟩

/-- Settles O14: the three parts are the reset's own definition, the state after reset, and the empty agenda. -/
theorem resetLeavesEveryResultUnwritten : Obligations.ResetLeavesEveryResultUnwritten := by
  refine ⟨fun s rest hagenda => ?_, ⟨rfl, rfl, rfl, rfl, rfl, rfl, rfl⟩, fun s hagenda => ?_⟩
  · rw [step, hagenda]
    rfl
  · rw [step, hagenda]

/-- Settles O15: nothing is listed and nothing is written. -/
theorem invariantHoldsAtReset : Obligations.InvariantHoldsAtReset :=
  ⟨reset_reg_wf, rfl, rfl, rfl, rfl, rfl, rfl⟩

end Sys2Proof.Machine

/-! PROOFS. The codec's laws (40_bcd_codec.md section 3), U2DT on every time and the weekday law (41_calendar.md section
3), and the date-time commands end to end (42_datetime_io.md): GETU, and what GETDT and GETU read back. -/

namespace Sys2Proof.Machine

open Sys2Proof

/-! ### The codec's laws (R106) -/

/-- Decoding undoes encoding below 160; from 160 on the tens digit has lost its top bit. -/
theorem bcdValue_bcdOf {n : Nat} (h : n < 256) : bcdValue (bcdOf n) = if n < 160 then n else n - 160 := by
  rw [bcdValue, bcdOf, BitVec.toNat_ofNat]
  split <;> omega

/-- Encoding undoes decoding where the units digit is one: the tens are not carried into. -/
theorem bcdOf_bcdValue {b : Byte} (hlow : b.toNat % 16 ≤ 9) : bcdOf (bcdValue b) = b := by
  apply BitVec.eq_of_toNat_eq
  rw [bcdOf, bcdValue, BitVec.toNat_ofNat]
  omega

theorem notBcd_bcdOf {n : Nat} (h : n < 256) : notBcd (bcdOf n) = false ↔ n ≤ 99 ∨ 160 ≤ n := by
  rw [← Bool.not_eq_true, notBcd_eq_true_iff, bcdOf, BitVec.toNat_ofNat]
  by_cases hn : n < 160
  · rw [Nat.mod_eq_of_lt (by omega)]
    omega
  · rw [show (n / 10 * 16 + n % 10) % 2 ^ 8 = (n / 10 - 16) * 16 + n % 10 by omega]
    omega

theorem flagNbcd_eq_zero_iff (p : Bool) : flagNbcd p = 0x00 ↔ p = false := by
  cases p <;> decide

/-- Settles O34: the two formulas undo each other as the digits allow. -/
theorem bcdCodecLaws : Obligations.BcdCodecLaws := by
  refine ⟨fun v s => ⟨_, _, _, _, exec_bcdenc v s, rfl, exec_bcddec _ _, rfl, ?_, ?_⟩,
    fun b s _ hlow => ⟨_, _, _, exec_bcddec b s, rfl, exec_bcdenc _ _, ?_⟩⟩
  · rw [toNat_bcdDec, bcdEnc_eq_bcdOf, bcdValue_bcdOf v.isLt]
  · rw [complete_flags, Option.some_inj, flagNbcd_eq_zero_iff, nbcd_eq_notBcd, bcdEnc_eq_bcdOf, notBcd_bcdOf v.isLt]
  · rw [complete_resB, bcdEnc_eq_bcdOf, toNat_bcdDec, bcdOf_bcdValue hlow]

/-! ### U2DT on every 32-bit time (R131, R133, R140) -/

/-- The year is at most 2106, and the weekday is the congruence's for the date given. -/
theorem toDateTime_year_dow (t : UnixTime) : (toDateTime t).year.toNat ≤ 2106 ∧ (toDateTime t).dow.toNat =
    dayOfWeek (toDateTime t).year.toNat (toDateTime t).month.toNat (toDateTime t).date.toNat := by
  obtain ⟨y, m, d, heq, hy, hm, hd, -, -⟩ := toDateTime_eq t
  have hlen := monthLength_le y hm.2
  have hdow := dayOfWeek_range y m d
  have hyear : (BitVec.ofNat 16 y).toNat = y := Nat.mod_eq_of_lt (by omega)
  have hmonth : (BitVec.ofNat 8 m).toNat = m := Nat.mod_eq_of_lt (by omega)
  have hdate : (BitVec.ofNat 8 d).toNat = d := Nat.mod_eq_of_lt (by omega)
  have hweekday : (BitVec.ofNat 8 (dayOfWeek y m d)).toNat = dayOfWeek y m d := Nat.mod_eq_of_lt (by omega)
  rw [heq, hyear, hmonth, hdate, hweekday]
  exact ⟨hy.2, rfl⟩

/-- Settles O38: the two walks stop at the date whose second count was given. -/
theorem u2dtGivesTheGregorianDateTime : Obligations.U2dtGivesTheGregorianDateTime := by
  refine ⟨fun a dt al => congrArg (fun u => Except.ok (Instr.u2dt u)) (BitVec.setWidth_eq a),
    fun t => ⟨toDateTime t, exec_u2dt t, ?_⟩⟩
  obtain ⟨hproper, hlo, hseconds⟩ := toDateTime_gregorian t
  obtain ⟨hhi, hdow⟩ := toDateTime_year_dow t
  obtain ⟨hdow1, hdow7⟩ := dayOfWeek_range (toDateTime t).year.toNat (toDateTime t).month.toNat (toDateTime t).date.toNat
  exact ⟨hlo, hhi, hproper, rfl, hdow, hdow ▸ hdow1, hdow ▸ hdow7, hseconds⟩

/-! ### The weekday law (R127, R141) -/

/-- The sum that R127's congruence reduces modulo 7. -/
def weekdaySum (y m d : Nat) : Int :=
  let Y : Int := (y : Int) - (if m < 3 then 1 else 0)
  Y + Y / 4 - Y / 100 + Y / 400 + (dowTable m : Int) + (d : Int)

theorem dayOfWeek_eq (y m d : Nat) :
    dayOfWeek y m d = if weekdaySum y m d % 7 = 0 then 7 else (weekdaySum y m d % 7).toNat := rfl

/-- A sum one greater modulo 7 is the next weekday. -/
theorem dayOfWeek_eq_nextWeekday {y m d y' m' d' : Nat}
    (h : weekdaySum y' m' d' % 7 = (weekdaySum y m d + 1) % 7) : dayOfWeek y' m' d' = nextWeekday (dayOfWeek y m d) := by
  rw [dayOfWeek_eq, dayOfWeek_eq, nextWeekday, h]
  split_ifs <;> omega

theorem weekdaySum_day_succ (y m d : Nat) : weekdaySum y m (d + 1) = weekdaySum y m d + 1 := by
  simp only [weekdaySum]
  omega

/-- `MT` advances by the length of the month, but for February, where R127 changes the year too (R120, R126). -/
theorem dowTable_succ {m : Nat} (hlo : 1 ≤ m) (hhi : m < 12) (hfeb : m ≠ 2) :
    dowTable (m + 1) % 7 = (dowTable m + monthDays m) % 7 := by
  have hall : ∀ k < 12, 1 ≤ k → k ≠ 2 → dowTable (k + 1) % 7 = (dowTable k + monthDays k) % 7 := by decide
  exact hall m hhi hlo hfeb

/-- The years counted in the sum: one more each year, and one more again in a leap year (R123). -/
theorem leapCount_succ (y : Nat) : (y : Int) / 4 - (y : Int) / 100 + (y : Int) / 400 =
    ((y : Int) - 1) / 4 - ((y : Int) - 1) / 100 + ((y : Int) - 1) / 400 + if leapg y = true then 1 else 0 := by
  have h4 : (y : Int) / 4 = ((y : Int) - 1) / 4 + if y % 4 = 0 then 1 else 0 := by split <;> omega
  have h100 : (y : Int) / 100 = ((y : Int) - 1) / 100 + if y % 100 = 0 then 1 else 0 := by split <;> omega
  have h400 : (y : Int) / 400 = ((y : Int) - 1) / 400 + if y % 400 = 0 then 1 else 0 := by split <;> omega
  simp only [h4, h100, h400, leapg_eq_true_iff]
  split_ifs <;> omega

/-- From February to March the year of the sum advances by one, and its leap count by a leap day. -/
theorem weekdaySum_march (y : Nat) :
    weekdaySum y 3 1 % 7 = (weekdaySum y 2 (monthLength 2 y) + 1) % 7 := by
  have hcount := leapCount_succ y
  have hlen : (monthLength 2 y : Int) = 28 + if leapg y = true then 1 else 0 := by
    cases h : leapg y <;> simp [monthLength, monthDays, h]
  simp only [weekdaySum, hlen, show dowTable 3 = 2 from rfl, show dowTable 2 = 3 from rfl]
  norm_num
  omega

theorem weekdaySum_month_succ {y m : Nat} (hlo : 1 ≤ m) (hhi : m < 12) :
    weekdaySum y (m + 1) 1 % 7 = (weekdaySum y m (monthLength m y) + 1) % 7 := by
  by_cases hfeb : m = 2
  · subst hfeb
    exact weekdaySum_march y
  · have htable := dowTable_succ hlo hhi hfeb
    have hlen : monthLength m y = monthDays m := if_neg fun h => hfeb h.1
    have hsame : m + 1 < 3 ↔ m < 3 := by omega
    simp only [weekdaySum, hlen, hsame]
    omega

theorem weekdaySum_year_succ (y : Nat) : weekdaySum (y + 1) 1 1 % 7 = (weekdaySum y 12 (monthLength 12 y) + 1) % 7 := by
  have hlen : monthLength 12 y = 31 := rfl
  simp only [weekdaySum, hlen, show dowTable 1 = 0 from rfl, show dowTable 12 = 4 from rfl]
  norm_num
  omega

/-- Settles O41: within a month, across a month's end and across a year's end. -/
theorem weekdayAdvancesByOneEachDay : Obligations.WeekdayAdvancesByOneEachDay := by
  refine ⟨by decide, fun y m d hdate => ?_⟩
  simp only [gregorianDate, Bool.and_eq_true, decide_eq_true_eq] at hdate
  obtain ⟨⟨⟨⟨-, hm1⟩, hm12⟩, -⟩, hd⟩ := hdate
  obtain ⟨hlo, hhi⟩ := dayOfWeek_range y m d
  refine ⟨hlo, hhi, dayOfWeek_eq_nextWeekday ?_⟩
  unfold nextDate
  by_cases hday : d < monthLength m y
  · rw [if_pos hday]
    exact congrArg (· % 7) (weekdaySum_day_succ y m d)
  · obtain rfl : d = monthLength m y := by omega
    rw [if_neg hday]
    by_cases hmonth : m < 12
    · rw [if_pos hmonth]
      exact weekdaySum_month_succ hm1 hmonth
    · obtain rfl : m = 12 := by omega
      rw [if_neg hmonth]
      exact weekdaySum_year_succ y

/-! ### GETU (R129, R157) -/

theorem exec_getu (s : State) : exec .getu s = .next (readThen 0x00 7 (fun b t => complete (timeFlags b)
    (if acceptsUnix (decodeTime b) then { t with resDT := some (decodeTime b), resU := some (toUnix (decodeTime b)) }
    else { t with resDT := some (decodeTime b) })) s) := rfl

/-- The year of a reading is 2000 or later, so that its month alone decides whether it is summed (R129). -/
theorem two_thousand_le_clockReading_year (b0 b1 b2 b3 b4 b5 b6 : Byte) :
    2000 ≤ (clockReading b0 b1 b2 b3 b4 b5 b6).year.toNat := by
  have hb : b6.toNat < 256 := b6.isLt
  have hoffset : bcdValue b6 < 2000 := by
    unfold bcdValue
    omega
  rw [clockReading, BitVec.toNat_ofNat, Nat.mod_eq_of_lt (by omega)]
  omega

/-- Settles O45: one read, decoded as GETDT decodes it, and summed as DT2U sums. -/
theorem getuReadsAndSums : Obligations.GetuReadsAndSums := by
  refine ⟨fun a dt al => rfl, fun s d ds dt fl hs hdt hfl => ?_⟩
  have hsuccess : d.ok = true → exec .getu s = .next (complete fl (if acceptsUnix dt then
      { afterCall s (.read 0x00 7) ds (atByte s d 7).reg with resDT := some dt, resU := some (toUnix dt) }
      else { afterCall s (.read 0x00 7) ds (atByte s d 7).reg with resDT := some dt })) := by
    intro hok
    rw [exec_getu, readThen_afterCall _ _ _ hs, if_pos hok, decodeTime_eq_clockReading, timeFlags_eq_clockFlags, hdt, hfl]
    rfl
  have hyear : 2000 ≤ dt.year.toNat := hdt ▸ two_thousand_le_clockReading_year _ _ _ _ _ _ _
  refine ⟨fun hok hmonth => ?_, fun hok hmonth => ?_, fun hfail => ?_⟩
  · rw [hsuccess hok, if_pos ((acceptsUnix_eq_true_iff dt).mpr ⟨hyear, hmonth⟩), toUnix_eq_unixSum hmonth.2]
    rfl
  · rw [hsuccess hok, if_neg (mt (acceptsUnix_eq_true_iff dt).mp fun h => hmonth h.2)]
    rfl
  · rw [exec_getu, readThen_afterCall _ _ _ hs, if_neg (ne_true_of_eq_false hfail)]

end Sys2Proof.Machine

/-! PROOFS. The round trips through the chip with no chip step: a date-time and a Unix time (42_datetime_io.md), an alarm
record (43_alarms.md section 3), and a setting of the control or status register (44_control_status.md section 4). -/

namespace Sys2Proof.Machine

open Sys2Proof

/-! ### A field that loses no bits reads back (R101 to R103, R183, R189) -/

theorem and_eq_self_of_and_not_eq_zero {x mask : Byte} (h : x &&& ~~~mask = 0) : x &&& mask = x := by
  have hsplit : (x &&& mask) ||| (x &&& ~~~mask) = x := by
    rw [← BitVec.and_or_distrib_left, BitVec.or_not_self, BitVec.and_allOnes]
  rwa [h, BitVec.ofNat_eq_ofNat, BitVec.or_zero] at hsplit

theorem loses_eq_false_iff (v mask : Byte) :
    loses v mask = false ↔ v.toNat ≤ 99 ∧ bcdOf v.toNat &&& ~~~mask = 0 := by
  simp [loses]

/-- The BCD of a value that loses no bits fits its mask. -/
theorem bcdOf_and_of_not_loses {v mask : Byte} (h : loses v mask = false) : bcdOf v.toNat &&& mask = bcdOf v.toNat :=
  and_eq_self_of_and_not_eq_zero ((loses_eq_false_iff v mask).mp h).2

/-- The value of a field that loses no bits is the value stored. -/
theorem bcdValue_field {v mask : Byte} (h : loses v mask = false) : bcdValue (bcdOf v.toNat &&& mask) = v.toNat := by
  obtain ⟨hv, -⟩ := (loses_eq_false_iff v mask).mp h
  rw [bcdOf_and_of_not_loses h, bcdValue_bcdOf v.isLt, if_pos (by omega)]

theorem notBcd_field {v mask : Byte} (h : loses v mask = false) : notBcd (bcdOf v.toNat &&& mask) = false := by
  obtain ⟨hv, -⟩ := (loses_eq_false_iff v mask).mp h
  rw [bcdOf_and_of_not_loses h, notBcd_bcdOf v.isLt]
  exact .inl hv

/-! ### Reading back what a command has stored -/

/-- A calm read delivers the bytes of a store that the registers still hold. -/
theorem byteOf_setRegs {s t : State} {d : CallDraw} {a : Addr} {bs : List Byte} {i : Nat} {b : Byte} (hd : d.calm = true)
    (hlen : bs.length ≤ 256) (hreg : t.reg = (setRegs a bs s).reg) (hb : bs[i]? = some b) : byteOf t d a i = b := by
  rw [byteOf_calm t a i hd, regByte_congr hreg]
  exact regByte_setRegs_at bs a s hlen hb

/-! ### Date-times (R152, R153, R157) -/

/-- The fields of a legal date-time fit the masks of R150; the year is stored as its offset, under no mask. -/
theorem not_loses_of_legalFields {dt : DateTime} (h : legalFields dt) : loses dt.sec 0x7F = false ∧
    loses dt.min 0x7F = false ∧ loses dt.hour 0x3F = false ∧ loses dt.dow 0x07 = false ∧ loses dt.date 0x3F = false ∧
    loses dt.month 0x1F = false := by
  have hsixty : ∀ v : Byte, v.toNat ≤ 59 → loses v 0x7F = false := by decide +kernel
  have hthirtyOne : ∀ v : Byte, v.toNat ≤ 31 → loses v 0x3F = false := by decide +kernel
  have hseven : ∀ v : Byte, v.toNat ≤ 7 → loses v 0x07 = false := by decide +kernel
  have htwelve : ∀ v : Byte, v.toNat ≤ 12 → loses v 0x1F = false := by decide +kernel
  obtain ⟨hsec, hmin, hhour, -, hdow, -, hdate, -, hmonth, -⟩ := h
  exact ⟨hsixty _ hsec, hsixty _ hmin, hthirtyOne _ (by omega), hseven _ hdow, hthirtyOne _ hdate, htwelve _ hmonth⟩

/-- The bytes of a legal date-time decode to it, with `osc_en` 1. -/
theorem clockReading_of_legalFields {dt : DateTime} (h : legalFields dt) :
    clockReading (bcdOf dt.sec.toNat) (bcdOf dt.min.toNat) (bcdOf dt.hour.toNat) (bcdOf dt.dow.toNat)
      (bcdOf dt.date.toNat) (bcdOf dt.month.toNat) (bcdOf (dt.year.toNat - 2000)) = { dt with oscEn := 1 } := by
  obtain ⟨hsec, hmin, hhour, hdow, hdate, hmonth⟩ := not_loses_of_legalFields h
  obtain ⟨-, -, -, -, -, -, -, -, -, hyear, hyear'⟩ := h
  have hoffset : 2000 + bcdValue (bcdOf (dt.year.toNat - 2000)) = dt.year.toNat := by
    rw [bcdValue_bcdOf (by omega), if_pos (by omega)]
    omega
  rw [clockReading, hoffset, bcdValue_field hsec, bcdValue_field hmin, bcdValue_field hhour, bcdValue_field hdow,
    bcdValue_field hdate, bcdValue_field hmonth]
  simp

/-- A field under the hours mask does not select 12-hour mode (R32). -/
theorem not_twelveHour_of_field (x : Byte) : ¬ (x &&& 0x3F).toNat / 64 % 2 = 1 := by
  rw [← twelveHour_eq_true_iff]
  simp [twelveHour]

theorem clockFlags_of_legalFields {dt : DateTime} (h : legalFields dt) :
    clockFlags (bcdOf dt.sec.toNat) (bcdOf dt.min.toNat) (bcdOf dt.hour.toNat) (bcdOf dt.dow.toNat)
      (bcdOf dt.date.toNat) (bcdOf dt.month.toNat) (bcdOf (dt.year.toNat - 2000)) = 0x00 := by
  obtain ⟨hsec, hmin, hhour, hdow, hdate, hmonth⟩ := not_loses_of_legalFields h
  obtain ⟨-, -, -, -, -, -, -, -, -, hyear, hyear'⟩ := h
  have hoffset : notBcd (bcdOf (dt.year.toNat - 2000)) = false := (notBcd_bcdOf (by omega)).mpr (.inl (by omega))
  have hmode : ¬ (bcdOf dt.hour.toNat).toNat / 64 % 2 = 1 :=
    bcdOf_and_of_not_loses hhour ▸ not_twelveHour_of_field (bcdOf dt.hour.toNat)
  rw [clockFlags, if_neg hmode, hoffset, notBcd_field hsec, notBcd_field hmin, notBcd_field hhour, notBcd_field hdow,
    notBcd_field hdate, notBcd_field hmonth]
  rfl

/-- After a store of a legal date-time, a calm GETU or GETDT decodes it without a flag. -/
theorem clock_after_store {dt : DateTime} (h : legalFields dt) {s t : State} {d : CallDraw} (hd : d.calm = true)
    (hreg : t.reg = (setRegs 0x00 (clockBytes dt) s).reg) :
    clockReading (byteOf t d 0x00 0) (byteOf t d 0x00 1) (byteOf t d 0x00 2) (byteOf t d 0x00 3) (byteOf t d 0x00 4)
        (byteOf t d 0x00 5) (byteOf t d 0x00 6) = { dt with oscEn := 1 } ∧
      clockFlags (byteOf t d 0x00 0) (byteOf t d 0x00 1) (byteOf t d 0x00 2) (byteOf t d 0x00 3) (byteOf t d 0x00 4)
        (byteOf t d 0x00 5) (byteOf t d 0x00 6) = 0x00 := by
  have hbyte {i : Nat} {b : Byte} (hb : (clockBytes dt)[i]? = some b) : byteOf t d 0x00 i = b :=
    byteOf_setRegs (bs := clockBytes dt) hd (show 7 ≤ 256 by decide) hreg hb
  rw [hbyte (i := 0) rfl, hbyte (i := 1) rfl, hbyte (i := 2) rfl, hbyte (i := 3) rfl, hbyte (i := 4) rfl,
    hbyte (i := 5) rfl, hbyte (i := 6) rfl]
  exact ⟨clockReading_of_legalFields h, clockFlags_of_legalFields h⟩

/-- What is left for the next command after a legal date-time has been written. -/
theorem writeTime_stored {dt : DateTime} (h : legalFields dt) {s : State} {d : CallDraw} {ds : List CallDraw}
    (hs : s.draws = d :: ds) (hok : d.ok = true) : (writeTime dt s).draws = ds ∧
      (writeTime dt s).reg = (setRegs 0x00 (clockBytes dt) (atStart s d)).reg := by
  rw [writeTime_draw h hs, if_pos hok]
  exact ⟨rfl, rfl⟩

/-- Settles O46: GETDT decodes the bytes SETDT stored. -/
theorem getdtReturnsWhatSetdtWrote : Obligations.GetdtReturnsWhatSetdtWrote := by
  intro dt s d1 d2 ds hlegal hs hd1 hd2 hok1 hok2
  obtain ⟨hdraws, hreg⟩ := writeTime_stored hlegal hs hok1
  obtain ⟨hreading, hflags⟩ := clock_after_store hlegal hd2 hreg
  refine ⟨_, _, exec_setdt dt s, (getdtDecodesTheTimeRegisters.2 _ d2 ds hdraws).1 hok2, ?_⟩
  rw [hreading, hflags, atByte_calm _ _ hd2]
  exact ⟨rfl, rfl, rfl, rfl⟩

/-- Settles O47: GETU sums the date-time that U2DT gave SETU to store. -/
theorem getuReturnsWhatSetuWrote : Obligations.GetuReturnsWhatSetuWrote := by
  intro u s d1 d2 ds hlo hhi hs hd1 hd2 hok1 hok2
  have hlegal := (legalFields_toDateTime_iff u).mpr ⟨hlo, hhi⟩
  obtain ⟨hdraws, hreg⟩ := writeTime_stored hlegal hs hok1
  obtain ⟨hreading, hflags⟩ := clock_after_store hlegal hd2 hreg
  have hback := toUnix_toDateTime hlegal
  obtain ⟨-, -, -, -, -, -, -, hm, hm', -, -⟩ := hlegal
  have hget := (getuReadsAndSums.2 _ d2 ds _ _ hdraws hreading.symm hflags.symm).1 hok2 ⟨hm, hm'⟩
  refine ⟨_, _, _, exec_setu u s, hget, exec_u2dt u s, ?_, rfl, rfl, rfl⟩
  exact congrArg some ((toUnix_eq_unixSum hm').symm.trans hback)

/-! ### The bytes of an alarm block (R180 to R187) -/

theorem modeBit_and {mask : Byte} (mode : BitVec 3) (k : Nat) (h : 0x80 &&& mask = 0) : modeBit mode k &&& mask = 0 := by
  unfold modeBit
  split
  · exact h
  · exact BitVec.zero_and

theorem msb_modeBit (mode : BitVec 3) (k : Nat) : (modeBit mode k).msb = decide (mode.toNat ≤ k) := by
  unfold modeBit
  split
  case isTrue h => exact (decide_eq_true h).symm
  case isFalse h => exact (decide_eq_false h).symm

/-- A time byte of an alarm block: a mode bit over the field (R183). -/
def fieldByte (mode : BitVec 3) (k : Nat) (x mask : Byte) : Byte := modeBit mode k ||| (x &&& mask)

theorem fieldByte_and {mask : Byte} (mode : BitVec 3) (k : Nat) (x : Byte) (h : 0x80 &&& mask = 0) :
    fieldByte mode k x mask &&& mask = x &&& mask := by
  rw [fieldByte, BitVec.and_or_distrib_right, modeBit_and mode k h, BitVec.and_assoc, BitVec.and_self]
  exact BitVec.zero_or

theorem msb_fieldByte {mask : Byte} (mode : BitVec 3) (k : Nat) (x : Byte) (h : mask.msb = false) :
    (fieldByte mode k x mask).msb = decide (mode.toNat ≤ k) := by
  rw [fieldByte, BitVec.msb_or, BitVec.msb_and, h, Bool.and_false, Bool.or_false, msb_modeBit]

/-- An hours byte of an alarm block does not select 12-hour mode. -/
theorem not_twelveHour_fieldByte (mode : BitVec 3) (k : Nat) (x : Byte) :
    ¬ (fieldByte mode k x 0x3F).toNat / 64 % 2 = 1 := by
  rw [← twelveHour_eq_true_iff, twelveHour, fieldByte, BitVec.getLsbD_or, modeBit]
  split <;> simp

/-- The day/date byte of an alarm block: a mode bit, the selector and the field (R183). -/
def dayByte (mode : BitVec 3) (k : Nat) (dydt : Bit) (x : Byte) : Byte :=
  modeBit mode k ||| (dydt.setWidth 8 <<< 6) ||| (x &&& dayWidth dydt)

theorem selector_dayByte (mode : BitVec 3) (k : Nat) (dydt : Bit) (x : Byte) : selector (dayByte mode k dydt x) = dydt := by
  have hmode : (modeBit mode k).extractLsb' 6 1 = 0 := by unfold modeBit; split <;> rfl
  have hwidth : ∀ d : Bit, (dayWidth d).extractLsb' 6 1 = 0 := by decide
  have hplaced : (dydt.setWidth 8 <<< 6).extractLsb' 6 1 = dydt := extractLsb'_placed dydt (by decide)
  rw [← dayDydt_eq_selector, dayDydt, dayByte, BitVec.extractLsb'_or, BitVec.extractLsb'_or, BitVec.extractLsb'_and, hmode,
    hwidth, hplaced]
  simp

theorem dayByte_and (mode : BitVec 3) (k : Nat) (dydt : Bit) (x : Byte) :
    dayByte mode k dydt x &&& dayWidth dydt = x &&& dayWidth dydt := by
  have hselector : ∀ d : Bit, (d.setWidth 8 <<< 6) &&& dayWidth d = 0 := by decide
  have hmode : ∀ d : Bit, 0x80 &&& dayWidth d = 0 := by decide
  rw [dayByte, BitVec.and_or_distrib_right, BitVec.and_or_distrib_right, modeBit_and mode k (hmode dydt),
    hselector, BitVec.and_assoc, BitVec.and_self]
  simp

theorem msb_dayByte (mode : BitVec 3) (k : Nat) (dydt : Bit) (x : Byte) :
    (dayByte mode k dydt x).msb = decide (mode.toNat ≤ k) := by
  have hlow : ∀ d : Bit, (d.setWidth 8 <<< 6 : Byte).msb = false ∧ (dayWidth d).msb = false := by decide
  obtain ⟨hselector, hwidth⟩ := hlow dydt
  rw [dayByte, BitVec.msb_or, BitVec.msb_or, BitVec.msb_and, hselector, hwidth, msb_modeBit, Bool.and_false, Bool.or_false,
    Bool.or_false]

/-! ### The two alarm blocks read back (R189) -/

/-- The mode bits of a listed code of alarm 1 are its row of R181. -/
theorem alarm1Code_of_msb {b0 b1 b2 b3 : Byte} {mode : BitVec 3} (hmode : mode.toNat ≤ 4)
    (h0 : b0.msb = decide (mode.toNat ≤ 0)) (h1 : b1.msb = decide (mode.toNat ≤ 1))
    (h2 : b2.msb = decide (mode.toNat ≤ 2)) (h3 : b3.msb = decide (mode.toNat ≤ 3)) :
    alarm1Code b0 b1 b2 b3 = mode := by
  rw [alarm1Code, h0, h1, h2, h3]
  clear h0 h1 h2 h3
  revert mode
  decide

/-- The mode bits of a listed code of alarm 2 are its row of R182. -/
theorem alarm2Code_of_msb {b0 b1 b2 : Byte} {mode : BitVec 3} (hmode : mode.toNat ≤ 3)
    (h0 : b0.msb = decide (mode.toNat ≤ 0)) (h1 : b1.msb = decide (mode.toNat ≤ 1))
    (h2 : b2.msb = decide (mode.toNat ≤ 2)) : alarm2Code b0 b1 b2 = mode := by
  rw [alarm2Code, h0, h1, h2]
  clear h0 h1 h2
  revert mode
  decide

theorem not_loses_of_alarm1Range {al : AlarmRecord} (h : alarm1Range al = 0x00) : loses al.sec 0x7F = false ∧
    loses al.min 0x7F = false ∧ loses al.hour 0x3F = false ∧ loses al.dd (dayWidth al.dydt) = false := by
  unfold alarm1Range at h
  split at h
  case isTrue => cases h
  case isFalse hkept => simpa only [not_or, Bool.not_eq_true] using hkept

theorem not_loses_of_alarm2Range {al : AlarmRecord} (h : alarm2Range al = 0x00) :
    loses al.min 0x7F = false ∧ loses al.hour 0x3F = false ∧ loses al.dd (dayWidth al.dydt) = false := by
  unfold alarm2Range at h
  split at h
  case isTrue => cases h
  case isFalse hkept => simpa only [not_or, Bool.not_eq_true] using hkept

theorem listed_ne_seven {mode : BitVec 3} (h : mode.toNat ≤ 4) : mode ≠ 7 := by
  rintro rfl
  exact absurd h (by decide)

/-- The block of a record of alarm 1 that loses no bits decodes to the record without a flag, `ie` from control. -/
theorem alarm1Reading_of_not_loses {al : AlarmRecord} {b0 b1 b2 b3 c : Byte} (hmode : al.mode.toNat ≤ 4)
    (hkept : alarm1Range al = 0x00) (h0 : b0 = fieldByte al.mode 0 (bcdOf al.sec.toNat) 0x7F)
    (h1 : b1 = fieldByte al.mode 1 (bcdOf al.min.toNat) 0x7F)
    (h2 : b2 = fieldByte al.mode 2 (bcdOf al.hour.toNat) 0x3F)
    (h3 : b3 = dayByte al.mode 3 al.dydt (bcdOf al.dd.toNat)) (hie : c.extractLsb' 0 1 = al.ie) :
    alarm1Reading b0 b1 b2 b3 c = al ∧ alarm1ReadFlags b0 b1 b2 b3 = 0x00 := by
  subst h0 h1 h2 h3
  obtain ⟨hsec, hmin, hhour, hdd⟩ := not_loses_of_alarm1Range hkept
  have hcode := alarm1Code_of_msb hmode (msb_fieldByte al.mode 0 (bcdOf al.sec.toNat) (mask := 0x7F) rfl)
    (msb_fieldByte al.mode 1 (bcdOf al.min.toNat) (mask := 0x7F) rfl)
    (msb_fieldByte al.mode 2 (bcdOf al.hour.toNat) (mask := 0x3F) rfl)
    (msb_dayByte al.mode 3 al.dydt (bcdOf al.dd.toNat))
  rw [alarm1Reading, alarm1ReadFlags, hcode, selector_dayByte, dayByte_and, fieldByte_and _ _ _ rfl,
    fieldByte_and _ _ _ rfl, fieldByte_and _ _ _ rfl, bcdValue_field hsec, bcdValue_field hmin, bcdValue_field hhour,
    bcdValue_field hdd, notBcd_field hsec, notBcd_field hmin, notBcd_field hhour, notBcd_field hdd,
    if_neg (not_twelveHour_fieldByte _ _ _), if_neg (listed_ne_seven hmode), show BitVec.ofNat 1 c.toNat = al.ie from hie]
  simp

/-- The block of a record of alarm 2 that loses no bits decodes to the record with sec 0, `ie` from control. -/
theorem alarm2Reading_of_not_loses {al : AlarmRecord} {b0 b1 b2 c : Byte} (hmode : al.mode.toNat ≤ 3)
    (hkept : alarm2Range al = 0x00) (h0 : b0 = fieldByte al.mode 0 (bcdOf al.min.toNat) 0x7F)
    (h1 : b1 = fieldByte al.mode 1 (bcdOf al.hour.toNat) 0x3F)
    (h2 : b2 = dayByte al.mode 2 al.dydt (bcdOf al.dd.toNat)) (hie : c.extractLsb' 1 1 = al.ie) :
    alarm2Reading b0 b1 b2 c = { al with sec := 0 } ∧ alarm2ReadFlags b0 b1 b2 = 0x00 := by
  subst h0 h1 h2
  obtain ⟨hmin, hhour, hdd⟩ := not_loses_of_alarm2Range hkept
  have hcode := alarm2Code_of_msb hmode (msb_fieldByte al.mode 0 (bcdOf al.min.toNat) (mask := 0x7F) rfl)
    (msb_fieldByte al.mode 1 (bcdOf al.hour.toNat) (mask := 0x3F) rfl)
    (msb_dayByte al.mode 2 al.dydt (bcdOf al.dd.toNat))
  have hbit : BitVec.ofNat 1 (c.toNat / 2) = al.ie := by
    rw [← hie, BitVec.extractLsb', Nat.shiftRight_eq_div_pow]
  rw [alarm2Reading, alarm2ReadFlags, hcode, selector_dayByte, dayByte_and, fieldByte_and _ _ _ rfl,
    fieldByte_and _ _ _ rfl, bcdValue_field hmin, bcdValue_field hhour, bcdValue_field hdd, notBcd_field hmin,
    notBcd_field hhour, notBcd_field hdd, if_neg (not_twelveHour_fieldByte _ _ _),
    if_neg (listed_ne_seven (hmode.trans (by decide))), hbit]
  simp

/-! ### An alarm set and read back (R189) -/

/-- Calm for more calls is calm for fewer. -/
theorem calmFor_mono {m n : Nat} {s : State} (hmn : m ≤ n) (h : calmFor n s = true) : calmFor m s = true := by
  simp only [calmFor, Bool.and_eq_true, decide_eq_true_eq, List.all_eq_true] at h ⊢
  exact ⟨hmn.trans h.1, fun d hd => h.2 d ((List.take_sublist_take_left hmn).subset hd)⟩

/-- What is left for the next command after an alarm setter has completed under calm calls: the block it wrote. -/
theorem setAlarm_stored {s t : State} {a : Addr} {block : List Byte} {mask bits fl : Byte} {d1 d2 d3 : CallDraw}
    {ds : List CallDraw} (hexec : Host.Outcome.next (φ := Fault) (ρ := Refusal)
      (writeThen a block (rmwThen controlReg mask bits (complete fl)) s) = .next t)
    (hs : s.draws = d1 :: d2 :: d3 :: ds) (hd1 : d1.calm = true) (hd2 : d2.calm = true) (hd3 : d3.calm = true)
    (hst : t.status = some 0x00) : t.draws = ds ∧ t.flags = some fl ∧
      ∃ new, t.reg = (setReg controlReg new (setRegs a block s)).reg := by
  obtain rfl := Host.Outcome.next.inj hexec
  rw [writeThen_afterCall a block _ hs, atStart_calm s hd1] at hst ⊢
  split at hst
  case isFalse => cases hst
  case isTrue hok =>
    rw [if_pos hok]
    rw [rmwThen_complete_draw (s := afterCall s (.write a block) (d2 :: d3 :: ds) (setRegs a block s).reg)
      (t := setRegs a block s) fl rfl rfl (setRegs_params a block s).symm rfl,
      atByte_calm _ _ hd2, atStart_calm _ hd3] at hst ⊢
    split_ifs at hst ⊢
    · exact ⟨rfl, rfl, _, rfl⟩
    all_goals cases hst

/-- A calm read delivers the bytes of the block, which the write to control has left alone. -/
theorem byteOf_block {s t : State} {d : CallDraw} {a : Addr} {block : List Byte} {new b : Byte} {i : Nat}
    (hd : d.calm = true) (hreg : t.reg = (setReg controlReg new (setRegs a block s)).reg)
    (hlen : block.length ≤ 256) (hb : block[i]? = some b) (hne : a + BitVec.ofNat 8 i ≠ controlReg) :
    byteOf t d a i = b := by
  rw [byteOf_calm t a i hd, regByte_congr hreg, regByte_setReg_other _ _ hne]
  exact regByte_setRegs_at block a s hlen hb

/-- The draws of five calm calls. -/
theorem calm_of_calmFor_five {s : State} {d1 d2 d3 d4 d5 : CallDraw} {ds : List CallDraw}
    (hs : s.draws = d1 :: d2 :: d3 :: d4 :: d5 :: ds) (h : calmFor 5 s = true) :
    d1.calm = true ∧ d2.calm = true ∧ d3.calm = true ∧ d4.calm = true ∧ d5.calm = true := by
  simpa [calmFor, hs] using h

/-- Settles O52: the block SETAL1 stored decodes to the record, and A1IE is `ie`. -/
theorem alarm1RoundTripWithoutLoss : Obligations.Alarm1RoundTripWithoutLoss := by
  intro al s t d1 d2 d3 d4 d5 ds hs hcalm h4 h5 hexec hst hfl
  obtain ⟨-, -, -, -, hie, -⟩ := intcnIsForcedByTheCouplingAlone _ s t (calmFor_mono (show 3 ≤ 5 by decide) hcalm) hexec hst
  obtain ⟨hd1, hd2, hd3, hd4, hd5⟩ := calm_of_calmFor_five hs hcalm
  have hmode : al.mode.toNat ≤ 4 := by
    by_contra hreserved
    rw [exec_setal1_reservedMode (Nat.lt_of_not_le hreserved)] at hexec
    cases hexec
    cases hst
  rw [exec_setal1 hmode] at hexec
  obtain ⟨hdraws, hflags, new, hreg⟩ := setAlarm_stored hexec hs hd1 hd2 hd3 hst
  have hbyte {i : Nat} {b : Byte} (hb : (alarm1Block al)[i]? = some b) (hne : 0x07 + BitVec.ofNat 8 i ≠ controlReg) :
      byteOf t d4 0x07 i = b := byteOf_block hd4 hreg (show 4 ≤ 256 by decide) hb hne
  obtain ⟨hreading, hread⟩ := alarm1Reading_of_not_loses hmode (Option.some_inj.mp (hflags.symm.trans hfl))
    (hbyte (i := 0) rfl (by decide)) (hbyte (i := 1) rfl (by decide)) (hbyte (i := 2) rfl (by decide))
    (hbyte (i := 3) rfl (by decide)) (hie al rfl)
  refine ⟨_, (getal1DecodesBlockAndEnable.2 t _ d4 d5 ds hdraws rfl).1 h4 h5, ?_⟩
  rw [atByte_calm t 4 hd4, byteOf_calm t 0x0E 0 hd5, BitVec.add_zero, hreading, hread]
  exact ⟨rfl, rfl, rfl⟩

/-- Settles O53: the block SETAL2 stored decodes to the record with sec 0, and A2IE is `ie`. -/
theorem alarm2RoundTripWithoutLoss : Obligations.Alarm2RoundTripWithoutLoss := by
  intro al s t d1 d2 d3 d4 d5 ds hs hcalm h4 h5 hexec hst hfl
  obtain ⟨-, -, -, -, -, -, hie, -⟩ := intcnIsForcedByTheCouplingAlone _ s t (calmFor_mono (show 3 ≤ 5 by decide) hcalm) hexec hst
  obtain ⟨hd1, hd2, hd3, hd4, hd5⟩ := calm_of_calmFor_five hs hcalm
  have hmode : al.mode.toNat ≤ 3 := by
    by_contra hreserved
    rw [exec_setal2_reservedMode (Nat.lt_of_not_le hreserved)] at hexec
    cases hexec
    cases hst
  rw [exec_setal2 hmode] at hexec
  obtain ⟨hdraws, hflags, new, hreg⟩ := setAlarm_stored hexec hs hd1 hd2 hd3 hst
  have hbyte {i : Nat} {b : Byte} (hb : (alarm2Block al)[i]? = some b) (hne : 0x0B + BitVec.ofNat 8 i ≠ controlReg) :
      byteOf t d4 0x0B i = b := byteOf_block hd4 hreg (show 3 ≤ 256 by decide) hb hne
  obtain ⟨hreading, hread⟩ := alarm2Reading_of_not_loses hmode (Option.some_inj.mp (hflags.symm.trans hfl))
    (hbyte (i := 0) rfl (by decide)) (hbyte (i := 1) rfl (by decide)) (hbyte (i := 2) rfl (by decide)) (hie al rfl)
  refine ⟨_, (getal2DecodesBlockAndEnable.2 t _ d4 d5 ds hdraws rfl).1 h4 h5, ?_⟩
  rw [atByte_calm t 3 hd4, byteOf_calm t 0x0E 0 hd5, BitVec.add_zero, hreading, hread]
  exact ⟨rfl, rfl, rfl⟩

/-! ### A setting written and read back (R226) -/

/-- The getters' rows: the register and the bit field (R215 to R225). -/
def getterRow : Instr → Option (Addr × Nat × Nat)
  | .geteosc => some (0x0E, 7, 7)
  | .getbbsqw => some (0x0E, 6, 6)
  | .getrs => some (0x0E, 4, 3)
  | .getintcn => some (0x0E, 2, 2)
  | .geta1ie => some (0x0E, 0, 0)
  | .geta2ie => some (0x0E, 1, 1)
  | .geten32k => some (0x0F, 3, 3)
  | .geta1f => some (0x0F, 0, 0)
  | .geta2f => some (0x0F, 1, 1)
  | .getosf => some (0x0F, 7, 7)
  | .getbsy => some (0x0F, 2, 2)
  | _ => none

theorem exec_of_getterRow {g : Instr} {a : Addr} {hi lo : Nat} (h : getterRow g = some (a, hi, lo)) (s : State) :
    exec g s = .next (getBits a hi lo s) := by
  cases g with
  | geteosc | getbbsqw | getrs | getintcn | geta1ie | geta2ie | geten32k | geta1f | geta2f | getosf
  | getbsy => cases h; rfl
  | _ => cases h

/-- The field of a byte is decided by the bits under a mask that covers it. -/
theorem bitField_and {mask : Byte} {hi lo : Nat} (x : Byte)
    (hmask : mask.extractLsb hi lo = BitVec.allOnes (hi - lo + 1)) : bitField (x &&& mask) hi lo = bitField x hi lo := by
  rw [BitVec.extractLsb] at hmask
  rw [bitField, bitField, BitVec.extractLsb, BitVec.extractLsb, BitVec.extractLsb'_and, hmask, BitVec.and_allOnes]

/-- A merge keeps the bits outside the mask and holds the new bits under it. -/
theorem merge_and {mask bits : Byte} (x : Byte) (h : bits &&& ~~~mask = 0) :
    ((x &&& ~~~mask) ||| bits) &&& ~~~mask = x &&& ~~~mask ∧ ((x &&& ~~~mask) ||| bits) &&& mask = bits := by
  rw [BitVec.and_or_distrib_right, BitVec.and_or_distrib_right, h, and_eq_self_of_and_not_eq_zero h, BitVec.and_assoc,
    BitVec.and_assoc, BitVec.and_self]
  simp

/-- R226's table: each setter with its getter, and the value the getter gives back. -/
def settersWithGetters (v : Bit) (rs : BitVec 2) : List (Instr × Instr × Byte) :=
  [(.seteosc v, .geteosc, v.setWidth 8), (.setbbsqw v, .getbbsqw, v.setWidth 8), (.setrs rs, .getrs, rs.setWidth 8),
    (.setintcn v, .getintcn, v.setWidth 8), (.seta1ie v, .geta1ie, v.setWidth 8), (.seta2ie v, .geta2ie, v.setWidth 8),
    (.seten32k v, .geten32k, v.setWidth 8), (.clra1f, .geta1f, 0), (.clra2f, .geta2f, 0), (.clrosf, .getosf, 0)]

/-- In each row the mask covers the getter's field, the new bits lie under the mask, and their field is the value. -/
theorem getterRow_of_setterRow {v : Bit} {rs : BitVec 2} {i g : Instr} {x : Byte} {r : Addr} {m b : Byte}
    (hmem : (i, g, x) ∈ settersWithGetters v rs) (hrow : setterRow i = some (r, m, b)) :
    ∃ hi lo, getterRow g = some (r, hi, lo) ∧ lo ≤ hi ∧ m.extractLsb hi lo = BitVec.allOnes (hi - lo + 1) ∧
      b &&& ~~~m = 0 ∧ bitField b hi lo = x := by
  simp only [settersWithGetters, List.mem_cons, List.not_mem_nil, or_false, Prod.mk.injEq] at hmem
  obtain ⟨rfl, rfl, rfl⟩ | ⟨rfl, rfl, rfl⟩ | ⟨rfl, rfl, rfl⟩ | ⟨rfl, rfl, rfl⟩ | ⟨rfl, rfl, rfl⟩ | ⟨rfl, rfl, rfl⟩ |
    ⟨rfl, rfl, rfl⟩ | ⟨rfl, rfl, rfl⟩ | ⟨rfl, rfl, rfl⟩ | ⟨rfl, rfl, rfl⟩ := hmem <;> cases hrow <;>
    exact ⟨_, _, rfl, by decide, by decide, by decide +revert, by decide +revert⟩

/-- Settles O58: the setter's merge is what the getter's one read delivers. -/
theorem setThenGetPreservesOtherBits : Obligations.SetThenGetPreservesOtherBits := by
  intro v rs i g x hmem r m b s d1 d2 d3 ds hrow hs hcalm h1 h2 h3
  obtain ⟨hi, lo, hgetter, hlo, hmask, hbits, hvalue⟩ := getterRow_of_setterRow hmem hrow
  obtain ⟨hd1, hd2, hd3⟩ : d1.calm = true ∧ d2.calm = true ∧ d3.calm = true := by simpa [calmFor, hs] using hcalm
  obtain ⟨t, hset, hdraws, hreg⟩ : ∃ t, exec i s = .next t ∧ t.draws = d3 :: ds ∧
      t.reg = (setReg r ((regByte s r &&& ~~~m) ||| b) s).reg := by
    refine ⟨_, (exec_setter_draw hrow hs rfl rfl).1 h1 h2, rfl, ?_⟩
    rw [byteOf_calm s r 0 hd1, atByte_calm s 1 hd1, atStart_calm s hd2, BitVec.add_zero]
    rfl
  have hbyte : regByte t r = (regByte s r &&& ~~~m) ||| b := (regByte_congr hreg r).trans (regByte_setReg_same r _ s)
  obtain ⟨hkept, hnew⟩ := merge_and (regByte s r) hbits
  refine ⟨t, _, hset, (exec_getter_draw (exec_of_getterRow hgetter) hlo hdraws).1 h3, by rw [hbyte, hkept],
    by rw [hbyte, hnew], fun a ha => (regByte_congr hreg a).trans (regByte_setReg_other _ _ ha), ?_, rfl⟩
  rw [byteOf_calm t r 0 hd3, BitVec.add_zero, ← bitField_eq_div _ hlo, ← bitField_and _ hmask, hbyte, hnew, hvalue]

end Sys2Proof.Machine

/-! PROOFS. The assembler (R88, R89): a structured line by its row of the table, a line of text by its words, and
numbers in both bases. -/

namespace Sys2Proof.Machine

open Sys2Proof

/-! ### A structured line (R88) -/

/-- Each row of the table is found under its mnemonic, which is no pseudo-instruction's. -/
theorem asmTable_row {r : AsmRow} (h : r ∈ asmTable) : asmTable.find? (fun r' => r'.mnemonic == r.mnemonic) = some r ∧
    r.mnemonic ≠ "ALARMMODE" ∧ r.mnemonic ≠ "SQWMODE" ∧ r.op ∈ assignedOpcodes ∧ r.mnemonic ∈ assemblerMnemonics := by
  have hall : ∀ r ∈ asmTable, asmTable.find? (fun r' => r'.mnemonic == r.mnemonic) = some r ∧
      r.mnemonic ≠ "ALARMMODE" ∧ r.mnemonic ≠ "SQWMODE" ∧ r.op ∈ assignedOpcodes ∧
      r.mnemonic ∈ assemblerMnemonics := by decide +kernel
  exact hall r h

/-- A line of a mnemonic of the table presents the ports of its row's operand form. -/
theorem assemble_of_row {m : String} {op : Byte} {f : AsmForm} (h : ⟨m, op, f⟩ ∈ asmTable) (o : AsmOperand) :
    assemble m o = asmPorts op f o := by
  obtain ⟨hfind, hAlarm, hSqw, -, -⟩ := asmTable_row h
  rw [assemble_of_not_pseudo o hAlarm hSqw, asmCore, hfind]

theorem assemble_pseudo_with_operand {m : String} {o : AsmOperand} (hm : m = "ALARMMODE" ∨ m = "SQWMODE")
    (ho : o ≠ .none) : assemble m o = none := by
  rcases hm with rfl | rfl <;> simp [assemble, ho]

/-- A line that assembles is a pseudo-instruction alone, which presents SETINTCN, or a line of the table. -/
theorem assemble_cases {m : String} {o : AsmOperand} {c : Command} (h : assemble m o = some c) :
    ((m = "ALARMMODE" ∨ m = "SQWMODE") ∧ o = .none ∧ c.op = 0x33) ∨
      ∃ op f, ⟨m, op, f⟩ ∈ asmTable ∧ asmPorts op f o = some c := by
  by_cases hm : m = "ALARMMODE" ∨ m = "SQWMODE"
  · have ho : o = .none := by
      by_contra ho
      rw [assemble_pseudo_with_operand hm ho] at h
      cases h
    subst ho
    refine .inl ⟨hm, rfl, ?_⟩
    rcases hm with rfl | rfl
    · rw [assemble_alarmmode] at h
      cases h
      rfl
    · rw [assemble_sqwmode] at h
      cases h
      rfl
  · obtain ⟨hAlarm, hSqw⟩ := not_or.mp hm
    rw [assemble_of_not_pseudo o hAlarm hSqw, asmCore] at h
    split at h
    case h_1 r hr =>
      obtain rfl : r.mnemonic = m := by simpa using List.find?_some hr
      exact .inr ⟨r.op, r.form, List.mem_of_find?_eq_some hr, h⟩
    case h_2 => cases h

theorem asmPorts_op {op : Byte} {f : AsmForm} {o : AsmOperand} {c : Command} (h : asmPorts op f o = some c) :
    c.op = op := by
  unfold asmPorts at h
  split at h
  case h_1 =>
    split at h
    · cases h; rfl
    · cases h
  all_goals cases h <;> rfl

theorem assemble_assigned {m : String} {o : AsmOperand} {c : Command} (h : assemble m o = some c) :
    c.op ∈ assignedOpcodes ∧ m ∈ assemblerMnemonics := by
  rcases assemble_cases h with ⟨hm, -, hop⟩ | ⟨op, f, hrow, hports⟩
  · rw [hop]
    rcases hm with rfl | rfl <;> decide +kernel
  · obtain ⟨-, -, -, hop, hm⟩ := asmTable_row hrow
    exact ⟨asmPorts_op hports ▸ hop, hm⟩

/-- A property checked along a list holds of each member. -/
theorem of_mem_of_all {α : Type} {L : List α} {P : α → Prop} [DecidablePred P] {x : α}
    (hall : L.all (fun y => decide (P y)) = true) (hx : x ∈ L) : P x :=
  of_decide_eq_true (List.all_eq_true.mp hall x hx)

/-- A number that fits its width is presented zero-extended on port A (R82). -/
theorem scalarCommand_ofNat (op : Byte) {w n : Nat} (hw : w ≤ 32) (hn : n < 2 ^ w) :
    scalarCommand op (BitVec.ofNat w n) = ⟨op, BitVec.ofNat 32 n, zeroDateTime, zeroAlarm⟩ := by
  rw [scalarCommand, BitVec.setWidth_ofNat_of_le_of_lt hw hn]

/-! ### A line of text (R88) -/

/-- A line whose words are a mnemonic and an operand assembles as the mnemonic's form reads the operand. -/
theorem assembleLine_of_words {line : String} {m : List Char} {ws : List (List Char)}
    (h : lineWords (withoutComment line.toList) = m :: ws) : assembleLine line =
      (formOf (String.ofList m)).bind fun f => (operandOf f ws).bind fun o => assemble (String.ofList m) o := by
  rw [assembleLine, h]
  dsimp only
  cases formOf (String.ofList m) with
  | none => rfl
  | some f =>
    dsimp only [Option.bind_some]
    cases operandOf f ws <;> rfl

/-- A line that assembles has words, and they give a structured line that assembles alike. -/
theorem exists_words_of_assembleLine {line : String} {c : Command} (h : assembleLine line = some c) :
    ∃ m ws o, lineWords (withoutComment line.toList) = m :: ws ∧ assemble (String.ofList m) o = some c := by
  cases hwords : lineWords (withoutComment line.toList) with
  | nil =>
    rw [assembleLine, hwords] at h
    cases h
  | cons m ws =>
    rw [assembleLine_of_words hwords] at h
    obtain ⟨f, -, h⟩ := Option.bind_eq_some_iff.mp h
    obtain ⟨o, -, h⟩ := Option.bind_eq_some_iff.mp h
    exact ⟨m, ws, o, rfl, h⟩

/-- Settles O8: the four lists are the table's rows by operand form, and each form takes its own operand alone. -/
theorem assemblerRefusesUnknownAndReserved : Obligations.AssemblerRefusesUnknownAndReserved := by
  refine ⟨fun m op w hmem => ?_, fun m op hmem => ?_, fun m op hmem => ?_, fun m op hmem => ?_,
    fun m o c => assemble_assigned, fun line c h => ?_⟩
  · obtain ⟨hrow, hw⟩ : ⟨m, op, .imm w⟩ ∈ asmTable ∧ w ≤ 32 := of_mem_of_all
      (P := fun x : String × Byte × Nat => ⟨x.1, x.2.1, .imm x.2.2⟩ ∈ asmTable ∧ x.2.2 ≤ 32) (by decide +kernel) hmem
    have h := assemble_of_row hrow
    refine ⟨fun n => ?_, fun d => h _, fun r => h _, h _⟩
    rw [h, asmPorts]
    split
    · rename_i hn
      rw [scalarCommand_ofNat op hw hn]
    · rfl
  · have hrow : ⟨m, op, .dt⟩ ∈ asmTable ∨ ⟨m, op, .date⟩ ∈ asmTable := of_mem_of_all
      (P := fun x : String × Byte => ⟨x.1, x.2, .dt⟩ ∈ asmTable ∨ ⟨x.1, x.2, .date⟩ ∈ asmTable) (by decide +kernel) hmem
    rcases hrow with hrow | hrow
    all_goals
      have h := assemble_of_row hrow
      exact ⟨fun d => h _, fun n => h _, fun r => h _, h _⟩
  · have h := assemble_of_row (of_mem_of_all
      (P := fun x : String × Byte => ⟨x.1, x.2, .al⟩ ∈ asmTable) (by decide +kernel) hmem)
    exact ⟨fun r => h _, fun n => h _, fun d => h _, h _⟩
  · have h := assemble_of_row (of_mem_of_all
      (P := fun x : String × Byte => ⟨x.1, x.2, .none⟩ ∈ asmTable) (by decide +kernel) hmem)
    exact ⟨h _, fun n => h _, fun d => h _, fun r => h _⟩
  · obtain ⟨m, ws, o, hwords, hm⟩ := exists_words_of_assembleLine h
    obtain ⟨hop, hmnemonic⟩ := assemble_assigned hm
    exact ⟨hop, m, ws, hwords, hmnemonic⟩

/-- An operand has the form. -/
def FormTakes : AsmForm → AsmOperand → Prop
  | .imm _, .imm _ | .dt, .dt _ | .date, .dt _ | .al, .al _ | .none, .none => True
  | _, _ => False

theorem formTakes_of_asmPorts {op : Byte} {f : AsmForm} {o : AsmOperand} {c : Command}
    (h : asmPorts op f o = some c) : FormTakes f o := by
  cases f <;> cases o
  case imm.imm | dt.dt | date.dt | al.al | none.none => trivial
  all_goals cases h

/-- A structured line that assembles has an operand of its mnemonic's form. -/
theorem exists_formOf_of_assemble {m : String} {o : AsmOperand} {c : Command} (h : assemble m o = some c) :
    ∃ f, formOf m = some f ∧ FormTakes f o := by
  rcases assemble_cases h with ⟨hm, rfl, -⟩ | ⟨op, f, hrow, hports⟩
  · refine ⟨.none, ?_, trivial⟩
    rcases hm with rfl | rfl <;> rfl
  · obtain ⟨hfind, hAlarm, hSqw, -, -⟩ := asmTable_row hrow
    refine ⟨f, ?_, formTakes_of_asmPorts hports⟩
    simp [formOf, hAlarm, hSqw, hfind]

/-- A line assembles as the structured line does when every form that takes the operand reads it from the words. -/
theorem assembleLine_of_operand {line : String} {m : List Char} {ws : List (List Char)} {o : AsmOperand} {c : Command}
    (hwords : lineWords (withoutComment line.toList) = m :: ws)
    (hread : ∀ f, FormTakes f o → operandOf f ws = some o) (h : assemble (String.ofList m) o = some c) :
    assembleLine line = some c := by
  obtain ⟨f, hf, htakes⟩ := exists_formOf_of_assemble h
  rw [assembleLine_of_words hwords, hf, Option.bind_some, hread f htakes, Option.bind_some, h]

/-! ### The operand of a line (R88) -/

theorem operandOf_number {x : List Char} {n : Nat} (hx : numberOf x = some n) {f : AsmForm}
    (hf : FormTakes f (.imm n)) : operandOf f [x] = some (.imm n) := by
  cases f with
  | imm w => rw [operandOf, hx]; rfl
  | _ => cases hf

theorem operandOf_date {ws : List (List Char)} {d : DateTime} (hd : dateOperandOf ws = some d) {f : AsmForm}
    (hf : FormTakes f (.dt d)) : operandOf f ws = some (.dt d) := by
  cases f with
  | dt => rw [operandOf, hd]; rfl
  | date =>
    have hdow : dowOperandOf ws = some d := by unfold dowOperandOf; rw [hd]
    rw [operandOf, hdow]; rfl
  | _ => cases hf

theorem operandOf_alarm {ws : List (List Char)} {as : List (String × Nat)} {r : AlarmRecord}
    (has : recordOf ws = some as) (hr : alarmRecordOf as = some r) {f : AsmForm} (hf : FormTakes f (.al r)) :
    operandOf f ws = some (.al r) := by
  cases f with
  | al => rw [operandOf, has]; simp [hr]
  | _ => cases hf

theorem operandOf_nothing {f : AsmForm} (hf : FormTakes f .none) : operandOf f [] = some .none := by
  cases f with
  | none => rfl
  | _ => cases hf

/-! ### Numbers (R88) -/

theorem digitsFrom_append (base : Nat) (ys : List Char) : ∀ (xs : List Char) (acc : Nat),
    digitsFrom base acc (xs ++ ys) = (digitsFrom base acc xs).bind fun a => digitsFrom base a ys := by
  intro xs
  induction xs with
  | nil => exact fun _ => rfl
  | cons x xs ih =>
    intro acc
    simp only [List.cons_append, digitsFrom]
    split
    · split
      · exact ih _
      · rfl
    · rfl

theorem digitValue_digitChar {d : Nat} (h : d < 16) : digitValue d.digitChar = some d := by
  have hall : ∀ k < 16, digitValue k.digitChar = some k := by decide
  exact hall d h

theorem digitsFrom_digitChar {base d : Nat} (acc : Nat) (hbase : base ≤ 16) (hd : d < base) :
    digitsFrom base acc [d.digitChar] = some (acc * base + d) := by
  simp [digitsFrom, digitValue_digitChar (hd.trans_le hbase), hd]

/-- The digits of a number read as it, in every base up to 16. -/
theorem digitsFrom_toDigits {base : Nat} (hbase : 1 < base) (hbase16 : base ≤ 16) (n : Nat) :
    digitsFrom base 0 (Nat.toDigits base n) = some n := by
  induction n using Nat.strong_induction_on with
  | _ n ih =>
    rw [Nat.toDigits_eq_if hbase]
    split
    case isTrue hn => simpa using digitsFrom_digitChar 0 hbase16 hn
    case isFalse hn =>
      have hsmaller : n / base < n := Nat.div_lt_self (by omega) hbase
      rw [digitsFrom_append, ih _ hsmaller, Option.bind_some,
        digitsFrom_digitChar _ hbase16 (Nat.mod_lt n (by omega)), Nat.div_add_mod']

theorem digitsOf_toDigits {base : Nat} (hbase : 1 < base) (hbase16 : base ≤ 16) (n : Nat) :
    digitsOf base (Nat.toDigits base n) = some n := by
  rw [digitsOf, if_neg (by simp [Nat.toDigits_ne_nil]), digitsFrom_toDigits hbase hbase16]

theorem numberOf_decimal (n : Nat) : numberOf (Nat.toDigits 10 n) = some n := by
  unfold numberOf
  split
  case h_1 hs heq =>
    have hx : 'x' ∈ Nat.toDigits 10 n := by simp [heq]
    exact absurd (Nat.isDigit_of_mem_toDigits (by decide) le_rfl hx) (by decide)
  case h_2 => exact digitsOf_toDigits (by decide) (by decide) n

theorem numberOf_hex (n : Nat) : numberOf ('0' :: 'x' :: Nat.toDigits 16 n) = some n :=
  digitsOf_toDigits (by decide) le_rfl n

/-- Settles O9: the words of a line are read by the mnemonic's form, and the spec's lines are run. -/
theorem assemblerReadsLinesOfText : Obligations.AssemblerReadsLinesOfText := by
  refine ⟨fun line m ws c hwords => ⟨fun x n hws hx => ?_, fun d hd => ?_, fun as r has hr => ?_, fun hws => ?_⟩,
    fun n => ⟨numberOf_decimal n, numberOf_hex n⟩, ?_⟩
  · subst hws
    exact assembleLine_of_operand hwords fun _ => operandOf_number hx
  · exact assembleLine_of_operand hwords fun _ => operandOf_date hd
  · exact assembleLine_of_operand hwords fun _ => operandOf_alarm has hr
  · subst hws
    exact assembleLine_of_operand hwords fun _ => operandOf_nothing
  · refine ⟨?_, ?_, ?_, ?_, ?_, ?_, ?_, ?_, ?_, ?_, ?_⟩ <;> decide +kernel

end Sys2Proof.Machine
